-- ==== Sys2Proof/Word.lean ====
section
/-! DEFINITION. The word of the block (rule R5): 32 bits, with `w[hi:lo]` as an unsigned integer. -/

namespace Sys2Proof

/-- A word is 32 bits (R5). Every register, operand and result is one word. -/
abbrev Word := BitVec 32

/-- `w[hi:lo]` (R5): the unsigned integer formed by bits `hi` down to `lo` of `w`. -/
def bits (w : Word) (hi lo : Nat) : Nat :=
  w.toNat / 2 ^ lo % 2 ^ (hi + 1 - lo)

end Sys2Proof
end

