-- ==== Sys2Proof/Config.lean ====
section
/-! DEFINITION. What an implementation fixes and what the spec leaves free: the `Numerics` record
(R9), the bits of a NaN result (R7, U2), the Hilbert ROM (R190) and the default parameters (R4). -/

namespace Sys2Proof.Config

/-- `fsin` of `Numerics` (R9, D5): only known to depend on its operand alone. Log 3. -/
opaque fsin : Word → Word

/-- `fcos` of `Numerics` (R9, D5). Log 3. -/
opaque fcos : Word → Word

/-- `fexp`, e to the x, of `Numerics` (R9, D5). Log 3. -/
opaque fexp : Word → Word

/-- `flog10` of `Numerics` (R9, D5). Log 3. -/
opaque flog10 : Word → Word

/-- `fexp2`, 2 to the x, of `Numerics` (R9, D5). Log 3. -/
opaque fexp2 : Word → Word

/-- The operations whose result can be a NaN made by the block itself (R7, R14). -/
inductive NanSource where
  | add
  | mul
  | div
  | sqrt
  | wrap
  deriving DecidableEq, Repr

/-- The bits drawn for a NaN result: sign and payload are unspecified (R7, U2). Free; log 4. -/
opaque nanBits : NanSource → Word → Word → Word

/-- The magnitude of Hilbert tap `k`, for the 24 even `k` above 47: the source gives none (R190,
D27). Free; log 5. -/
opaque hilMagnitude : Nat → Word

/-- The sign of the zero at an odd Hilbert tap: R190 (b) allows either. Free; log 5. -/
opaque hilZeroSign : Nat → Bool

/-- `w` itself when it is a positive finite binary32 word, and otherwise a fixed such word: every
positive finite word is the value for some `w`. -/
def positiveFinite (w : Word) : Word :=
  if 0 < w.toNat ∧ w.toNat < 0x7F800000 then w else 0x3F800000#32

/-- Tap `k` of the ROM at reset, under the constraints (a) to (d) of R190. Log 5. -/
def hilTap (k : Nat) : Word :=
  if k % 2 = 1 then (if hilZeroSign k then 0x80000000#32 else 0#32)
  else if 47 < k then positiveFinite (hilMagnitude k)
  else positiveFinite (hilMagnitude (94 - k)) ^^^ 0x80000000#32

/-- The 95 taps of `HIL_COEF` at reset (R52, R190). -/
def hilCoef : List Word := (List.range 95).map hilTap

/-! Default values of the parameters (R4, D15). Log 2. -/

def nOsc : Nat := 4
def nPre : Nat := 2
def nFlp : Nat := 2
def nFhp : Nat := 2
def nBq : Nat := 4
def nHil : Nat := 1
def nFm : Nat := 2
def nDsb : Nat := 1
def nMux : Nat := 1
def nBs : Nat := 2
def nAgc : Nat := 1
def nAdd : Nat := 1
def nTilt : Nat := 2
def nDly : Nat := 1
def firTaps : Nat := 65
def dlyCap : Nat := 64

/-- `POLAR_DC` = 0.2 (R4, R12). -/
def polarDc : Word := 0x3E4CCCCD#32

/-- `SSB_Q_GAIN` = 0.775 (R4, R12). -/
def ssbQGain : Word := 0x3F466666#32

end Sys2Proof.Config
end

