-- ==== Sys2Proof/Machine/Float.lean ====
section
/-! DEFINITION. Binary32 arithmetic (R6 to R8, R11 to R14): each operation computes the exact result
over the integers, in units of 2^-149 (the least positive binary32 value), and rounds once. -/

namespace Sys2Proof.Machine

/-! Named constants (R12). -/

def twoPi : Word := 0x40C90FDB#32
def pi : Word := 0x40490FDB#32
def zero : Word := 0x00000000#32
def one : Word := 0x3F800000#32
def two : Word := 0x40000000#32
def ten : Word := 0x41200000#32
def twenty : Word := 0x41A00000#32
/-- `BS_WINDOW_S` (R4). -/
def sixty : Word := 0x42700000#32
def c042 : Word := 0x3ED70A3D#32
def half : Word := 0x3F000000#32
def c008 : Word := 0x3DA3D70A#32

/-! The format (R6). -/

/-- Bit 31. -/
def isNeg (a : Word) : Bool := decide (2 ^ 31 ≤ a.toNat)

/-- Bits 30:0. Read as a number they order the magnitudes. -/
def mag (a : Word) : Nat := a.toNat % 2 ^ 31

/-- The magnitude of the infinities: exponent field 255, fraction 0. -/
def infMag : Nat := 0x7F800000

def isNaN (a : Word) : Bool := decide (infMag < mag a)
def isInf (a : Word) : Bool := decide (mag a = infMag)

/-- `isfinite` (R8): neither an infinity nor a NaN. -/
def isFinite (a : Word) : Bool := decide (mag a < infMag)

/-- The word with this sign and magnitude. -/
def pack (neg : Bool) (m : Nat) : Word :=
  BitVec.ofNat 32 (if neg then 2 ^ 31 + m else m)

/-- The value of magnitude `m` in units of 2^-149: the fraction alone where the exponent field is 0
(subnormals are never flushed), else 1.fraction scaled. The infinite magnitude gives 2^277, above
every finite one, so that comparisons need no case for it. -/
def unitsOfMag (m : Nat) : Nat :=
  if m < 2 ^ 23 then m else (2 ^ 23 + m % 2 ^ 23) * 2 ^ (m / 2 ^ 23 - 1)

/-- The real value of a word that is not a NaN, in units of 2^-149. -/
def units (a : Word) : Int :=
  if isNeg a then -(unitsOfMag (mag a) : Int) else unitsOfMag (mag a)

/-! Rounding (R7): to nearest, ties to even. -/

/-- `num / den` rounded to the nearest integer, ties to even. -/
def nearestEven (num den : Nat) : Nat :=
  let q := num / den
  let r := num % den
  if den < 2 * r ∨ (2 * r = den ∧ q % 2 = 1) then q + 1 else q

/-- The exponent step at the value `num / den`: how many bits its integer part has above 24. -/
def excess (num den : Nat) : Nat := Nat.log2 (num / den) + 1 - 24

/-- The magnitude nearest to `num / den` units of 2^-149, ties to even: the quotient is rounded at
its 24th bit; a carry out of the significand moves to the next exponent by itself; from 2^128 on
the result is the infinite magnitude. -/
def roundMag (num den : Nat) : Nat :=
  let e := excess num den
  min (e * 2 ^ 23 + nearestEven num (den * 2 ^ e)) infMag

/-- The word nearest to the exact value of `n` units; an exact zero takes the sign `zeroNeg`. -/
def roundInt (n : Int) (zeroNeg : Bool) : Word :=
  if n = 0 then pack zeroNeg 0 else pack (decide (n < 0)) (roundMag n.natAbs 1)

/-- A NaN whose sign and payload are drawn (R7, U2): the drawn word if it is a NaN, so that every NaN
is possible. Log 4. -/
def nanFor (op : Config.NanSource) (a b : Word) : Word :=
  if isNaN (Config.nanBits op a b) then Config.nanBits op a b else 0x7FC00000#32

/-! The arithmetic primitives (R7). -/

/-- `fneg`: flips bit 31. -/
def fneg (a : Word) : Word := a ^^^ 0x80000000#32

/-- `fadd`. The sum of two zeros of one sign keeps it; every other exact zero is +0. -/
def fadd (a b : Word) : Word :=
  if isNaN a || isNaN b then nanFor .add a b
  else if isInf a then (if isInf b && (isNeg a != isNeg b) then nanFor .add a b else a)
  else if isInf b then b
  else roundInt (units a + units b) (isNeg a && isNeg b)

/-- `fsub`: adding the negated operand. -/
def fsub (a b : Word) : Word := fadd a (fneg b)

/-- `fmul`. The product of two values in units is in units of 2^-298. -/
def fmul (a b : Word) : Word :=
  if isNaN a || isNaN b then nanFor .mul a b
  else if isInf a || isInf b then
    (if mag a = 0 ∨ mag b = 0 then nanFor .mul a b else pack (isNeg a != isNeg b) infMag)
  else pack (isNeg a != isNeg b) (roundMag (unitsOfMag (mag a) * unitsOfMag (mag b)) (2 ^ 149))

/-- `fdiv`. -/
def fdiv (a b : Word) : Word :=
  if isNaN a || isNaN b then nanFor .div a b
  else if isInf a then (if isInf b then nanFor .div a b else pack (isNeg a != isNeg b) infMag)
  else if isInf b then pack (isNeg a != isNeg b) 0
  else if mag b = 0 then
    (if mag a = 0 then nanFor .div a b else pack (isNeg a != isNeg b) infMag)
  else pack (isNeg a != isNeg b) (roundMag (unitsOfMag (mag a) * 2 ^ 149) (unitsOfMag (mag b)))

/-- The integer square root, one bit at a time from bit `k - 1` down, starting from `r`. -/
def isqrtFrom (n : Nat) : Nat → Nat → Nat
  | 0, r => r
  | k + 1, r => isqrtFrom n k (if (r + 2 ^ k) * (r + 2 ^ k) ≤ n then r + 2 ^ k else r)

/-- The integer square root of `n < 2^428`. -/
def isqrt (n : Nat) : Nat := isqrtFrom n 214 0

/-- The magnitude nearest to the root of `m` units. The exact root is the root of `m * 2^149` units;
it has at least 75 integer bits, so its integer part with one bit below it, set when the root is
not an integer, rounds as the exact root does. Log 13. -/
def sqrtMag (m : Nat) : Nat :=
  let n := m * 2 ^ 149
  let r := isqrt n
  roundMag (if r * r = n then 2 * r else 2 * r + 1) 2

/-- `fsqrt`. The root of a zero is that zero; of any other negative value, a NaN. -/
def fsqrt (a : Word) : Word :=
  if isNaN a then nanFor .sqrt a 0
  else if mag a = 0 then a
  else if isNeg a then nanFor .sqrt a 0
  else if isInf a then a
  else pack false (sqrtMag (unitsOfMag (mag a)))

/-! Comparisons (R8): of the real values; false with a NaN operand. -/

def flt (a b : Word) : Bool := !isNaN a && !isNaN b && decide (units a < units b)
def fle (a b : Word) : Bool := !isNaN a && !isNaN b && decide (units a ≤ units b)
def fgt (a b : Word) : Bool := flt b a
def fge (a b : Word) : Bool := fle b a
def feq (a b : Word) : Bool := !isNaN a && !isNaN b && decide (units a = units b)

/-! Conversions (R11). -/

/-- `i2f`: the nearest F value of an integer. -/
def i2f (n : Int) : Word := roundInt (n * 2 ^ 149) false

/-- `u2f`: the nearest F value of an unsigned integer. -/
def u2f (n : Nat) : Word := i2f n

/-- `cmp_uf_ge(n, x)`: the integer n as a real is at least the real value of x; no rounding. -/
def cmpUfGe (n : Word) (x : Word) : Bool :=
  !isNaN x && decide (units x ≤ (n.toNat : Int) * 2 ^ 149)

/-- `clamp(x, lo, hi)` (R13). A NaN x is returned unchanged. -/
def clamp (x lo hi : Word) : Word :=
  if flt x lo then lo else if fgt x hi then hi else x

/-- `wrap2pi` (R14): the exact remainder of p by `TWO_PI`, with the sign of p; then one `TWO_PI` is
added to a negative remainder; `TWO_PI` itself and -0 become +0. -/
def wrap2pi (p : Word) : Word :=
  if !isFinite p then nanFor .wrap p 0
  else
    let n := (units p).tmod (units twoPi)
    let r := roundInt n (isNeg p)
    let r := if n < 0 then fadd r twoPi else r
    if fge r twoPi then zero else if mag r = 0 then zero else r

end Sys2Proof.Machine
end

