-- ==== Sys2Proof/Machine/Operands.lean ====
section
/-! DEFINITION. The operand forms: harmonics (R105), the signed operand of `DLY.SETD` (R197), the
fields of an ADD carrier word (R60), and circular-buffer indices (R16). -/

namespace Sys2Proof.Machine

/-- The argument of a harmonic read: `fmul(p, u2f(k))` (R105, R126). -/
def harmonicArg (p : Word) (k : Nat) : Word := fmul p (u2f k)

/-- `CSEL`, bits 1:0 of a CAR word (R60). -/
def carSel (w : Word) : Nat := bits w 1 0

/-- `HARM`, bits 15:8 of a CAR word (R60). -/
def carHarm (w : Word) : Nat := bits w 15 8

/-- The operand of `DLY.SETD` as an S32, clamped into 0..C-1 (R197). -/
def clampDelay (a : Word) (cap : Nat) : Nat :=
  if a.toInt < 0 then 0 else if a.toInt > (cap : Int) - 1 then cap - 1 else a.toInt.toNat

/-- `(c - k) mod N`, never negative (R16). -/
def back (c k n : Nat) : Nat := (((c : Int) - k) % n).toNat

/-- `(c + 1) mod N` as a cursor register (R16). -/
def nextCursor (c : Word) (n : Nat) : Word := BitVec.ofNat 32 ((c.toNat + 1) % n)

/-- Element `i` of an array register. Every index a run forms is in range (`State.Inv`). Log 12. -/
def elem (l : List Word) (i : Nat) : Word := l.getD i 0

/-- The dot product of the coefficients with the history read backwards from cursor `w`, summed
from k = 0 upward starting at +0 (R15, R168, R192). -/
def dot (coef hist : List Word) (w n : Nat) : Word :=
  (List.range n).foldl (fun acc k => fadd acc (fmul (elem coef k) (elem hist (back w k n)))) zero

end Sys2Proof.Machine
end

