-- ==== Sys2Proof/Syntax.lean ====
section
/-! DEFINITION. The syntax: unit types (R2, R102), command packets (R100) and the 71 commands of
the opcode table (R103), one constructor each. -/

namespace Sys2Proof

/-- The fifteen unit types of R2. -/
inductive UnitId where
  | sys
  | osc
  | pre
  | flp
  | fhp
  | bq
  | hil
  | fm
  | dsb
  | mux
  | bs
  | agc
  | add
  | tilt
  | dly
  deriving DecidableEq, Repr

/-- The unit number (R102). -/
def UnitId.num : UnitId → Nat
  | .sys => 0
  | .osc => 1
  | .pre => 2
  | .flp => 3
  | .fhp => 4
  | .bq => 5
  | .hil => 6
  | .fm => 7
  | .dsb => 8
  | .mux => 9
  | .bs => 10
  | .agc => 11
  | .add => 12
  | .tilt => 13
  | .dly => 14

/-- A command packet (R100): the command word and two operand words. -/
structure Packet where
  cmd : Word
  a : Word
  b : Word
  deriving DecidableEq, Repr

/-- The commands (R103), with the operands each one reads: `inst` is INST, `idx` the register index
IDX, `k` the harmonic, `ch` the adder channel, `adv` FLAGS bit 0 (R105), `a` and `b` the operand
words its format reads (R104). -/
inductive Instr where
  /-- `SYS.RST`, R275. -/
  | sysRst (inst : Nat)
  /-- `SYS.RD`, R277. -/
  | sysRd (inst idx : Nat)
  /-- `SYS.WR`, R278. -/
  | sysWr (inst idx : Nat) (a : Word)
  /-- `SYS.NOP`, R276. -/
  | sysNop (inst : Nat)
  /-- `OSC.INIT`, R121. -/
  | oscInit (inst : Nat) (a b : Word)
  /-- `OSC.RD`, R277. -/
  | oscRd (inst idx : Nat)
  /-- `OSC.WR`, R278. -/
  | oscWr (inst idx : Nat) (a : Word)
  /-- `OSC.SETF`, R122. -/
  | oscSetf (inst : Nat) (a : Word)
  /-- `OSC.SIN`, R124. -/
  | oscSin (inst : Nat)
  /-- `OSC.COS`, R125. -/
  | oscCos (inst : Nat)
  /-- `OSC.SINH`, R126. -/
  | oscSinh (inst k : Nat)
  /-- `OSC.COSH`, R127. -/
  | oscCosh (inst k : Nat)
  /-- `OSC.ADV`, R123. -/
  | oscAdv (inst : Nat)
  /-- `PRE.INIT`, R150. -/
  | preInit (inst : Nat)
  /-- `PRE.RD`, R277. -/
  | preRd (inst idx : Nat)
  /-- `PRE.WR`, R278. -/
  | preWr (inst idx : Nat) (a : Word)
  /-- `PRE.STEP`, R151. -/
  | preStep (inst : Nat) (a : Word)
  /-- `FLP.INIT`, R166. -/
  | flpInit (inst : Nat)
  /-- `FLP.RD`, R277. -/
  | flpRd (inst idx : Nat)
  /-- `FLP.WR`, R278. -/
  | flpWr (inst idx : Nat) (a : Word)
  /-- `FLP.STEP`, R168. -/
  | flpStep (inst : Nat) (a : Word)
  /-- `FHP.INIT`, R167. -/
  | fhpInit (inst : Nat)
  /-- `FHP.RD`, R277. -/
  | fhpRd (inst idx : Nat)
  /-- `FHP.WR`, R278. -/
  | fhpWr (inst idx : Nat) (a : Word)
  /-- `FHP.STEP`, R169. -/
  | fhpStep (inst : Nat) (a : Word)
  /-- `BQ.INIT`, R180. -/
  | bqInit (inst : Nat)
  /-- `BQ.RD`, R277. -/
  | bqRd (inst idx : Nat)
  /-- `BQ.WR`, R278. -/
  | bqWr (inst idx : Nat) (a : Word)
  /-- `BQ.STEP`, R181. -/
  | bqStep (inst : Nat) (a : Word)
  /-- `HIL.INIT`, R191. -/
  | hilInit (inst : Nat)
  /-- `HIL.RD`, R277. -/
  | hilRd (inst idx : Nat)
  /-- `HIL.WR`, R278. -/
  | hilWr (inst idx : Nat) (a : Word)
  /-- `HIL.STEP`, R192. -/
  | hilStep (inst : Nat) (a : Word)
  /-- `FM.INIT`, R140. -/
  | fmInit (inst : Nat)
  /-- `FM.RD`, R277. -/
  | fmRd (inst idx : Nat)
  /-- `FM.WR`, R278. -/
  | fmWr (inst idx : Nat) (a : Word)
  /-- `FM.MOD`, R141. -/
  | fmMod (inst : Nat) (a : Word)
  /-- `DSB.INIT`, R206. -/
  | dsbInit (inst : Nat)
  /-- `DSB.RD`, R277. -/
  | dsbRd (inst idx : Nat)
  /-- `DSB.WR`, R278. -/
  | dsbWr (inst idx : Nat) (a : Word)
  /-- `DSB.ENC`, R207. -/
  | dsbEnc (inst : Nat) (a : Word)
  /-- `MUX.INIT`, R209. -/
  | muxInit (inst : Nat)
  /-- `MUX.RD`, R277. -/
  | muxRd (inst idx : Nat)
  /-- `MUX.WR`, R278. -/
  | muxWr (inst idx : Nat) (a : Word)
  /-- `MUX.ENC`, R210. -/
  | muxEnc (inst : Nat) (adv : Bool) (a b : Word)
  /-- `BS.INIT`, R226. -/
  | bsInit (inst : Nat)
  /-- `BS.RD`, R277. -/
  | bsRd (inst idx : Nat)
  /-- `BS.WR`, R278. -/
  | bsWr (inst idx : Nat) (a : Word)
  /-- `BS.MEAS`, R228. -/
  | bsMeas (inst : Nat) (a : Word)
  /-- `BS.D2DBR`, R229. -/
  | bsD2dbr (inst : Nat) (a : Word)
  /-- `BS.DBR2D`, R230. -/
  | bsDbr2d (inst : Nat) (a : Word)
  /-- `BS.RATIO`, R231. -/
  | bsRatio (inst : Nat) (a : Word)
  /-- `AGC.INIT`, R245. -/
  | agcInit (inst : Nat)
  /-- `AGC.RD`, R277. -/
  | agcRd (inst idx : Nat)
  /-- `AGC.WR`, R278. -/
  | agcWr (inst idx : Nat) (a : Word)
  /-- `AGC.PROC`, R247. -/
  | agcProc (inst : Nat) (a : Word)
  /-- `ADD.INIT`, R260. -/
  | addInit (inst : Nat)
  /-- `ADD.RD`, R277. -/
  | addRd (inst idx : Nat)
  /-- `ADD.WR`, R278. -/
  | addWr (inst idx : Nat) (a : Word)
  /-- `ADD.CLR`, R261. -/
  | addClr (inst : Nat)
  /-- `ADD.IN`, R262. -/
  | addIn (inst : Nat) (ch : Fin 8) (a : Word)
  /-- `ADD.OUT`, R263. -/
  | addOut (inst : Nat)
  /-- `TILT.INIT`, R155. -/
  | tiltInit (inst : Nat)
  /-- `TILT.RD`, R277. -/
  | tiltRd (inst idx : Nat)
  /-- `TILT.WR`, R278. -/
  | tiltWr (inst idx : Nat) (a : Word)
  /-- `TILT.STEP`, R156. -/
  | tiltStep (inst : Nat) (a : Word)
  /-- `DLY.INIT`, R196. -/
  | dlyInit (inst : Nat)
  /-- `DLY.RD`, R277. -/
  | dlyRd (inst idx : Nat)
  /-- `DLY.WR`, R278. -/
  | dlyWr (inst idx : Nat) (a : Word)
  /-- `DLY.SETD`, R197. -/
  | dlySetd (inst : Nat) (a : Word)
  /-- `DLY.PUSHPOP`, R198. -/
  | dlyPushpop (inst : Nat) (a : Word)
  deriving DecidableEq, Repr

/-- The unit a command addresses (R103). -/
def Instr.unit : Instr → UnitId
  | .sysRst _ => .sys
  | .sysRd _ _ => .sys
  | .sysWr _ _ _ => .sys
  | .sysNop _ => .sys
  | .oscInit _ _ _ => .osc
  | .oscRd _ _ => .osc
  | .oscWr _ _ _ => .osc
  | .oscSetf _ _ => .osc
  | .oscSin _ => .osc
  | .oscCos _ => .osc
  | .oscSinh _ _ => .osc
  | .oscCosh _ _ => .osc
  | .oscAdv _ => .osc
  | .preInit _ => .pre
  | .preRd _ _ => .pre
  | .preWr _ _ _ => .pre
  | .preStep _ _ => .pre
  | .flpInit _ => .flp
  | .flpRd _ _ => .flp
  | .flpWr _ _ _ => .flp
  | .flpStep _ _ => .flp
  | .fhpInit _ => .fhp
  | .fhpRd _ _ => .fhp
  | .fhpWr _ _ _ => .fhp
  | .fhpStep _ _ => .fhp
  | .bqInit _ => .bq
  | .bqRd _ _ => .bq
  | .bqWr _ _ _ => .bq
  | .bqStep _ _ => .bq
  | .hilInit _ => .hil
  | .hilRd _ _ => .hil
  | .hilWr _ _ _ => .hil
  | .hilStep _ _ => .hil
  | .fmInit _ => .fm
  | .fmRd _ _ => .fm
  | .fmWr _ _ _ => .fm
  | .fmMod _ _ => .fm
  | .dsbInit _ => .dsb
  | .dsbRd _ _ => .dsb
  | .dsbWr _ _ _ => .dsb
  | .dsbEnc _ _ => .dsb
  | .muxInit _ => .mux
  | .muxRd _ _ => .mux
  | .muxWr _ _ _ => .mux
  | .muxEnc _ _ _ _ => .mux
  | .bsInit _ => .bs
  | .bsRd _ _ => .bs
  | .bsWr _ _ _ => .bs
  | .bsMeas _ _ => .bs
  | .bsD2dbr _ _ => .bs
  | .bsDbr2d _ _ => .bs
  | .bsRatio _ _ => .bs
  | .agcInit _ => .agc
  | .agcRd _ _ => .agc
  | .agcWr _ _ _ => .agc
  | .agcProc _ _ => .agc
  | .addInit _ => .add
  | .addRd _ _ => .add
  | .addWr _ _ _ => .add
  | .addClr _ => .add
  | .addIn _ _ _ => .add
  | .addOut _ => .add
  | .tiltInit _ => .tilt
  | .tiltRd _ _ => .tilt
  | .tiltWr _ _ _ => .tilt
  | .tiltStep _ _ => .tilt
  | .dlyInit _ => .dly
  | .dlyRd _ _ => .dly
  | .dlyWr _ _ _ => .dly
  | .dlySetd _ _ => .dly
  | .dlyPushpop _ _ => .dly

/-- The instance a command addresses (R101). -/
def Instr.inst : Instr → Nat
  | .sysRst inst => inst
  | .sysRd inst _ => inst
  | .sysWr inst _ _ => inst
  | .sysNop inst => inst
  | .oscInit inst _ _ => inst
  | .oscRd inst _ => inst
  | .oscWr inst _ _ => inst
  | .oscSetf inst _ => inst
  | .oscSin inst => inst
  | .oscCos inst => inst
  | .oscSinh inst _ => inst
  | .oscCosh inst _ => inst
  | .oscAdv inst => inst
  | .preInit inst => inst
  | .preRd inst _ => inst
  | .preWr inst _ _ => inst
  | .preStep inst _ => inst
  | .flpInit inst => inst
  | .flpRd inst _ => inst
  | .flpWr inst _ _ => inst
  | .flpStep inst _ => inst
  | .fhpInit inst => inst
  | .fhpRd inst _ => inst
  | .fhpWr inst _ _ => inst
  | .fhpStep inst _ => inst
  | .bqInit inst => inst
  | .bqRd inst _ => inst
  | .bqWr inst _ _ => inst
  | .bqStep inst _ => inst
  | .hilInit inst => inst
  | .hilRd inst _ => inst
  | .hilWr inst _ _ => inst
  | .hilStep inst _ => inst
  | .fmInit inst => inst
  | .fmRd inst _ => inst
  | .fmWr inst _ _ => inst
  | .fmMod inst _ => inst
  | .dsbInit inst => inst
  | .dsbRd inst _ => inst
  | .dsbWr inst _ _ => inst
  | .dsbEnc inst _ => inst
  | .muxInit inst => inst
  | .muxRd inst _ => inst
  | .muxWr inst _ _ => inst
  | .muxEnc inst _ _ _ => inst
  | .bsInit inst => inst
  | .bsRd inst _ => inst
  | .bsWr inst _ _ => inst
  | .bsMeas inst _ => inst
  | .bsD2dbr inst _ => inst
  | .bsDbr2d inst _ => inst
  | .bsRatio inst _ => inst
  | .agcInit inst => inst
  | .agcRd inst _ => inst
  | .agcWr inst _ _ => inst
  | .agcProc inst _ => inst
  | .addInit inst => inst
  | .addRd inst _ => inst
  | .addWr inst _ _ => inst
  | .addClr inst => inst
  | .addIn inst _ _ => inst
  | .addOut inst => inst
  | .tiltInit inst => inst
  | .tiltRd inst _ => inst
  | .tiltWr inst _ _ => inst
  | .tiltStep inst _ => inst
  | .dlyInit inst => inst
  | .dlyRd inst _ => inst
  | .dlyWr inst _ _ => inst
  | .dlySetd inst _ => inst
  | .dlyPushpop inst _ => inst

/-- The four sorts of command that the common checks tell apart (R293 to R297). -/
inductive CommandSort where
  | init
  | read
  | write
  | operation
  deriving DecidableEq, Repr

/-- FUNC 0 constructs, FUNC 1 reads, FUNC 2 writes, the rest operate (R103). `SYS.RST` and `SYS.NOP`
are counted with `init`: like it they need no construction (R296). -/
def Instr.sort : Instr → CommandSort
  | .sysRst _ => .init
  | .sysRd _ _ => .read
  | .sysWr _ _ _ => .write
  | .sysNop _ => .init
  | .oscInit _ _ _ => .init
  | .oscRd _ _ => .read
  | .oscWr _ _ _ => .write
  | .oscSetf _ _ => .operation
  | .oscSin _ => .operation
  | .oscCos _ => .operation
  | .oscSinh _ _ => .operation
  | .oscCosh _ _ => .operation
  | .oscAdv _ => .operation
  | .preInit _ => .init
  | .preRd _ _ => .read
  | .preWr _ _ _ => .write
  | .preStep _ _ => .operation
  | .flpInit _ => .init
  | .flpRd _ _ => .read
  | .flpWr _ _ _ => .write
  | .flpStep _ _ => .operation
  | .fhpInit _ => .init
  | .fhpRd _ _ => .read
  | .fhpWr _ _ _ => .write
  | .fhpStep _ _ => .operation
  | .bqInit _ => .init
  | .bqRd _ _ => .read
  | .bqWr _ _ _ => .write
  | .bqStep _ _ => .operation
  | .hilInit _ => .init
  | .hilRd _ _ => .read
  | .hilWr _ _ _ => .write
  | .hilStep _ _ => .operation
  | .fmInit _ => .init
  | .fmRd _ _ => .read
  | .fmWr _ _ _ => .write
  | .fmMod _ _ => .operation
  | .dsbInit _ => .init
  | .dsbRd _ _ => .read
  | .dsbWr _ _ _ => .write
  | .dsbEnc _ _ => .operation
  | .muxInit _ => .init
  | .muxRd _ _ => .read
  | .muxWr _ _ _ => .write
  | .muxEnc _ _ _ _ => .operation
  | .bsInit _ => .init
  | .bsRd _ _ => .read
  | .bsWr _ _ _ => .write
  | .bsMeas _ _ => .operation
  | .bsD2dbr _ _ => .operation
  | .bsDbr2d _ _ => .operation
  | .bsRatio _ _ => .operation
  | .agcInit _ => .init
  | .agcRd _ _ => .read
  | .agcWr _ _ _ => .write
  | .agcProc _ _ => .operation
  | .addInit _ => .init
  | .addRd _ _ => .read
  | .addWr _ _ _ => .write
  | .addClr _ => .operation
  | .addIn _ _ _ => .operation
  | .addOut _ => .operation
  | .tiltInit _ => .init
  | .tiltRd _ _ => .read
  | .tiltWr _ _ _ => .write
  | .tiltStep _ _ => .operation
  | .dlyInit _ => .init
  | .dlyRd _ _ => .read
  | .dlyWr _ _ _ => .write
  | .dlySetd _ _ => .operation
  | .dlyPushpop _ _ => .operation

/-- How many operand words the command's format reads (R103, R104): none, A, or A and B. -/
def Instr.operandWords : Instr → Nat
  | .sysRst _ => 0
  | .sysRd _ _ => 0
  | .sysWr _ _ _ => 1
  | .sysNop _ => 0
  | .oscInit _ _ _ => 2
  | .oscRd _ _ => 0
  | .oscWr _ _ _ => 1
  | .oscSetf _ _ => 1
  | .oscSin _ => 0
  | .oscCos _ => 0
  | .oscSinh _ _ => 0
  | .oscCosh _ _ => 0
  | .oscAdv _ => 0
  | .preInit _ => 0
  | .preRd _ _ => 0
  | .preWr _ _ _ => 1
  | .preStep _ _ => 1
  | .flpInit _ => 0
  | .flpRd _ _ => 0
  | .flpWr _ _ _ => 1
  | .flpStep _ _ => 1
  | .fhpInit _ => 0
  | .fhpRd _ _ => 0
  | .fhpWr _ _ _ => 1
  | .fhpStep _ _ => 1
  | .bqInit _ => 0
  | .bqRd _ _ => 0
  | .bqWr _ _ _ => 1
  | .bqStep _ _ => 1
  | .hilInit _ => 0
  | .hilRd _ _ => 0
  | .hilWr _ _ _ => 1
  | .hilStep _ _ => 1
  | .fmInit _ => 0
  | .fmRd _ _ => 0
  | .fmWr _ _ _ => 1
  | .fmMod _ _ => 1
  | .dsbInit _ => 0
  | .dsbRd _ _ => 0
  | .dsbWr _ _ _ => 1
  | .dsbEnc _ _ => 1
  | .muxInit _ => 0
  | .muxRd _ _ => 0
  | .muxWr _ _ _ => 1
  | .muxEnc _ _ _ _ => 2
  | .bsInit _ => 0
  | .bsRd _ _ => 0
  | .bsWr _ _ _ => 1
  | .bsMeas _ _ => 1
  | .bsD2dbr _ _ => 1
  | .bsDbr2d _ _ => 1
  | .bsRatio _ _ => 1
  | .agcInit _ => 0
  | .agcRd _ _ => 0
  | .agcWr _ _ _ => 1
  | .agcProc _ _ => 1
  | .addInit _ => 0
  | .addRd _ _ => 0
  | .addWr _ _ _ => 1
  | .addClr _ => 0
  | .addIn _ _ _ => 1
  | .addOut _ => 0
  | .tiltInit _ => 0
  | .tiltRd _ _ => 0
  | .tiltWr _ _ _ => 1
  | .tiltStep _ _ => 1
  | .dlyInit _ => 0
  | .dlyRd _ _ => 0
  | .dlyWr _ _ _ => 1
  | .dlySetd _ _ => 1
  | .dlyPushpop _ _ => 1

/-! The pseudo-instructions of R110, each expanding to one command. -/

/-- `OSC.PILOT i`. -/
def Instr.oscPilot (inst : Nat) : Instr := .oscSinh inst 1

/-- `OSC.SUBC i`. -/
def Instr.oscSubc (inst : Nat) : Instr := .oscSinh inst 2

/-- `MUX.ENCA i, l, r`. -/
def Instr.muxEnca (inst : Nat) (l r : Word) : Instr := .muxEnc inst true l r

/-- `U.RD inst, idx` (R277) for any unit. -/
def Instr.rd : UnitId → Nat → Nat → Instr
  | .sys, inst, idx => .sysRd inst idx
  | .osc, inst, idx => .oscRd inst idx
  | .pre, inst, idx => .preRd inst idx
  | .flp, inst, idx => .flpRd inst idx
  | .fhp, inst, idx => .fhpRd inst idx
  | .bq, inst, idx => .bqRd inst idx
  | .hil, inst, idx => .hilRd inst idx
  | .fm, inst, idx => .fmRd inst idx
  | .dsb, inst, idx => .dsbRd inst idx
  | .mux, inst, idx => .muxRd inst idx
  | .bs, inst, idx => .bsRd inst idx
  | .agc, inst, idx => .agcRd inst idx
  | .add, inst, idx => .addRd inst idx
  | .tilt, inst, idx => .tiltRd inst idx
  | .dly, inst, idx => .dlyRd inst idx

/-- `U.WR inst, idx, a` (R278) for any unit; R110's `CFG U i, REG, v`. -/
def Instr.wr : UnitId → Nat → Nat → Word → Instr
  | .sys, inst, idx, a => .sysWr inst idx a
  | .osc, inst, idx, a => .oscWr inst idx a
  | .pre, inst, idx, a => .preWr inst idx a
  | .flp, inst, idx, a => .flpWr inst idx a
  | .fhp, inst, idx, a => .fhpWr inst idx a
  | .bq, inst, idx, a => .bqWr inst idx a
  | .hil, inst, idx, a => .hilWr inst idx a
  | .fm, inst, idx, a => .fmWr inst idx a
  | .dsb, inst, idx, a => .dsbWr inst idx a
  | .mux, inst, idx, a => .muxWr inst idx a
  | .bs, inst, idx, a => .bsWr inst idx a
  | .agc, inst, idx, a => .agcWr inst idx a
  | .add, inst, idx, a => .addWr inst idx a
  | .tilt, inst, idx, a => .tiltWr inst idx a
  | .dly, inst, idx, a => .dlyWr inst idx a

end Sys2Proof
end

