-- ==== Sys2Proof/Machine/State.lean ====
section
/-! DEFINITION. The state of the block: every register of `10_state.md` R46 to R60, the parameters
of R4 as plain data, the host's pending input and the last response; the state after reset (R63). -/

namespace Sys2Proof.Machine

/-- The error codes of R291. -/
inductive ErrorCode where
  | ok
  | illegalCmd
  | badInstance
  | badIndex
  | configError
  | notInit
  deriving DecidableEq, Repr

/-- A response packet (R100, R106). -/
structure Response where
  err : ErrorCode
  r0 : Word
  r1 : Word
  deriving DecidableEq, Repr

/-- What the host does to the block (R315, R333): present a packet, or hold `rst` high. Log 7. -/
inductive HostEvent where
  | command (p : Packet)
  | rst
  deriving DecidableEq, Repr

/-- The access classes of R44. -/
inductive RegClass where
  | cfg
  | drv
  | st
  | ro
  | rom
  deriving DecidableEq, Repr

/-- The parameters of R4 other than the instance counts (those are list lengths in `State`) and
`Numerics` (`Config`). No step changes them (R45). Log 1. -/
structure Params where
  firTaps : Nat
  dlyCap : Nat
  polarDc : Word
  ssbQGain : Word
  hilCoef : List Word
  deriving DecidableEq, Repr

/-- The registers of one OSC instance (R47). -/
structure OscRegs where
  phase : Word
  pinc : Word
  srate : Word
  inited : Bool
  deriving DecidableEq, Repr

/-- Every register +0 or 0, not constructed (R63). -/
def OscRegs.reset : OscRegs where
  phase := 0
  pinc := 0
  srate := 0
  inited := false

/-- The registers of one PRE instance (R49). -/
structure PreRegs where
  tau : Word
  srate : Word
  reffreq : Word
  alpha : Word
  gain : Word
  xprev : Word
  inited : Bool
  deriving DecidableEq, Repr

/-- Every register +0 or 0, not constructed (R63). -/
def PreRegs.reset : PreRegs where
  tau := 0
  srate := 0
  reffreq := 0
  alpha := 0
  gain := 0
  xprev := 0
  inited := false

/-- The registers of one FLP or FHP instance (R50). -/
structure FirRegs where
  cutoff : Word
  srate : Word
  wpos : Word
  coef : List Word
  hist : List Word
  inited : Bool
  deriving DecidableEq, Repr

/-- Every register +0 or 0, not constructed (R63). -/
def FirRegs.reset (taps : Nat) : FirRegs where
  cutoff := 0
  srate := 0
  wpos := 0
  coef := List.replicate taps 0
  hist := List.replicate taps 0
  inited := false

/-- The registers of one BQ instance (R51). -/
structure BqRegs where
  b0 : Word
  b1 : Word
  b2 : Word
  a1 : Word
  a2 : Word
  x1 : Word
  x2 : Word
  y1 : Word
  y2 : Word
  inited : Bool
  deriving DecidableEq, Repr

/-- Every register +0 or 0, not constructed (R63). -/
def BqRegs.reset : BqRegs where
  b0 := 0
  b1 := 0
  b2 := 0
  a1 := 0
  a2 := 0
  x1 := 0
  x2 := 0
  y1 := 0
  y2 := 0
  inited := false

/-- The registers of one HIL instance (R52); the ROM is `Params.hilCoef`. -/
structure HilRegs where
  wpos : Word
  hist : List Word
  inited : Bool
  deriving DecidableEq, Repr

/-- Every register +0 or 0, not constructed (R63). -/
def HilRegs.reset : HilRegs where
  wpos := 0
  hist := List.replicate 95 0
  inited := false

/-- The registers of one FM instance (R53). -/
structure FmRegs where
  center : Word
  deviation : Word
  srate : Word
  shared : Word
  oscsel : Word
  phase : Word
  inited : Bool
  deriving DecidableEq, Repr

/-- Every register +0 or 0, not constructed (R63). -/
def FmRegs.reset : FmRegs where
  center := 0
  deviation := 0
  srate := 0
  shared := 0
  oscsel := 0
  phase := 0
  inited := false

/-- The registers of one DSB instance (R54). -/
structure DsbRegs where
  oscsel : Word
  harm : Word
  polar : Word
  inited : Bool
  deriving DecidableEq, Repr

/-- Every register +0 or 0, not constructed (R63). -/
def DsbRegs.reset : DsbRegs where
  oscsel := 0
  harm := 0
  polar := 0
  inited := false

/-- The registers of one MUX instance (R55). -/
structure MuxRegs where
  oscsel : Word
  harm : Word
  mode : Word
  sideband : Word
  monovol : Word
  pilotvol : Word
  stereovol : Word
  hilsel : Word
  dlysel : Word
  inited : Bool
  deriving DecidableEq, Repr

/-- Every register +0 or 0, not constructed (R63). -/
def MuxRegs.reset : MuxRegs where
  oscsel := 0
  harm := 0
  mode := 0
  sideband := 0
  monovol := 0
  pilotvol := 0
  stereovol := 0
  hilsel := 0
  dlysel := 0
  inited := false

/-- The registers of one BS instance (R56). -/
structure BsRegs where
  srate : Word
  refdev : Word
  floor : Word
  eps : Word
  target : Word
  acc : Word
  count : Word
  inited : Bool
  deriving DecidableEq, Repr

/-- Every register +0 or 0, not constructed (R63). -/
def BsRegs.reset : BsRegs where
  srate := 0
  refdev := 0
  floor := 0
  eps := 0
  target := 0
  acc := 0
  count := 0
  inited := false

/-- The registers of one AGC instance (R58). -/
structure AgcRegs where
  srate : Word
  target : Word
  mingain : Word
  maxgain : Word
  attackT : Word
  releaseT : Word
  rmsT : Word
  eps : Word
  attackC : Word
  releaseC : Word
  rmsC : Word
  gain : Word
  level : Word
  rmsbuf : Word
  inited : Bool
  deriving DecidableEq, Repr

/-- Every register +0 or 0, not constructed (R63). -/
def AgcRegs.reset : AgcRegs where
  srate := 0
  target := 0
  mingain := 0
  maxgain := 0
  attackT := 0
  releaseT := 0
  rmsT := 0
  eps := 0
  attackC := 0
  releaseC := 0
  rmsC := 0
  gain := 0
  level := 0
  rmsbuf := 0
  inited := false

/-- The registers of one ADD instance (R60). -/
structure AddRegs where
  oscsel : Word
  vol : Vector Word 8
  car : Vector Word 8
  sum : Word
  inited : Bool
  deriving DecidableEq, Repr

/-- Every register +0 or 0, not constructed (R63). -/
def AddRegs.reset : AddRegs where
  oscsel := 0
  vol := Vector.replicate 8 0
  car := Vector.replicate 8 0
  sum := 0
  inited := false

/-- The registers of one TILT instance (R60). -/
structure TiltRegs where
  cutoff : Word
  srate : Word
  alpha : Word
  xprev : Word
  yprev : Word
  inited : Bool
  deriving DecidableEq, Repr

/-- Every register +0 or 0, not constructed (R63). -/
def TiltRegs.reset : TiltRegs where
  cutoff := 0
  srate := 0
  alpha := 0
  xprev := 0
  yprev := 0
  inited := false

/-- The registers of one DLY instance (R60). -/
structure DlyRegs where
  wpos : Word
  rpos : Word
  delay : Word
  buf : List Word
  inited : Bool
  deriving DecidableEq, Repr

/-- Every register +0 or 0, not constructed (R63). -/
def DlyRegs.reset (cap : Nat) : DlyRegs where
  wpos := 0
  rpos := 0
  delay := 0
  buf := List.replicate cap 0
  inited := false

/-- The state of the block. `fault` and `cmdcnt` are `SYS.FAULT` and `SYS.CMDCNT` (R46); each list
holds the instances of one unit, so its length is the unit's instance count (R4); `input` is what
the host will present, oldest first, and `rsp` the last response (the model's own fields, log 7). -/
structure State where
  par : Params
  fault : Word
  cmdcnt : Word
  osc : List OscRegs
  pre : List PreRegs
  flp : List FirRegs
  fhp : List FirRegs
  bq : List BqRegs
  hil : List HilRegs
  fm : List FmRegs
  dsb : List DsbRegs
  mux : List MuxRegs
  bs : List BsRegs
  agc : List AgcRegs
  add : List AddRegs
  tilt : List TiltRegs
  dly : List DlyRegs
  input : List HostEvent
  rsp : Option Response
  deriving DecidableEq, Repr

/-- Why the machine stops. Each stands for a state that no run from reset reaches (the spec says
each cannot occur, R262, R296), so each is safe. Log 12. -/
inductive Fault where
  /-- An instance flagged INITED has a select register that names no instance of the unit. Raised by
  FM.MOD, DSB.ENC, MUX.ENC and ADD.IN. Safe: INIT range-checks the register. -/
  | selectOutOfRange
  /-- A MUX instance flagged INITED has MODE above 3. Raised by MUX.ENC. Safe: INIT checks MODE. -/
  | illegalMode
  /-- An ADD instance flagged INITED has CSEL = 3 on the channel. Raised by ADD.IN. Safe: INIT checks
  CAR. -/
  | illegalCarrier
  deriving DecidableEq, Repr

/-- Why an instruction has no meaning. -/
inductive Refusal where
  /-- Raised by the dispatch for a command that has no meaning yet; safe. No arm uses it. -/
  | notModelled (mnemonic : String)
  deriving DecidableEq, Repr

/-- The parameters at reset: the defaults of R4. Log 2. -/
def Params.default : Params where
  firTaps := Config.firTaps
  dlyCap := Config.dlyCap
  polarDc := Config.polarDc
  ssbQGain := Config.ssbQGain
  hilCoef := Config.hilCoef

/-- The machine right after reset (R63, R315), with the default parameters, nothing presented by the
host and no response given. -/
def State.reset : State where
  par := Params.default
  fault := 0
  cmdcnt := 0
  osc := List.replicate Config.nOsc OscRegs.reset
  pre := List.replicate Config.nPre PreRegs.reset
  flp := List.replicate Config.nFlp (FirRegs.reset Config.firTaps)
  fhp := List.replicate Config.nFhp (FirRegs.reset Config.firTaps)
  bq := List.replicate Config.nBq BqRegs.reset
  hil := List.replicate Config.nHil HilRegs.reset
  fm := List.replicate Config.nFm FmRegs.reset
  dsb := List.replicate Config.nDsb DsbRegs.reset
  mux := List.replicate Config.nMux MuxRegs.reset
  bs := List.replicate Config.nBs BsRegs.reset
  agc := List.replicate Config.nAgc AgcRegs.reset
  add := List.replicate Config.nAdd AddRegs.reset
  tilt := List.replicate Config.nTilt TiltRegs.reset
  dly := List.replicate Config.nDly (DlyRegs.reset Config.dlyCap)
  input := []
  rsp := none

end Sys2Proof.Machine
end

