-- ==== Sys2Proof/Machine/Flags.lean ====
section
/-! DEFINITION. The two kinds of status flag (R43): the sticky error bits of `SYS.FAULT` and the
`INITED` bit. The block has no arithmetic condition codes (R299). -/

namespace Sys2Proof.Machine

/-- The 4-bit code of an error (R291). -/
def ErrorCode.code : ErrorCode → Nat
  | .ok => 0
  | .illegalCmd => 1
  | .badInstance => 2
  | .badIndex => 3
  | .configError => 4
  | .notInit => 5

/-- The bit of `FAULT` that an error sets: bit e for code e in 1..5 (R43), none for `OK`. -/
def faultBit (e : ErrorCode) : Word :=
  match e with
  | .ok => 0
  | e => 1#32 <<< e.code

/-- `FAULT` after a command that ended with this code: bits are sticky (R43). -/
def faultAfter (fault : Word) (e : ErrorCode) : Word := fault ||| faultBit e

/-- `INITED` read as a register: 0 or 1 (R43). -/
def initedWord (b : Bool) : Word := if b then 1 else 0

end Sys2Proof.Machine
end

