-- ==== Sys2Proof/Machine/RegisterMap.lean ====
section
/-! DEFINITION. The register maps of R46 to R60: the class and word at each index of each unit, and
the write of a configuration register. An index listed nowhere is unmapped. -/

namespace Sys2Proof.Machine

/-- An array register: element `idx - base` of `l`, unmapped at or beyond its length (R82). -/
def arrayReg (cls : RegClass) (base : Nat) (l : List Word) (idx : Nat) : Option (RegClass × Word) :=
  if base ≤ idx then l[idx - base]?.map fun v => (cls, v) else none

/-- SYS (R46): `ID` is the constant "FM95" and `INITED` always 1. -/
def sysReg (fault cmdcnt : Word) (idx : Nat) : Option (RegClass × Word) :=
  match idx with
  | 0x000 => some (.ro, 0x464D3935#32)
  | 0x001 => some (.ro, fault)
  | 0x002 => some (.ro, cmdcnt)
  | 0x0FF => some (.ro, initedWord true)
  | _ => none

/-- The map of OSC (R47). -/
def OscRegs.reg (u : OscRegs) (idx : Nat) : Option (RegClass × Word) :=
  match idx with
  | 0x020 => some (.st, u.phase)
  | 0x021 => some (.st, u.pinc)
  | 0x022 => some (.st, u.srate)
  | 0x0FF => some (.ro, initedWord u.inited)
  | _ => none

/-- The map of PRE (R49). -/
def PreRegs.reg (u : PreRegs) (idx : Nat) : Option (RegClass × Word) :=
  match idx with
  | 0x000 => some (.cfg, u.tau)
  | 0x001 => some (.cfg, u.srate)
  | 0x002 => some (.cfg, u.reffreq)
  | 0x010 => some (.drv, u.alpha)
  | 0x011 => some (.drv, u.gain)
  | 0x020 => some (.st, u.xprev)
  | 0x0FF => some (.ro, initedWord u.inited)
  | _ => none

/-- The instance with CFG register `idx` holding all 32 bits of `v` and INITED cleared (R82). -/
def PreRegs.write (u : PreRegs) (idx : Nat) (v : Word) : PreRegs :=
  match idx with
  | 0x000 => { u with tau := v, inited := false }
  | 0x001 => { u with srate := v, inited := false }
  | 0x002 => { u with reffreq := v, inited := false }
  | _ => u

/-- The map of FLP or FHP (R50). -/
def FirRegs.reg (u : FirRegs) (idx : Nat) : Option (RegClass × Word) :=
  match idx with
  | 0x000 => some (.cfg, u.cutoff)
  | 0x001 => some (.cfg, u.srate)
  | 0x020 => some (.st, u.wpos)
  | 0x0FF => some (.ro, initedWord u.inited)
  | _ => (arrayReg .drv 0x400 u.coef idx).or (arrayReg .st 0x800 u.hist idx)

/-- The instance with CFG register `idx` holding all 32 bits of `v` and INITED cleared (R82). -/
def FirRegs.write (u : FirRegs) (idx : Nat) (v : Word) : FirRegs :=
  match idx with
  | 0x000 => { u with cutoff := v, inited := false }
  | 0x001 => { u with srate := v, inited := false }
  | _ => u

/-- The map of BQ (R51). -/
def BqRegs.reg (u : BqRegs) (idx : Nat) : Option (RegClass × Word) :=
  match idx with
  | 0x000 => some (.cfg, u.b0)
  | 0x001 => some (.cfg, u.b1)
  | 0x002 => some (.cfg, u.b2)
  | 0x003 => some (.cfg, u.a1)
  | 0x004 => some (.cfg, u.a2)
  | 0x020 => some (.st, u.x1)
  | 0x021 => some (.st, u.x2)
  | 0x022 => some (.st, u.y1)
  | 0x023 => some (.st, u.y2)
  | 0x0FF => some (.ro, initedWord u.inited)
  | _ => none

/-- The instance with CFG register `idx` holding all 32 bits of `v` and INITED cleared (R82). -/
def BqRegs.write (u : BqRegs) (idx : Nat) (v : Word) : BqRegs :=
  match idx with
  | 0x000 => { u with b0 := v, inited := false }
  | 0x001 => { u with b1 := v, inited := false }
  | 0x002 => { u with b2 := v, inited := false }
  | 0x003 => { u with a1 := v, inited := false }
  | 0x004 => { u with a2 := v, inited := false }
  | _ => u

/-- The map of HIL (R52). -/
def HilRegs.reg (u : HilRegs) (rom : List Word) (idx : Nat) : Option (RegClass × Word) :=
  match idx with
  | 0x020 => some (.st, u.wpos)
  | 0x0FF => some (.ro, initedWord u.inited)
  | _ => (arrayReg .rom 0x400 rom idx).or (arrayReg .st 0x800 u.hist idx)

/-- The map of FM (R53). -/
def FmRegs.reg (u : FmRegs) (idx : Nat) : Option (RegClass × Word) :=
  match idx with
  | 0x000 => some (.cfg, u.center)
  | 0x001 => some (.cfg, u.deviation)
  | 0x002 => some (.cfg, u.srate)
  | 0x003 => some (.cfg, u.shared)
  | 0x004 => some (.cfg, u.oscsel)
  | 0x020 => some (.st, u.phase)
  | 0x0FF => some (.ro, initedWord u.inited)
  | _ => none

/-- The instance with CFG register `idx` holding all 32 bits of `v` and INITED cleared (R82). -/
def FmRegs.write (u : FmRegs) (idx : Nat) (v : Word) : FmRegs :=
  match idx with
  | 0x000 => { u with center := v, inited := false }
  | 0x001 => { u with deviation := v, inited := false }
  | 0x002 => { u with srate := v, inited := false }
  | 0x003 => { u with shared := v, inited := false }
  | 0x004 => { u with oscsel := v, inited := false }
  | _ => u

/-- The map of DSB (R54). -/
def DsbRegs.reg (u : DsbRegs) (idx : Nat) : Option (RegClass × Word) :=
  match idx with
  | 0x000 => some (.cfg, u.oscsel)
  | 0x001 => some (.cfg, u.harm)
  | 0x002 => some (.cfg, u.polar)
  | 0x0FF => some (.ro, initedWord u.inited)
  | _ => none

/-- The instance with CFG register `idx` holding all 32 bits of `v` and INITED cleared (R82). -/
def DsbRegs.write (u : DsbRegs) (idx : Nat) (v : Word) : DsbRegs :=
  match idx with
  | 0x000 => { u with oscsel := v, inited := false }
  | 0x001 => { u with harm := v, inited := false }
  | 0x002 => { u with polar := v, inited := false }
  | _ => u

/-- The map of MUX (R55). -/
def MuxRegs.reg (u : MuxRegs) (idx : Nat) : Option (RegClass × Word) :=
  match idx with
  | 0x000 => some (.cfg, u.oscsel)
  | 0x001 => some (.cfg, u.harm)
  | 0x002 => some (.cfg, u.mode)
  | 0x003 => some (.cfg, u.sideband)
  | 0x004 => some (.cfg, u.monovol)
  | 0x005 => some (.cfg, u.pilotvol)
  | 0x006 => some (.cfg, u.stereovol)
  | 0x007 => some (.cfg, u.hilsel)
  | 0x008 => some (.cfg, u.dlysel)
  | 0x0FF => some (.ro, initedWord u.inited)
  | _ => none

/-- The instance with CFG register `idx` holding all 32 bits of `v` and INITED cleared (R82). -/
def MuxRegs.write (u : MuxRegs) (idx : Nat) (v : Word) : MuxRegs :=
  match idx with
  | 0x000 => { u with oscsel := v, inited := false }
  | 0x001 => { u with harm := v, inited := false }
  | 0x002 => { u with mode := v, inited := false }
  | 0x003 => { u with sideband := v, inited := false }
  | 0x004 => { u with monovol := v, inited := false }
  | 0x005 => { u with pilotvol := v, inited := false }
  | 0x006 => { u with stereovol := v, inited := false }
  | 0x007 => { u with hilsel := v, inited := false }
  | 0x008 => { u with dlysel := v, inited := false }
  | _ => u

/-- The map of BS (R56). -/
def BsRegs.reg (u : BsRegs) (idx : Nat) : Option (RegClass × Word) :=
  match idx with
  | 0x000 => some (.cfg, u.srate)
  | 0x001 => some (.cfg, u.refdev)
  | 0x002 => some (.cfg, u.floor)
  | 0x003 => some (.cfg, u.eps)
  | 0x004 => some (.cfg, u.target)
  | 0x020 => some (.st, u.acc)
  | 0x021 => some (.st, u.count)
  | 0x0FF => some (.ro, initedWord u.inited)
  | _ => none

/-- The instance with CFG register `idx` holding all 32 bits of `v` and INITED cleared (R82). -/
def BsRegs.write (u : BsRegs) (idx : Nat) (v : Word) : BsRegs :=
  match idx with
  | 0x000 => { u with srate := v, inited := false }
  | 0x001 => { u with refdev := v, inited := false }
  | 0x002 => { u with floor := v, inited := false }
  | 0x003 => { u with eps := v, inited := false }
  | 0x004 => { u with target := v, inited := false }
  | _ => u

/-- The map of AGC (R58). -/
def AgcRegs.reg (u : AgcRegs) (idx : Nat) : Option (RegClass × Word) :=
  match idx with
  | 0x000 => some (.cfg, u.srate)
  | 0x001 => some (.cfg, u.target)
  | 0x002 => some (.cfg, u.mingain)
  | 0x003 => some (.cfg, u.maxgain)
  | 0x004 => some (.cfg, u.attackT)
  | 0x005 => some (.cfg, u.releaseT)
  | 0x006 => some (.cfg, u.rmsT)
  | 0x007 => some (.cfg, u.eps)
  | 0x010 => some (.drv, u.attackC)
  | 0x011 => some (.drv, u.releaseC)
  | 0x012 => some (.drv, u.rmsC)
  | 0x020 => some (.st, u.gain)
  | 0x021 => some (.st, u.level)
  | 0x022 => some (.st, u.rmsbuf)
  | 0x0FF => some (.ro, initedWord u.inited)
  | _ => none

/-- The instance with CFG register `idx` holding all 32 bits of `v` and INITED cleared (R82). -/
def AgcRegs.write (u : AgcRegs) (idx : Nat) (v : Word) : AgcRegs :=
  match idx with
  | 0x000 => { u with srate := v, inited := false }
  | 0x001 => { u with target := v, inited := false }
  | 0x002 => { u with mingain := v, inited := false }
  | 0x003 => { u with maxgain := v, inited := false }
  | 0x004 => { u with attackT := v, inited := false }
  | 0x005 => { u with releaseT := v, inited := false }
  | 0x006 => { u with rmsT := v, inited := false }
  | 0x007 => { u with eps := v, inited := false }
  | _ => u

/-- The map of ADD (R60). -/
def AddRegs.reg (u : AddRegs) (idx : Nat) : Option (RegClass × Word) :=
  match idx with
  | 0x000 => some (.cfg, u.oscsel)
  | 0x040 => some (.st, u.sum)
  | 0x0FF => some (.ro, initedWord u.inited)
  | _ => (arrayReg .cfg 0x010 u.vol.toList idx).or (arrayReg .cfg 0x020 u.car.toList idx)

/-- The instance with CFG register `idx` holding all 32 bits of `v` and INITED cleared (R82). -/
def AddRegs.write (u : AddRegs) (idx : Nat) (v : Word) : AddRegs :=
  match idx with
  | 0x000 => { u with oscsel := v, inited := false }
  | _ =>
    if h : 0x010 ≤ idx ∧ idx < 0x018 then { u with vol := u.vol.set (idx - 0x010) v, inited := false }
    else if h : 0x020 ≤ idx ∧ idx < 0x028 then { u with car := u.car.set (idx - 0x020) v, inited := false }
    else u

/-- The map of TILT (R60). -/
def TiltRegs.reg (u : TiltRegs) (idx : Nat) : Option (RegClass × Word) :=
  match idx with
  | 0x000 => some (.cfg, u.cutoff)
  | 0x001 => some (.cfg, u.srate)
  | 0x010 => some (.drv, u.alpha)
  | 0x020 => some (.st, u.xprev)
  | 0x021 => some (.st, u.yprev)
  | 0x0FF => some (.ro, initedWord u.inited)
  | _ => none

/-- The instance with CFG register `idx` holding all 32 bits of `v` and INITED cleared (R82). -/
def TiltRegs.write (u : TiltRegs) (idx : Nat) (v : Word) : TiltRegs :=
  match idx with
  | 0x000 => { u with cutoff := v, inited := false }
  | 0x001 => { u with srate := v, inited := false }
  | _ => u

/-- The map of DLY (R60). -/
def DlyRegs.reg (u : DlyRegs) (idx : Nat) : Option (RegClass × Word) :=
  match idx with
  | 0x020 => some (.st, u.wpos)
  | 0x021 => some (.st, u.rpos)
  | 0x022 => some (.st, u.delay)
  | 0x0FF => some (.ro, initedWord u.inited)
  | _ => arrayReg .st 0x800 u.buf idx

end Sys2Proof.Machine
end

