-- ==== Sys2Proof/Machine/Ops.lean ====
section
/-! DEFINITION. The named operations over the state: replacing an instance, completing a command,
raising an error (R292), reset (R315), the register accesses of R82, and the common checks of
R294 to R297. -/

namespace Sys2Proof.Machine

/-- What a command leads to. -/
abbrev Result := Host.Outcome State Fault Refusal

/-! Replacing instance `n` of a unit. -/

def State.putOsc (s : State) (n : Nat) (u : OscRegs) : State := { s with osc := s.osc.set n u }
def State.putPre (s : State) (n : Nat) (u : PreRegs) : State := { s with pre := s.pre.set n u }
def State.putFlp (s : State) (n : Nat) (u : FirRegs) : State := { s with flp := s.flp.set n u }
def State.putFhp (s : State) (n : Nat) (u : FirRegs) : State := { s with fhp := s.fhp.set n u }
def State.putBq (s : State) (n : Nat) (u : BqRegs) : State := { s with bq := s.bq.set n u }
def State.putHil (s : State) (n : Nat) (u : HilRegs) : State := { s with hil := s.hil.set n u }
def State.putFm (s : State) (n : Nat) (u : FmRegs) : State := { s with fm := s.fm.set n u }
def State.putDsb (s : State) (n : Nat) (u : DsbRegs) : State := { s with dsb := s.dsb.set n u }
def State.putMux (s : State) (n : Nat) (u : MuxRegs) : State := { s with mux := s.mux.set n u }
def State.putBs (s : State) (n : Nat) (u : BsRegs) : State := { s with bs := s.bs.set n u }
def State.putAgc (s : State) (n : Nat) (u : AgcRegs) : State := { s with agc := s.agc.set n u }
def State.putAdd (s : State) (n : Nat) (u : AddRegs) : State := { s with add := s.add.set n u }
def State.putTilt (s : State) (n : Nat) (u : TiltRegs) : State := { s with tilt := s.tilt.set n u }
def State.putDly (s : State) (n : Nat) (u : DlyRegs) : State := { s with dly := s.dly.set n u }

/-! How a command ends. -/

/-- The state after a command that completed with these results: CMDCNT counts it (R42) and the
response is (OK, R0, R1) (R106). -/
def State.completed (s : State) (r0 r1 : Word) : State :=
  { s with cmdcnt := s.cmdcnt + 1, rsp := some ⟨.ok, r0, r1⟩ }

/-- The state after `raise E` (R292), what stands in this block for taking an exception: the sticky
FAULT bit, CMDCNT, and the response (E, 0, 0); nothing else. There is no return from one: the block
goes on with the next command. -/
def State.raised (s : State) (e : ErrorCode) : State :=
  { s with fault := faultAfter s.fault e, cmdcnt := s.cmdcnt + 1, rsp := some ⟨e, 0, 0⟩ }

/-- A command that completes. -/
def finish (s : State) (r0 r1 : Word) : Result := .next (s.completed r0 r1)

/-- A command that ends with an error, from the state before it (R292). -/
def raise (e : ErrorCode) (s : State) : Result := .next (s.raised e)

/-- Every register of every instance at its reset value, FAULT and CMDCNT at 0 (R63, R275, R315).
Parameters, the ROM among them, the pending input and the last response stay. -/
def State.resetRegs (s : State) : State :=
  { s with
    fault := 0
    cmdcnt := 0
    osc := List.replicate s.osc.length OscRegs.reset
    pre := List.replicate s.pre.length PreRegs.reset
    flp := List.replicate s.flp.length (FirRegs.reset s.par.firTaps)
    fhp := List.replicate s.fhp.length (FirRegs.reset s.par.firTaps)
    bq := List.replicate s.bq.length BqRegs.reset
    hil := List.replicate s.hil.length HilRegs.reset
    fm := List.replicate s.fm.length FmRegs.reset
    dsb := List.replicate s.dsb.length DsbRegs.reset
    mux := List.replicate s.mux.length MuxRegs.reset
    bs := List.replicate s.bs.length BsRegs.reset
    agc := List.replicate s.agc.length AgcRegs.reset
    add := List.replicate s.add.length AddRegs.reset
    tilt := List.replicate s.tilt.length TiltRegs.reset
    dly := List.replicate s.dly.length (DlyRegs.reset s.par.dlyCap) }

/-- The `rst` port sampled high (R315): the registers reset, no response. -/
def State.portReset (s : State) : State := { s.resetRegs with rsp := none }

/-! The register address space (R80, R82). -/

/-- The instance count N_u of a unit (R4); SYS has 1. -/
def State.count (s : State) : UnitId → Nat
  | .sys => 1
  | .osc => s.osc.length
  | .pre => s.pre.length
  | .flp => s.flp.length
  | .fhp => s.fhp.length
  | .bq => s.bq.length
  | .hil => s.hil.length
  | .fm => s.fm.length
  | .dsb => s.dsb.length
  | .mux => s.mux.length
  | .bs => s.bs.length
  | .agc => s.agc.length
  | .add => s.add.length
  | .tilt => s.tilt.length
  | .dly => s.dly.length

/-- The class and the word of the register at an address, if it is mapped (R46 to R60, R80). -/
def State.reg (s : State) (u : UnitId) (inst idx : Nat) : Option (RegClass × Word) :=
  match u with
  | .sys => if inst = 0 then sysReg s.fault s.cmdcnt idx else none
  | .osc => s.osc[inst]?.bind fun r => r.reg idx
  | .pre => s.pre[inst]?.bind fun r => r.reg idx
  | .flp => s.flp[inst]?.bind fun r => r.reg idx
  | .fhp => s.fhp[inst]?.bind fun r => r.reg idx
  | .bq => s.bq[inst]?.bind fun r => r.reg idx
  | .hil => s.hil[inst]?.bind fun r => r.reg s.par.hilCoef idx
  | .fm => s.fm[inst]?.bind fun r => r.reg idx
  | .dsb => s.dsb[inst]?.bind fun r => r.reg idx
  | .mux => s.mux[inst]?.bind fun r => r.reg idx
  | .bs => s.bs[inst]?.bind fun r => r.reg idx
  | .agc => s.agc[inst]?.bind fun r => r.reg idx
  | .add => s.add[inst]?.bind fun r => r.reg idx
  | .tilt => s.tilt[inst]?.bind fun r => r.reg idx
  | .dly => s.dly[inst]?.bind fun r => r.reg idx

/-- The state with a CFG register of an instance written and its INITED cleared (R82). -/
def State.writeReg (s : State) (u : UnitId) (inst idx : Nat) (v : Word) : State :=
  match u with
  | .sys | .osc | .hil | .dly => s
  | .pre => { s with pre := s.pre.modify inst fun r => r.write idx v }
  | .flp => { s with flp := s.flp.modify inst fun r => r.write idx v }
  | .fhp => { s with fhp := s.fhp.modify inst fun r => r.write idx v }
  | .bq => { s with bq := s.bq.modify inst fun r => r.write idx v }
  | .fm => { s with fm := s.fm.modify inst fun r => r.write idx v }
  | .dsb => { s with dsb := s.dsb.modify inst fun r => r.write idx v }
  | .mux => { s with mux := s.mux.modify inst fun r => r.write idx v }
  | .bs => { s with bs := s.bs.modify inst fun r => r.write idx v }
  | .agc => { s with agc := s.agc.modify inst fun r => r.write idx v }
  | .add => { s with add := s.add.modify inst fun r => r.write idx v }
  | .tilt => { s with tilt := s.tilt.modify inst fun r => r.write idx v }

/-- `RegRead` (R82), after the legality check: UNIT 15 has no decoding. -/
def regRead (s : State) (u : UnitId) (inst idx : Nat) : Except ErrorCode Word :=
  if s.count u ≤ inst then .error .badInstance
  else match s.reg u inst idx with
    | none => .error .badIndex
    | some (_, v) => .ok v

/-- `RegWrite` (R82): only a register of class CFG takes a write. -/
def regWrite (s : State) (u : UnitId) (inst idx : Nat) (v : Word) : Except ErrorCode State :=
  if s.count u ≤ inst then .error .badInstance
  else match s.reg u inst idx with
    | none => .error .badIndex
    | some (c, _) => if c = .cfg then .ok (s.writeReg u inst idx v) else .error .badIndex

/-- `U.RD` (R277). -/
def readCommand (u : UnitId) (inst idx : Nat) (s : State) : Result :=
  match regRead s u inst idx with
  | .ok v => finish s v 0
  | .error e => raise e s

/-- `U.WR` (R278). -/
def writeCommand (u : UnitId) (inst idx : Nat) (v : Word) (s : State) : Result :=
  match regWrite s u inst idx v with
  | .ok s' => finish s' 0 0
  | .error e => raise e s

/-! The common checks. -/

/-- Check 2 (R294): `BAD_INSTANCE` if INST is at or above the instance count. -/
def withInstance {α : Type} (units : List α) (inst : Nat) (s : State) (k : α → Result) : Result :=
  match units[inst]? with
  | some u => k u
  | none => raise .badInstance s

/-- Checks 2 and 4 (R294, R296): the instance must exist and be constructed. -/
def operate {α : Type} (units : List α) (inited : α → Bool) (inst : Nat) (s : State)
    (k : α → Result) : Result :=
  withInstance units inst s fun u => if inited u then k u else raise .notInit s

/-- The cross-unit condition of R296: the instance a select register names must be constructed. INIT
has range-checked the register; a state in which it names no instance stops. Log 12. -/
def withSelected {α : Type} (units : List α) (inited : α → Bool) (sel : Word) (s : State)
    (k : α → Result) : Result :=
  match units[sel.toNat]? with
  | some u => if inited u then k u else raise .notInit s
  | none => .fault .selectOutOfRange

/-- Check 5 (R297): an INIT stores the constructed instance, or raises `CONFIG_ERROR` where its
checks fail. -/
def construct {α : Type} (units : List α) (inst : Nat) (s : State) (init : α → Option α)
    (put : α → State) : Result :=
  withInstance units inst s fun u =>
    match init u with
    | some u' => finish (put u') 0 0
    | none => raise .configError s

end Sys2Proof.Machine
end

