-- ==== Sys2Proof/Machine/Adder.lean ====
section
/-! DEFINITION. ADD, the multiplex composite adder (R260 to R263). -/

namespace Sys2Proof.Machine

/-- A carrier word `ADD.INIT` accepts (R260). -/
def carOk (w : Word) : Bool := w &&& 0xFFFF00FC#32 == 0 && carSel w != 3

/-- The checks of `ADD.INIT` (R260). -/
def AddRegs.configOk (u : AddRegs) (nOsc : Nat) : Bool :=
  decide (u.oscsel.toNat < nOsc) && u.vol.toList.all isFinite && u.car.toList.all carOk

/-- The instance `ADD.INIT` constructs (R260). -/
def AddRegs.constructed (u : AddRegs) (nOsc : Nat) : Option AddRegs :=
  if u.configOk nOsc then some { u with sum := zero, inited := true } else none

/-- `ADD.INIT` (R260). -/
def execAddInit (inst : Nat) (s : State) : Result :=
  construct s.add inst s (fun u => u.constructed s.osc.length) (s.putAdd inst)

/-- `ADD.CLR` (R261). -/
def execAddClr (inst : Nat) (s : State) : Result :=
  operate s.add AddRegs.inited inst s fun u => finish (s.putAdd inst { u with sum := zero }) 0 0

/-- The running sum takes the term `t`, and is the result (R262). -/
def addTerm (inst : Nat) (u : AddRegs) (t : Word) (s : State) : Result :=
  finish (s.putAdd inst { u with sum := fadd u.sum t }) (fadd u.sum t) 0

/-- `ADD.IN` (R262): the amplitude scaling first, the carrier second. -/
def execAddIn (inst : Nat) (ch : Fin 8) (a : Word) (s : State) : Result :=
  operate s.add AddRegs.inited inst s fun u =>
    let car := u.car[ch]
    let scaled := fmul a u.vol[ch]
    match carSel car with
    | 0 => addTerm inst u scaled s
    | 1 =>
      withSelected s.osc OscRegs.inited u.oscsel s fun o =>
        addTerm inst u (fmul scaled (Config.fsin (harmonicArg o.phase (carHarm car)))) s
    | 2 =>
      withSelected s.osc OscRegs.inited u.oscsel s fun o =>
        addTerm inst u (fmul scaled (Config.fcos (harmonicArg o.phase (carHarm car)))) s
    | _ => .fault .illegalCarrier

/-- `ADD.OUT` (R263): no register is written. -/
def execAddOut (inst : Nat) (s : State) : Result :=
  operate s.add AddRegs.inited inst s fun u => finish s u.sum 0

/-- `ADD.RD` (R277). -/
def execAddRd (inst idx : Nat) (s : State) : Result := readCommand .add inst idx s

/-- `ADD.WR` (R278). -/
def execAddWr (inst idx : Nat) (a : Word) (s : State) : Result := writeCommand .add inst idx a s

end Sys2Proof.Machine
end

