-- ==== Sys2Proof/Machine/Agc.lean ====
section
/-! DEFINITION. AGC, the sidechain gain estimator (R245 to R247). -/

namespace Sys2Proof.Machine

/-- `agc_coef(SRATE, T)` (R246). -/
def agcCoef (srate t : Word) : Word := Config.fexp (fneg (fdiv one (fmul srate t)))

/-- A time constant `AGC.INIT` accepts (R245). -/
def timeOk (t : Word) : Bool := isFinite t && fgt t zero

/-- A coefficient `AGC.INIT` accepts: finite and in [0, 1] (R245). -/
def coefOk (c : Word) : Bool := isFinite c && fge c zero && fle c one

/-- The checks of `AGC.INIT` (R245), on the configuration and on the computed coefficients. -/
def AgcRegs.configOk (u : AgcRegs) : Bool :=
  isFinite u.srate && fgt u.srate zero
    && isFinite u.target && isFinite u.mingain && isFinite u.maxgain && fle u.mingain u.maxgain
    && timeOk u.attackT && timeOk u.releaseT && timeOk u.rmsT && timeOk u.eps
    && coefOk (agcCoef u.srate u.attackT) && coefOk (agcCoef u.srate u.releaseT)
    && coefOk (agcCoef u.srate u.rmsT)

/-- The instance `AGC.INIT` constructs (R245): unity gain, clamped into the range. -/
def AgcRegs.constructed (u : AgcRegs) : Option AgcRegs :=
  if u.configOk then
    some { u with
      attackC := agcCoef u.srate u.attackT
      releaseC := agcCoef u.srate u.releaseT
      rmsC := agcCoef u.srate u.rmsT
      gain := clamp one u.mingain u.maxgain
      level := zero
      rmsbuf := zero
      inited := true }
  else none

/-- `AGC.INIT` (R245). -/
def execAgcInit (inst : Nat) (s : State) : Result :=
  construct s.agc inst s AgcRegs.constructed (s.putAgc inst)

/-- The one-pole form of every smoothing step: `c old + (1 - c) input` (R247). -/
def onePole (c old input : Word) : Word := fadd (fmul c old) (fmul (fsub one c) input)

/-- One sample of R247: RMS estimate, level with attack when rising, desired gain, gain with attack
when falling, and the final clamp. -/
def AgcRegs.process (u : AgcRegs) (a : Word) : AgcRegs :=
  let rmsbuf := onePole u.rmsC u.rmsbuf (fmul a a)
  let level' := fsqrt rmsbuf
  let level := onePole (if fgt level' u.level then u.attackC else u.releaseC) u.level level'
  let desired := clamp (fdiv u.target (fadd level u.eps)) u.mingain u.maxgain
  let g := onePole (if flt desired u.gain then u.attackC else u.releaseC) u.gain desired
  { u with rmsbuf := rmsbuf, level := level, gain := clamp g u.mingain u.maxgain }

/-- `AGC.PROC` (R247): R0 is the new gain. -/
def execAgcProc (inst : Nat) (a : Word) (s : State) : Result :=
  operate s.agc AgcRegs.inited inst s fun u =>
    let u' := u.process a
    finish (s.putAgc inst u') u'.gain 0

/-- `AGC.RD` (R277). -/
def execAgcRd (inst idx : Nat) (s : State) : Result := readCommand .agc inst idx s

/-- `AGC.WR` (R278). -/
def execAgcWr (inst idx : Nat) (a : Word) (s : State) : Result := writeCommand .agc inst idx a s

end Sys2Proof.Machine
end

