-- ==== Sys2Proof/Machine/BiquadHilbertDelay.lean ====
section
/-! DEFINITION. BQ, the biquad section (R180, R181), HIL, the Hilbert transformer (R190 to R192),
and DLY, the delay line (R196 to R198). -/

namespace Sys2Proof.Machine

/-- The checks of `BQ.INIT` (R180). -/
def BqRegs.configOk (u : BqRegs) : Bool :=
  isFinite u.b0 && isFinite u.b1 && isFinite u.b2 && isFinite u.a1 && isFinite u.a2

/-- The instance `BQ.INIT` constructs (R180). -/
def BqRegs.constructed (u : BqRegs) : Option BqRegs :=
  if u.configOk then
    some { u with x1 := zero, x2 := zero, y1 := zero, y2 := zero, inited := true }
  else none

/-- `BQ.INIT` (R180). -/
def execBqInit (inst : Nat) (s : State) : Result :=
  construct s.bq inst s BqRegs.constructed (s.putBq inst)

/-- The output of the section, direct form I, left to right (R181). -/
def BqRegs.output (u : BqRegs) (a : Word) : Word :=
  fsub
    (fsub (fadd (fadd (fmul u.b0 a) (fmul u.b1 u.x1)) (fmul u.b2 u.x2)) (fmul u.a1 u.y1))
    (fmul u.a2 u.y2)

/-- `BQ.STEP` (R181). -/
def execBqStep (inst : Nat) (a : Word) (s : State) : Result :=
  operate s.bq BqRegs.inited inst s fun u =>
    let y := u.output a
    finish (s.putBq inst { u with x2 := u.x1, x1 := a, y2 := u.y1, y1 := y }) y 0

/-- `BQ.RD` (R277). -/
def execBqRd (inst idx : Nat) (s : State) : Result := readCommand .bq inst idx s

/-- `BQ.WR` (R278). -/
def execBqWr (inst idx : Nat) (a : Word) (s : State) : Result := writeCommand .bq inst idx a s

/-- The instance `HIL.INIT` constructs (R191). -/
def HilRegs.constructed (_ : HilRegs) : HilRegs :=
  { wpos := 0, hist := List.replicate 95 zero, inited := true }

/-- `HIL.INIT` (R191): never `CONFIG_ERROR`. -/
def execHilInit (inst : Nat) (s : State) : Result :=
  construct s.hil inst s (fun u => some u.constructed) (s.putHil inst)

/-- What one `HIL.STEP` leaves and returns. -/
structure HilbertStep where
  regs : HilRegs
  /-- The in-phase output, x[n - 47]. -/
  i : Word
  /-- The quadrature output, the dot product. -/
  q : Word

/-- The step of R192, with the coefficient ROM `rom`: both outputs are read from one history. -/
def HilRegs.step (u : HilRegs) (rom : List Word) (a : Word) : HilbertStep :=
  let hist := u.hist.set u.wpos.toNat a
  { regs := { u with hist := hist, wpos := nextCursor u.wpos 95 }
    i := elem hist (back u.wpos.toNat 47 95)
    q := dot rom hist u.wpos.toNat 95 }

/-- `HIL.STEP` (R192): R0 = I, R1 = Q. -/
def execHilStep (inst : Nat) (a : Word) (s : State) : Result :=
  operate s.hil HilRegs.inited inst s fun u =>
    let r := u.step s.par.hilCoef a
    finish (s.putHil inst r.regs) r.i r.q

/-- `HIL.RD` (R277). -/
def execHilRd (inst idx : Nat) (s : State) : Result := readCommand .hil inst idx s

/-- `HIL.WR` (R278). No register of the unit is of class CFG, so it always ends in an error. -/
def execHilWr (inst idx : Nat) (a : Word) (s : State) : Result := writeCommand .hil inst idx a s

/-- The instance `DLY.INIT` constructs (R196). -/
def DlyRegs.constructed (_ : DlyRegs) (cap : Nat) : DlyRegs :=
  { wpos := 0, rpos := 0, delay := 0, buf := List.replicate cap zero, inited := true }

/-- `DLY.INIT` (R196): never `CONFIG_ERROR`. -/
def execDlyInit (inst : Nat) (s : State) : Result :=
  construct s.dly inst s (fun u => some (u.constructed s.par.dlyCap)) (s.putDly inst)

/-- The instance after the delay is set to `n` (R197): the read cursor moves, nothing else does. -/
def DlyRegs.withDelay (u : DlyRegs) (cap n : Nat) : DlyRegs :=
  { u with delay := BitVec.ofNat 32 n, rpos := BitVec.ofNat 32 (back u.wpos.toNat n cap) }

/-- `DLY.SETD` (R197): R0 is the clamped delay. -/
def execDlySetd (inst : Nat) (a : Word) (s : State) : Result :=
  operate s.dly DlyRegs.inited inst s fun u =>
    let n := clampDelay a s.par.dlyCap
    finish (s.putDly inst (u.withDelay s.par.dlyCap n)) (BitVec.ofNat 32 n) 0

/-- The step of R198: read, then write, then advance both cursors. -/
def DlyRegs.pushPop (u : DlyRegs) (cap : Nat) (a : Word) : DlyRegs × Word :=
  ({ u with
      buf := u.buf.set u.wpos.toNat a
      rpos := nextCursor u.rpos cap
      wpos := nextCursor u.wpos cap },
    elem u.buf u.rpos.toNat)

/-- `DLY.PUSHPOP` (R198). -/
def execDlyPushpop (inst : Nat) (a : Word) (s : State) : Result :=
  operate s.dly DlyRegs.inited inst s fun u =>
    let r := u.pushPop s.par.dlyCap a
    finish (s.putDly inst r.1) r.2 0

/-- `DLY.RD` (R277). -/
def execDlyRd (inst idx : Nat) (s : State) : Result := readCommand .dly inst idx s

/-- `DLY.WR` (R278). No register of the unit is of class CFG, so it always ends in an error. -/
def execDlyWr (inst idx : Nat) (a : Word) (s : State) : Result := writeCommand .dly inst idx a s

end Sys2Proof.Machine
end

