-- ==== Sys2Proof/Machine/Bs412.lean ====
section
/-! DEFINITION. BS, the BS412 deviation meter (R225 to R231). -/

namespace Sys2Proof.Machine

/-- `dev_to_dbr` (R225): the floor at zero and below EPS. -/
def BsRegs.devToDbr (u : BsRegs) (x : Word) : Word :=
  if feq x zero || flt x u.eps then u.floor
  else
    let q := fdiv x u.refdev
    fmul ten (Config.flog10 (fmul q q))

/-- `dbr_to_dev` (R225). -/
def BsRegs.dbrToDev (u : BsRegs) (d : Word) : Word :=
  fmul u.refdev (Config.fexp2 (fdiv d (fmul twenty (Config.flog10 two))))

/-- The checks of `BS.INIT` (R226). -/
def BsRegs.configOk (u : BsRegs) : Bool :=
  isFinite u.srate && fgt u.srate zero && isFinite u.refdev && fgt u.refdev zero
    && isFinite u.floor && isFinite u.target && isFinite u.eps && fge u.eps zero

/-- The instance `BS.INIT` constructs (R226). -/
def BsRegs.constructed (u : BsRegs) : Option BsRegs :=
  if u.configOk then some { u with acc := zero, count := 0, inited := true } else none

/-- `BS.INIT` (R226). -/
def execBsInit (inst : Nat) (s : State) : Result :=
  construct s.bs inst s BsRegs.constructed (s.putBs inst)

/-- One measurement (R228): the result is computed before the window test; at the end of a window the
mean square becomes the seed of the next, counted as one sample. -/
def BsRegs.measure (u : BsRegs) (a : Word) : BsRegs × Word :=
  let acc := fadd u.acc (fmul a a)
  let count := u.count + 1
  let ms := fdiv acc (u2f count.toNat)
  let dbr := u.devToDbr (fsqrt ms)
  if cmpUfGe count (fmul u.srate sixty) then ({ u with acc := ms, count := 1 }, dbr)
  else ({ u with acc := acc, count := count }, dbr)

/-- `BS.MEAS` (R228). -/
def execBsMeas (inst : Nat) (a : Word) (s : State) : Result :=
  operate s.bs BsRegs.inited inst s fun u =>
    let r := u.measure a
    finish (s.putBs inst r.1) r.2 0

/-- `BS.D2DBR` (R229). -/
def execBsD2dbr (inst : Nat) (a : Word) (s : State) : Result :=
  operate s.bs BsRegs.inited inst s fun u => finish s (u.devToDbr a) 0

/-- `BS.DBR2D` (R230). -/
def execBsDbr2d (inst : Nat) (a : Word) (s : State) : Result :=
  operate s.bs BsRegs.inited inst s fun u => finish s (u.dbrToDev a) 0

/-- The ratio of R231: 1.0 unless the net dBr exceeds the target. -/
def BsRegs.ratio (u : BsRegs) (a : Word) : Word :=
  let excessDbr := fsub a u.target
  if fgt excessDbr zero then fdiv (u.dbrToDev (fneg excessDbr)) u.refdev else one

/-- `BS.RATIO` (R231). -/
def execBsRatio (inst : Nat) (a : Word) (s : State) : Result :=
  operate s.bs BsRegs.inited inst s fun u => finish s (u.ratio a) 0

/-- `BS.RD` (R277). -/
def execBsRd (inst idx : Nat) (s : State) : Result := readCommand .bs inst idx s

/-- `BS.WR` (R278). -/
def execBsWr (inst idx : Nat) (a : Word) (s : State) : Result := writeCommand .bs inst idx a s

end Sys2Proof.Machine
end

