-- ==== Sys2Proof/Machine/Fir.lean ====
section
/-! DEFINITION. FLP and FHP, the FIR filters (R165 to R169). -/

namespace Sys2Proof.Machine

/-- The checks of `fir_kernel` before the design (R165): 0 < CUTOFF and 2 CUTOFF < SRATE. -/
def firBandOk (cutoff srate : Word) : Bool :=
  isFinite srate && fgt srate zero && isFinite cutoff && fgt cutoff zero
    && flt (fmul two cutoff) srate

/-- The ideal low-pass impulse response at m = i - c (R165). -/
def sincTerm (fc : Word) (m : Int) : Word :=
  if m = 0 then fmul two fc
  else fdiv (Config.fsin (fmul (fmul twoPi fc) (i2f m))) (fmul pi (i2f m))

/-- The Blackman window at i of 0..M (R165). -/
def blackman (i m : Nat) : Word :=
  let t := fdiv (u2f i) (u2f m)
  fadd (fsub c042 (fmul half (Config.fcos (fmul twoPi t))))
    (fmul c008 (Config.fcos (fmul (fmul two twoPi) t)))

/-- `g[0..N-1]` of R165: the windowed sinc before normalisation, c = (N - 1) / 2. -/
def firWindowed (n : Nat) (fc : Word) : List Word :=
  (List.range n).map fun (i : Nat) =>
    fmul (sincTerm fc ((i : Int) - ((n - 1) / 2 : Nat))) (blackman i (n - 1))

/-- The sum of a list in index order from +0 (R15). -/
def sumInOrder (l : List Word) : Word := l.foldl fadd zero

/-- `fir_kernel(CUTOFF, SRATE)` (R165): the normalised kernel, or none on failure. -/
def firKernel (n : Nat) (cutoff srate : Word) : Option (List Word) :=
  if firBandOk cutoff srate then
    let g := firWindowed n (fdiv cutoff srate)
    let sum := sumInOrder g
    if !isFinite sum || feq sum zero then none else some (g.map fun x => fdiv x sum)
  else none

/-- The instance an INIT constructs with these coefficients: history zero, cursor 0 (R166, R167). -/
def FirRegs.withKernel (u : FirRegs) (n : Nat) (h : List Word) : FirRegs :=
  { u with coef := h, hist := List.replicate n zero, wpos := 0, inited := true }

/-- The high-pass kernel: the low-pass one negated, plus 1.0 at the centre tap (R167). -/
def invertKernel (n : Nat) (h : List Word) : List Word :=
  let c := (n - 1) / 2
  let m := h.map fneg
  m.set c (fadd (elem m c) one)

/-- `fir_step` (R168): the new sample is stored first and meets COEF[0]. -/
def FirRegs.step (u : FirRegs) (n : Nat) (a : Word) : FirRegs × Word :=
  let hist := u.hist.set u.wpos.toNat a
  ({ u with hist := hist, wpos := nextCursor u.wpos n }, dot u.coef hist u.wpos.toNat n)

/-- `FLP.INIT` (R166). -/
def execFlpInit (inst : Nat) (s : State) : Result :=
  let n := s.par.firTaps
  construct s.flp inst s
    (fun u => (firKernel n u.cutoff u.srate).map fun h => u.withKernel n h) (s.putFlp inst)

/-- `FLP.STEP` (R168). -/
def execFlpStep (inst : Nat) (a : Word) (s : State) : Result :=
  operate s.flp FirRegs.inited inst s fun u =>
    let r := u.step s.par.firTaps a
    finish (s.putFlp inst r.1) r.2 0

/-- `FLP.RD` (R277). -/
def execFlpRd (inst idx : Nat) (s : State) : Result := readCommand .flp inst idx s

/-- `FLP.WR` (R278). -/
def execFlpWr (inst idx : Nat) (a : Word) (s : State) : Result := writeCommand .flp inst idx a s

/-- `FHP.INIT` (R167). -/
def execFhpInit (inst : Nat) (s : State) : Result :=
  let n := s.par.firTaps
  construct s.fhp inst s
    (fun u => (firKernel n u.cutoff u.srate).map fun h => u.withKernel n (invertKernel n h))
    (s.putFhp inst)

/-- `FHP.STEP` (R169). -/
def execFhpStep (inst : Nat) (a : Word) (s : State) : Result :=
  operate s.fhp FirRegs.inited inst s fun u =>
    let r := u.step s.par.firTaps a
    finish (s.putFhp inst r.1) r.2 0

/-- `FHP.RD` (R277). -/
def execFhpRd (inst idx : Nat) (s : State) : Result := readCommand .fhp inst idx s

/-- `FHP.WR` (R278). -/
def execFhpWr (inst idx : Nat) (a : Word) (s : State) : Result := writeCommand .fhp inst idx a s

end Sys2Proof.Machine
end

