-- ==== Sys2Proof/Machine/Oscillator.lean ====
section
/-! DEFINITION. OSC, the phase accumulator oscillator (R120 to R128). -/

namespace Sys2Proof.Machine

/-- `PINC` for a frequency: (2pi * f) / sample rate (R121, R122, R141). -/
def oscIncrement (f srate : Word) : Word := fdiv (fmul twoPi f) srate

/-- `osc_advance` (R120): one addition and at most one subtraction. -/
def OscRegs.advance (o : OscRegs) : OscRegs :=
  let p := fadd o.phase o.pinc
  { o with phase := if fge p twoPi then fsub p twoPi else p }

/-- The checks of `OSC.INIT` (R121). -/
def oscConfigOk (a b : Word) : Bool := isFinite b && fgt b zero && isFinite a

/-- `OSC.INIT` (R121). -/
def execOscInit (inst : Nat) (a b : Word) (s : State) : Result :=
  construct s.osc inst s
    (fun _ =>
      if oscConfigOk a b then
        some { phase := zero, pinc := oscIncrement a b, srate := b, inited := true }
      else none)
    (s.putOsc inst)

/-- `OSC.SETF` (R122): only PINC is recomputed. -/
def execOscSetf (inst : Nat) (a : Word) (s : State) : Result :=
  operate s.osc OscRegs.inited inst s fun o =>
    finish (s.putOsc inst { o with pinc := oscIncrement a o.srate }) 0 0

/-- `OSC.ADV` (R123). -/
def execOscAdv (inst : Nat) (s : State) : Result :=
  operate s.osc OscRegs.inited inst s fun o => finish (s.putOsc inst o.advance) 0 0

/-- `OSC.SIN` (R124): the sine of the phase before the advance. -/
def execOscSin (inst : Nat) (s : State) : Result :=
  operate s.osc OscRegs.inited inst s fun o =>
    finish (s.putOsc inst o.advance) (Config.fsin o.phase) 0

/-- `OSC.COS` (R125). -/
def execOscCos (inst : Nat) (s : State) : Result :=
  operate s.osc OscRegs.inited inst s fun o =>
    finish (s.putOsc inst o.advance) (Config.fcos o.phase) 0

/-- `OSC.SINH` (R126): a harmonic read; no register is written. -/
def execOscSinh (inst k : Nat) (s : State) : Result :=
  operate s.osc OscRegs.inited inst s fun o =>
    finish s (Config.fsin (harmonicArg o.phase k)) 0

/-- `OSC.COSH` (R127). -/
def execOscCosh (inst k : Nat) (s : State) : Result :=
  operate s.osc OscRegs.inited inst s fun o =>
    finish s (Config.fcos (harmonicArg o.phase k)) 0

/-- `OSC.RD` (R277). -/
def execOscRd (inst idx : Nat) (s : State) : Result := readCommand .osc inst idx s

/-- `OSC.WR` (R278). No register of the unit is of class CFG, so it always ends in an error. -/
def execOscWr (inst idx : Nat) (a : Word) (s : State) : Result := writeCommand .osc inst idx a s

end Sys2Proof.Machine
end

