-- ==== Sys2Proof/Machine/FmModulator.lean ====
section
/-! DEFINITION. FM, the frequency modulator (R140 to R142). -/

namespace Sys2Proof.Machine

/-- The checks of `FM.INIT` (R140). -/
def FmRegs.configOk (u : FmRegs) (nOsc : Nat) : Bool :=
  decide (u.shared.toNat ≤ 1) && isFinite u.center && isFinite u.deviation
    && (if u.shared = 0 then isFinite u.srate && fgt u.srate zero
        else decide (u.oscsel.toNat < nOsc))

/-- The instance `FM.INIT` constructs (R140). -/
def FmRegs.constructed (u : FmRegs) (nOsc : Nat) : Option FmRegs :=
  if u.configOk nOsc then some { u with phase := zero, inited := true } else none

/-- `FM.INIT` (R140). -/
def execFmInit (inst : Nat) (s : State) : Result :=
  construct s.fm inst s (fun u => u.constructed s.osc.length) (s.putFm inst)

/-- The instantaneous frequency: center + sample * deviation (R141). -/
def FmRegs.frequency (u : FmRegs) (a : Word) : Word := fadd u.center (fmul a u.deviation)

/-- The owned phase after a sample (R141). -/
def FmRegs.nextPhase (u : FmRegs) (a : Word) : Word :=
  wrap2pi (fadd u.phase (oscIncrement (u.frequency a) u.srate))

/-- `FM.MOD` (R141). Owned mode advances the phase and returns the sine of the new one; shared mode
(R142) sets the increment of the shared oscillator and returns the sine of its phase as it is. -/
def execFmMod (inst : Nat) (a : Word) (s : State) : Result :=
  operate s.fm FmRegs.inited inst s fun u =>
    if u.shared = 0 then
      let p := u.nextPhase a
      finish (s.putFm inst { u with phase := p }) (Config.fsin p) 0
    else
      withSelected s.osc OscRegs.inited u.oscsel s fun o =>
        finish (s.putOsc u.oscsel.toNat { o with pinc := oscIncrement (u.frequency a) o.srate })
          (Config.fsin o.phase) 0

/-- `FM.RD` (R277). -/
def execFmRd (inst idx : Nat) (s : State) : Result := readCommand .fm inst idx s

/-- `FM.WR` (R278). -/
def execFmWr (inst idx : Nat) (a : Word) (s : State) : Result := writeCommand .fm inst idx a s

end Sys2Proof.Machine
end

