-- ==== Sys2Proof/Machine/SinglePole.lean ====
section
/-! DEFINITION. PRE and TILT, the single-pole filters (R150 to R156). -/

namespace Sys2Proof.Machine

/-- `alpha = tau / (tau + dt)` with dt = 1 / sample rate (R150, R155). -/
def rcAlpha (tau srate : Word) : Word := fdiv tau (fadd tau (fdiv one srate))

/-- The normalising gain of R150 and R152: one over the root of
1 - 2 alpha cos(w) + alpha^2 at w = 2pi * REFFREQ / SRATE. -/
def preGain (alpha reffreq srate : Word) : Word :=
  let w := fdiv (fmul twoPi reffreq) srate
  let m2 := fadd (fsub one (fmul (fmul two alpha) (Config.fcos w))) (fmul alpha alpha)
  fdiv one (fsqrt m2)

/-- The checks of `PRE.INIT` (R150), the finite gain among them. -/
def PreRegs.configOk (u : PreRegs) : Bool :=
  isFinite u.srate && fgt u.srate zero && isFinite u.tau && fge u.tau zero
    && isFinite u.reffreq && fge u.reffreq zero
    && isFinite (preGain (rcAlpha u.tau u.srate) u.reffreq u.srate)

/-- The instance `PRE.INIT` constructs, if its checks pass (R150). -/
def PreRegs.constructed (u : PreRegs) : Option PreRegs :=
  let alpha := rcAlpha u.tau u.srate
  if u.configOk then
    some { u with
      alpha := alpha
      gain := preGain alpha u.reffreq u.srate
      xprev := zero
      inited := true }
  else none

/-- `PRE.INIT` (R150). -/
def execPreInit (inst : Nat) (s : State) : Result :=
  construct s.pre inst s PreRegs.constructed (s.putPre inst)

/-- `PRE.STEP` (R151): `y[n] = (x[n] - alpha x[n-1]) gain`. -/
def execPreStep (inst : Nat) (a : Word) (s : State) : Result :=
  operate s.pre PreRegs.inited inst s fun u =>
    let y := fmul (fsub a (fmul u.alpha u.xprev)) u.gain
    finish (s.putPre inst { u with xprev := a }) y 0

/-- `PRE.RD` (R277). -/
def execPreRd (inst idx : Nat) (s : State) : Result := readCommand .pre inst idx s

/-- `PRE.WR` (R278). -/
def execPreWr (inst idx : Nat) (a : Word) (s : State) : Result := writeCommand .pre inst idx a s

/-- The checks of `TILT.INIT` (R155). -/
def TiltRegs.configOk (u : TiltRegs) : Bool :=
  isFinite u.srate && fgt u.srate zero && isFinite u.cutoff && fgt u.cutoff zero

/-- The instance `TILT.INIT` constructs (R155): `tau = 1 / (2pi fc)`. -/
def TiltRegs.constructed (u : TiltRegs) : Option TiltRegs :=
  if u.configOk then
    some { u with
      alpha := rcAlpha (fdiv one (fmul twoPi u.cutoff)) u.srate
      xprev := zero
      yprev := zero
      inited := true }
  else none

/-- `TILT.INIT` (R155). -/
def execTiltInit (inst : Nat) (s : State) : Result :=
  construct s.tilt inst s TiltRegs.constructed (s.putTilt inst)

/-- `TILT.STEP` (R156): `y[n] = alpha y[n-1] + (x[n] - x[n-1])`. -/
def execTiltStep (inst : Nat) (a : Word) (s : State) : Result :=
  operate s.tilt TiltRegs.inited inst s fun u =>
    let y := fadd (fmul u.alpha u.yprev) (fsub a u.xprev)
    finish (s.putTilt inst { u with xprev := a, yprev := y }) y 0

/-- `TILT.RD` (R277). -/
def execTiltRd (inst idx : Nat) (s : State) : Result := readCommand .tilt inst idx s

/-- `TILT.WR` (R278). -/
def execTiltWr (inst idx : Nat) (a : Word) (s : State) : Result := writeCommand .tilt inst idx a s

end Sys2Proof.Machine
end

