-- ==== Sys2Proof/Machine/StereoEncoder.lean ====
section
/-! DEFINITION. DSB and MUX, the stereo subcarrier encoders (R205 to R214). -/

namespace Sys2Proof.Machine

/-- `subcarrier_term(side, p, h, polar)` (R205). The DC offset and the harmonic 1 are polar mode's. -/
def subcarrierTerm (par : Params) (side p : Word) (h : Nat) (polar : Bool) : Word :=
  if polar then fmul (fadd side par.polarDc) (Config.fsin p)
  else fmul side (Config.fsin (harmonicArg p h))

/-- A harmonic multiplier an INIT accepts: 1..255 (R206, R209). -/
def harmOk (w : Word) : Bool := decide (1 ≤ w.toNat) && decide (w.toNat ≤ 255)

/-- The checks of `DSB.INIT` (R206). -/
def DsbRegs.configOk (u : DsbRegs) (nOsc : Nat) : Bool :=
  decide (u.oscsel.toNat < nOsc) && decide (u.polar.toNat ≤ 1) && (u.polar != 0 || harmOk u.harm)

/-- `DSB.INIT` (R206). -/
def execDsbInit (inst : Nat) (s : State) : Result :=
  construct s.dsb inst s
    (fun u => if u.configOk s.osc.length then some { u with inited := true } else none)
    (s.putDsb inst)

/-- `DSB.ENC` (R207): no register is written. -/
def execDsbEnc (inst : Nat) (a : Word) (s : State) : Result :=
  operate s.dsb DsbRegs.inited inst s fun u =>
    withSelected s.osc OscRegs.inited u.oscsel s fun o =>
      finish s (subcarrierTerm s.par a o.phase u.harm.toNat (u.polar != 0)) 0

/-- `DSB.RD` (R277). -/
def execDsbRd (inst idx : Nat) (s : State) : Result := readCommand .dsb inst idx s

/-- `DSB.WR` (R278). -/
def execDsbWr (inst idx : Nat) (a : Word) (s : State) : Result := writeCommand .dsb inst idx a s

/-- The checks of `MUX.INIT` (R209). -/
def MuxRegs.configOk (u : MuxRegs) (nOsc nHil nDly : Nat) : Bool :=
  decide (u.oscsel.toNat < nOsc) && decide (u.mode.toNat ≤ 3)
    && isFinite u.monovol && isFinite u.pilotvol && isFinite u.stereovol
    && (!(u.mode == 1 || u.mode == 2) || harmOk u.harm)
    && (u.mode != 2 || (decide (u.sideband.toNat ≤ 1) && decide (u.hilsel.toNat < nHil)
        && decide (u.dlysel.toNat < nDly)))

/-- `MUX.INIT` (R209). -/
def execMuxInit (inst : Nat) (s : State) : Result :=
  construct s.mux inst s
    (fun u =>
      if u.configOk s.osc.length s.hil.length s.dly.length then some { u with inited := true }
      else none)
    (s.putMux inst)

/-- `mid = (L + R) / 2` (R210). -/
def midOf (l r : Word) : Word := fdiv (fadd l r) two

/-- `side = (L - R) / 2` (R210). -/
def sideOf (l r : Word) : Word := fdiv (fsub l r) two

/-- Mono: the mid program alone (R210, R211). -/
def MuxRegs.mono (u : MuxRegs) (mid : Word) : Word := fmul mid u.monovol

/-- DSB-SC: mid, pilot and the subcarrier term, left to right (R210). -/
def MuxRegs.dsbSc (u : MuxRegs) (par : Params) (mid side p : Word) : Word :=
  fadd (fadd (fmul mid u.monovol) (fmul (Config.fsin p) u.pilotvol))
    (fmul (subcarrierTerm par side p u.harm.toNat false) u.stereovol)

/-- Polar: no pilot (R210, R212). -/
def MuxRegs.polarOut (u : MuxRegs) (par : Params) (mid side p : Word) : Word :=
  fadd (fmul mid u.monovol) (fmul (subcarrierTerm par side p 1 true) u.stereovol)

/-- The SSB subcarrier term: `I cos` minus or plus `Q sin * SSB_Q_GAIN`, by SIDEBAND (R210, R213). -/
def MuxRegs.ssbTerm (u : MuxRegs) (par : Params) (i q p : Word) : Word :=
  let c2 := Config.fcos (harmonicArg p u.harm.toNat)
  let s2 := Config.fsin (harmonicArg p u.harm.toNat)
  let qt := fmul (fmul q s2) par.ssbQGain
  if u.sideband = 0 then fsub (fmul i c2) qt else fadd (fmul i c2) qt

/-- SSB: the delayed mid, pilot and the SSB term (R210). -/
def MuxRegs.ssb (u : MuxRegs) (par : Params) (i q midd p : Word) : Word :=
  fadd (fadd (fmul midd u.monovol) (fmul (Config.fsin p) u.pilotvol))
    (fmul (u.ssbTerm par i q p) u.stereovol)

/-- The state with the oscillator advanced if ADV is set, after every read of its phase (R210,
R214). -/
def advanceIf (adv : Bool) (sel : Word) (o : OscRegs) (s : State) : State :=
  if adv then s.putOsc sel.toNat o.advance else s

/-- `MUX.ENC` (R210). In SSB mode it steps the selected HIL with the side sample and the selected DLY
with the mid sample; in the others it writes no register but, with ADV, the oscillator's phase. -/
def execMuxEnc (inst : Nat) (adv : Bool) (a b : Word) (s : State) : Result :=
  operate s.mux MuxRegs.inited inst s fun u =>
    withSelected s.osc OscRegs.inited u.oscsel s fun o =>
      let mid := midOf a b
      let side := sideOf a b
      match u.mode.toNat with
      | 0 => finish (advanceIf adv u.oscsel o s) (u.mono mid) 0
      | 1 => finish (advanceIf adv u.oscsel o s) (u.dsbSc s.par mid side o.phase) 0
      | 2 =>
        withSelected s.hil HilRegs.inited u.hilsel s fun h =>
          withSelected s.dly DlyRegs.inited u.dlysel s fun d =>
            let r := h.step s.par.hilCoef side
            let m := d.pushPop s.par.dlyCap mid
            let t := (s.putHil u.hilsel.toNat r.regs).putDly u.dlysel.toNat m.1
            finish (advanceIf adv u.oscsel o t) (u.ssb s.par r.i r.q m.2 o.phase) 0
      | 3 => finish (advanceIf adv u.oscsel o s) (u.polarOut s.par mid side o.phase) 0
      | _ => .fault .illegalMode

/-- `MUX.RD` (R277). -/
def execMuxRd (inst idx : Nat) (s : State) : Result := readCommand .mux inst idx s

/-- `MUX.WR` (R278). -/
def execMuxWr (inst idx : Nat) (a : Word) (s : State) : Result := writeCommand .mux inst idx a s

end Sys2Proof.Machine
end

