-- ==== Sys2Proof/Machine/System.lean ====
section
/-! DEFINITION. SYS (R275 to R278): the meanings of its four commands. -/

namespace Sys2Proof.Machine

/-- `SYS.RST` (R275): every register at its reset value, and an OK response. CMDCNT is 0 after it:
it does not count itself (R42). -/
def execSysRst (inst : Nat) (s : State) : Result :=
  if 1 ≤ inst then raise .badInstance s
  else .next { s.resetRegs with rsp := some ⟨.ok, 0, 0⟩ }

/-- `SYS.NOP` (R276). -/
def execSysNop (inst : Nat) (s : State) : Result :=
  if 1 ≤ inst then raise .badInstance s else finish s 0 0

/-- `SYS.RD` (R277). -/
def execSysRd (inst idx : Nat) (s : State) : Result := readCommand .sys inst idx s

/-- `SYS.WR` (R278). No register of the unit is of class CFG, so it always ends in an error. -/
def execSysWr (inst idx : Nat) (a : Word) (s : State) : Result := writeCommand .sys inst idx a s

end Sys2Proof.Machine
end

