-- ==== Sys2Proof/Machine/Dispatch.lean ====
section
/-! DEFINITION. The dispatch: one arm per command of the opcode table. -/

namespace Sys2Proof.Machine

/-- The meaning of a command. -/
def exec (i : Instr) (s : State) : Host.Outcome State Fault Refusal :=
  match i with
  | .sysRst inst => Sys2Proof.Machine.execSysRst inst s
  | .sysRd inst idx => Sys2Proof.Machine.execSysRd inst idx s
  | .sysWr inst idx a => Sys2Proof.Machine.execSysWr inst idx a s
  | .sysNop inst => Sys2Proof.Machine.execSysNop inst s
  | .oscInit inst a b => Sys2Proof.Machine.execOscInit inst a b s
  | .oscRd inst idx => Sys2Proof.Machine.execOscRd inst idx s
  | .oscWr inst idx a => Sys2Proof.Machine.execOscWr inst idx a s
  | .oscSetf inst a => Sys2Proof.Machine.execOscSetf inst a s
  | .oscSin inst => Sys2Proof.Machine.execOscSin inst s
  | .oscCos inst => Sys2Proof.Machine.execOscCos inst s
  | .oscSinh inst k => Sys2Proof.Machine.execOscSinh inst k s
  | .oscCosh inst k => Sys2Proof.Machine.execOscCosh inst k s
  | .oscAdv inst => Sys2Proof.Machine.execOscAdv inst s
  | .preInit inst => Sys2Proof.Machine.execPreInit inst s
  | .preRd inst idx => Sys2Proof.Machine.execPreRd inst idx s
  | .preWr inst idx a => Sys2Proof.Machine.execPreWr inst idx a s
  | .preStep inst a => Sys2Proof.Machine.execPreStep inst a s
  | .flpInit inst => Sys2Proof.Machine.execFlpInit inst s
  | .flpRd inst idx => Sys2Proof.Machine.execFlpRd inst idx s
  | .flpWr inst idx a => Sys2Proof.Machine.execFlpWr inst idx a s
  | .flpStep inst a => Sys2Proof.Machine.execFlpStep inst a s
  | .fhpInit inst => Sys2Proof.Machine.execFhpInit inst s
  | .fhpRd inst idx => Sys2Proof.Machine.execFhpRd inst idx s
  | .fhpWr inst idx a => Sys2Proof.Machine.execFhpWr inst idx a s
  | .fhpStep inst a => Sys2Proof.Machine.execFhpStep inst a s
  | .bqInit inst => Sys2Proof.Machine.execBqInit inst s
  | .bqRd inst idx => Sys2Proof.Machine.execBqRd inst idx s
  | .bqWr inst idx a => Sys2Proof.Machine.execBqWr inst idx a s
  | .bqStep inst a => Sys2Proof.Machine.execBqStep inst a s
  | .hilInit inst => Sys2Proof.Machine.execHilInit inst s
  | .hilRd inst idx => Sys2Proof.Machine.execHilRd inst idx s
  | .hilWr inst idx a => Sys2Proof.Machine.execHilWr inst idx a s
  | .hilStep inst a => Sys2Proof.Machine.execHilStep inst a s
  | .fmInit inst => Sys2Proof.Machine.execFmInit inst s
  | .fmRd inst idx => Sys2Proof.Machine.execFmRd inst idx s
  | .fmWr inst idx a => Sys2Proof.Machine.execFmWr inst idx a s
  | .fmMod inst a => Sys2Proof.Machine.execFmMod inst a s
  | .dsbInit inst => Sys2Proof.Machine.execDsbInit inst s
  | .dsbRd inst idx => Sys2Proof.Machine.execDsbRd inst idx s
  | .dsbWr inst idx a => Sys2Proof.Machine.execDsbWr inst idx a s
  | .dsbEnc inst a => Sys2Proof.Machine.execDsbEnc inst a s
  | .muxInit inst => Sys2Proof.Machine.execMuxInit inst s
  | .muxRd inst idx => Sys2Proof.Machine.execMuxRd inst idx s
  | .muxWr inst idx a => Sys2Proof.Machine.execMuxWr inst idx a s
  | .muxEnc inst adv a b => Sys2Proof.Machine.execMuxEnc inst adv a b s
  | .bsInit inst => Sys2Proof.Machine.execBsInit inst s
  | .bsRd inst idx => Sys2Proof.Machine.execBsRd inst idx s
  | .bsWr inst idx a => Sys2Proof.Machine.execBsWr inst idx a s
  | .bsMeas inst a => Sys2Proof.Machine.execBsMeas inst a s
  | .bsD2dbr inst a => Sys2Proof.Machine.execBsD2dbr inst a s
  | .bsDbr2d inst a => Sys2Proof.Machine.execBsDbr2d inst a s
  | .bsRatio inst a => Sys2Proof.Machine.execBsRatio inst a s
  | .agcInit inst => Sys2Proof.Machine.execAgcInit inst s
  | .agcRd inst idx => Sys2Proof.Machine.execAgcRd inst idx s
  | .agcWr inst idx a => Sys2Proof.Machine.execAgcWr inst idx a s
  | .agcProc inst a => Sys2Proof.Machine.execAgcProc inst a s
  | .addInit inst => Sys2Proof.Machine.execAddInit inst s
  | .addRd inst idx => Sys2Proof.Machine.execAddRd inst idx s
  | .addWr inst idx a => Sys2Proof.Machine.execAddWr inst idx a s
  | .addClr inst => Sys2Proof.Machine.execAddClr inst s
  | .addIn inst ch a => Sys2Proof.Machine.execAddIn inst ch a s
  | .addOut inst => Sys2Proof.Machine.execAddOut inst s
  | .tiltInit inst => Sys2Proof.Machine.execTiltInit inst s
  | .tiltRd inst idx => Sys2Proof.Machine.execTiltRd inst idx s
  | .tiltWr inst idx a => Sys2Proof.Machine.execTiltWr inst idx a s
  | .tiltStep inst a => Sys2Proof.Machine.execTiltStep inst a s
  | .dlyInit inst => Sys2Proof.Machine.execDlyInit inst s
  | .dlyRd inst idx => Sys2Proof.Machine.execDlyRd inst idx s
  | .dlyWr inst idx a => Sys2Proof.Machine.execDlyWr inst idx a s
  | .dlySetd inst a => Sys2Proof.Machine.execDlySetd inst a s
  | .dlyPushpop inst a => Sys2Proof.Machine.execDlyPushpop inst a s

end Sys2Proof.Machine
end

