-- ==== Sys2Proof/WellFormed.lean ====
section
/-! DEFINITION. Which terms of `Instr` a command word can hold (R101, R105). -/

namespace Sys2Proof

/-- The operands fit their fields: INST 4 bits, IDX 12 bits, the harmonic 8 bits (R101, R105). The
channel and the ADV flag fit by their types. -/
def Instr.wf : Instr → Bool
  | .sysRst inst => decide (inst < 16)
  | .sysRd inst idx => decide (inst < 16) && decide (idx < 4096)
  | .sysWr inst idx _ => decide (inst < 16) && decide (idx < 4096)
  | .sysNop inst => decide (inst < 16)
  | .oscInit inst _ _ => decide (inst < 16)
  | .oscRd inst idx => decide (inst < 16) && decide (idx < 4096)
  | .oscWr inst idx _ => decide (inst < 16) && decide (idx < 4096)
  | .oscSetf inst _ => decide (inst < 16)
  | .oscSin inst => decide (inst < 16)
  | .oscCos inst => decide (inst < 16)
  | .oscSinh inst k => decide (inst < 16) && decide (k < 256)
  | .oscCosh inst k => decide (inst < 16) && decide (k < 256)
  | .oscAdv inst => decide (inst < 16)
  | .preInit inst => decide (inst < 16)
  | .preRd inst idx => decide (inst < 16) && decide (idx < 4096)
  | .preWr inst idx _ => decide (inst < 16) && decide (idx < 4096)
  | .preStep inst _ => decide (inst < 16)
  | .flpInit inst => decide (inst < 16)
  | .flpRd inst idx => decide (inst < 16) && decide (idx < 4096)
  | .flpWr inst idx _ => decide (inst < 16) && decide (idx < 4096)
  | .flpStep inst _ => decide (inst < 16)
  | .fhpInit inst => decide (inst < 16)
  | .fhpRd inst idx => decide (inst < 16) && decide (idx < 4096)
  | .fhpWr inst idx _ => decide (inst < 16) && decide (idx < 4096)
  | .fhpStep inst _ => decide (inst < 16)
  | .bqInit inst => decide (inst < 16)
  | .bqRd inst idx => decide (inst < 16) && decide (idx < 4096)
  | .bqWr inst idx _ => decide (inst < 16) && decide (idx < 4096)
  | .bqStep inst _ => decide (inst < 16)
  | .hilInit inst => decide (inst < 16)
  | .hilRd inst idx => decide (inst < 16) && decide (idx < 4096)
  | .hilWr inst idx _ => decide (inst < 16) && decide (idx < 4096)
  | .hilStep inst _ => decide (inst < 16)
  | .fmInit inst => decide (inst < 16)
  | .fmRd inst idx => decide (inst < 16) && decide (idx < 4096)
  | .fmWr inst idx _ => decide (inst < 16) && decide (idx < 4096)
  | .fmMod inst _ => decide (inst < 16)
  | .dsbInit inst => decide (inst < 16)
  | .dsbRd inst idx => decide (inst < 16) && decide (idx < 4096)
  | .dsbWr inst idx _ => decide (inst < 16) && decide (idx < 4096)
  | .dsbEnc inst _ => decide (inst < 16)
  | .muxInit inst => decide (inst < 16)
  | .muxRd inst idx => decide (inst < 16) && decide (idx < 4096)
  | .muxWr inst idx _ => decide (inst < 16) && decide (idx < 4096)
  | .muxEnc inst _ _ _ => decide (inst < 16)
  | .bsInit inst => decide (inst < 16)
  | .bsRd inst idx => decide (inst < 16) && decide (idx < 4096)
  | .bsWr inst idx _ => decide (inst < 16) && decide (idx < 4096)
  | .bsMeas inst _ => decide (inst < 16)
  | .bsD2dbr inst _ => decide (inst < 16)
  | .bsDbr2d inst _ => decide (inst < 16)
  | .bsRatio inst _ => decide (inst < 16)
  | .agcInit inst => decide (inst < 16)
  | .agcRd inst idx => decide (inst < 16) && decide (idx < 4096)
  | .agcWr inst idx _ => decide (inst < 16) && decide (idx < 4096)
  | .agcProc inst _ => decide (inst < 16)
  | .addInit inst => decide (inst < 16)
  | .addRd inst idx => decide (inst < 16) && decide (idx < 4096)
  | .addWr inst idx _ => decide (inst < 16) && decide (idx < 4096)
  | .addClr inst => decide (inst < 16)
  | .addIn inst _ _ => decide (inst < 16)
  | .addOut inst => decide (inst < 16)
  | .tiltInit inst => decide (inst < 16)
  | .tiltRd inst idx => decide (inst < 16) && decide (idx < 4096)
  | .tiltWr inst idx _ => decide (inst < 16) && decide (idx < 4096)
  | .tiltStep inst _ => decide (inst < 16)
  | .dlyInit inst => decide (inst < 16)
  | .dlyRd inst idx => decide (inst < 16) && decide (idx < 4096)
  | .dlyWr inst idx _ => decide (inst < 16) && decide (idx < 4096)
  | .dlySetd inst _ => decide (inst < 16)
  | .dlyPushpop inst _ => decide (inst < 16)

end Sys2Proof
end

