-- ==== Sys2Proof/Decode.lean ====
section
/-! DEFINITION. The command encoding (R100 to R108): the fields of a command word, the opcode rows,
the decoder, total and rejecting by name, and the encoder. -/

namespace Sys2Proof

/-- The fields of a command word (R101). -/
structure Fields where
  unit : Nat
  func : Nat
  inst : Nat
  idx : Nat
  flags : Nat
  deriving DecidableEq, Repr

/-- The field layout of R101, the same for every command. -/
def fieldsOf (w : Word) : Fields where
  unit := bits w 31 28
  func := bits w 27 24
  inst := bits w 23 20
  idx := bits w 19 8
  flags := bits w 7 0

/-- Why a command word selects no row (R107); the block answers `ILLEGAL_CMD` to all three. -/
inductive Illegal where
  /-- UNIT = 15. -/
  | reservedUnit
  /-- The (UNIT, FUNC) pair is not in the table. -/
  | unassignedFunc
  /-- A field that must be 0 is not 0. -/
  | mustBeZero
  deriving DecidableEq, Repr

/-- IDX and FLAGS must be 0: every command without an immediate (R105 (d)). -/
def plainForm (f : Fields) (i : Instr) : Except Illegal Instr :=
  if f.idx = 0 ∧ f.flags = 0 then .ok i else .error .mustBeZero

/-- FLAGS must be 0 and IDX is the register index: `RD` and `WR` (R105 (a)). -/
def indexForm (f : Fields) (i : Nat → Instr) : Except Illegal Instr :=
  if f.flags = 0 then .ok (i f.idx) else .error .mustBeZero

/-- FLAGS and IDX[11:8] must be 0 and k = IDX[7:0] (R105 (b)). -/
def harmonicForm (f : Fields) (i : Nat → Instr) : Except Illegal Instr :=
  if f.idx < 256 ∧ f.flags = 0 then .ok (i f.idx) else .error .mustBeZero

/-- FLAGS and IDX[11:3] must be 0 and the channel is IDX[2:0] (R105 (c)). -/
def channelForm (f : Fields) (i : Fin 8 → Instr) : Except Illegal Instr :=
  if h : f.idx < 8 then (if f.flags = 0 then .ok (i ⟨f.idx, h⟩) else .error .mustBeZero)
  else .error .mustBeZero

/-- IDX and FLAGS[7:1] must be 0 and FLAGS bit 0 is ADV (R105 (d)). -/
def advanceForm (f : Fields) (i : Bool → Instr) : Except Illegal Instr :=
  if f.idx = 0 ∧ f.flags < 2 then .ok (i (f.flags == 1)) else .error .mustBeZero

/-- The functions of SYS (R103). -/
def decodeSys (f : Fields) (a : Word) : Except Illegal Instr :=
  match f.func with
  | 0 => plainForm f (.sysRst f.inst)
  | 1 => indexForm f fun idx => .sysRd f.inst idx
  | 2 => indexForm f fun idx => .sysWr f.inst idx a
  | 3 => plainForm f (.sysNop f.inst)
  | _ => .error .unassignedFunc

/-- The functions of OSC (R103). -/
def decodeOsc (f : Fields) (a b : Word) : Except Illegal Instr :=
  match f.func with
  | 0 => plainForm f (.oscInit f.inst a b)
  | 1 => indexForm f fun idx => .oscRd f.inst idx
  | 2 => indexForm f fun idx => .oscWr f.inst idx a
  | 3 => plainForm f (.oscSetf f.inst a)
  | 4 => plainForm f (.oscSin f.inst)
  | 5 => plainForm f (.oscCos f.inst)
  | 6 => harmonicForm f fun k => .oscSinh f.inst k
  | 7 => harmonicForm f fun k => .oscCosh f.inst k
  | 8 => plainForm f (.oscAdv f.inst)
  | _ => .error .unassignedFunc

/-- The functions of PRE (R103). -/
def decodePre (f : Fields) (a : Word) : Except Illegal Instr :=
  match f.func with
  | 0 => plainForm f (.preInit f.inst)
  | 1 => indexForm f fun idx => .preRd f.inst idx
  | 2 => indexForm f fun idx => .preWr f.inst idx a
  | 3 => plainForm f (.preStep f.inst a)
  | _ => .error .unassignedFunc

/-- The functions of FLP (R103). -/
def decodeFlp (f : Fields) (a : Word) : Except Illegal Instr :=
  match f.func with
  | 0 => plainForm f (.flpInit f.inst)
  | 1 => indexForm f fun idx => .flpRd f.inst idx
  | 2 => indexForm f fun idx => .flpWr f.inst idx a
  | 3 => plainForm f (.flpStep f.inst a)
  | _ => .error .unassignedFunc

/-- The functions of FHP (R103). -/
def decodeFhp (f : Fields) (a : Word) : Except Illegal Instr :=
  match f.func with
  | 0 => plainForm f (.fhpInit f.inst)
  | 1 => indexForm f fun idx => .fhpRd f.inst idx
  | 2 => indexForm f fun idx => .fhpWr f.inst idx a
  | 3 => plainForm f (.fhpStep f.inst a)
  | _ => .error .unassignedFunc

/-- The functions of BQ (R103). -/
def decodeBq (f : Fields) (a : Word) : Except Illegal Instr :=
  match f.func with
  | 0 => plainForm f (.bqInit f.inst)
  | 1 => indexForm f fun idx => .bqRd f.inst idx
  | 2 => indexForm f fun idx => .bqWr f.inst idx a
  | 3 => plainForm f (.bqStep f.inst a)
  | _ => .error .unassignedFunc

/-- The functions of HIL (R103). -/
def decodeHil (f : Fields) (a : Word) : Except Illegal Instr :=
  match f.func with
  | 0 => plainForm f (.hilInit f.inst)
  | 1 => indexForm f fun idx => .hilRd f.inst idx
  | 2 => indexForm f fun idx => .hilWr f.inst idx a
  | 3 => plainForm f (.hilStep f.inst a)
  | _ => .error .unassignedFunc

/-- The functions of FM (R103). -/
def decodeFm (f : Fields) (a : Word) : Except Illegal Instr :=
  match f.func with
  | 0 => plainForm f (.fmInit f.inst)
  | 1 => indexForm f fun idx => .fmRd f.inst idx
  | 2 => indexForm f fun idx => .fmWr f.inst idx a
  | 3 => plainForm f (.fmMod f.inst a)
  | _ => .error .unassignedFunc

/-- The functions of DSB (R103). -/
def decodeDsb (f : Fields) (a : Word) : Except Illegal Instr :=
  match f.func with
  | 0 => plainForm f (.dsbInit f.inst)
  | 1 => indexForm f fun idx => .dsbRd f.inst idx
  | 2 => indexForm f fun idx => .dsbWr f.inst idx a
  | 3 => plainForm f (.dsbEnc f.inst a)
  | _ => .error .unassignedFunc

/-- The functions of MUX (R103). -/
def decodeMux (f : Fields) (a b : Word) : Except Illegal Instr :=
  match f.func with
  | 0 => plainForm f (.muxInit f.inst)
  | 1 => indexForm f fun idx => .muxRd f.inst idx
  | 2 => indexForm f fun idx => .muxWr f.inst idx a
  | 3 => advanceForm f fun adv => .muxEnc f.inst adv a b
  | _ => .error .unassignedFunc

/-- The functions of BS (R103). -/
def decodeBs (f : Fields) (a : Word) : Except Illegal Instr :=
  match f.func with
  | 0 => plainForm f (.bsInit f.inst)
  | 1 => indexForm f fun idx => .bsRd f.inst idx
  | 2 => indexForm f fun idx => .bsWr f.inst idx a
  | 3 => plainForm f (.bsMeas f.inst a)
  | 4 => plainForm f (.bsD2dbr f.inst a)
  | 5 => plainForm f (.bsDbr2d f.inst a)
  | 6 => plainForm f (.bsRatio f.inst a)
  | _ => .error .unassignedFunc

/-- The functions of AGC (R103). -/
def decodeAgc (f : Fields) (a : Word) : Except Illegal Instr :=
  match f.func with
  | 0 => plainForm f (.agcInit f.inst)
  | 1 => indexForm f fun idx => .agcRd f.inst idx
  | 2 => indexForm f fun idx => .agcWr f.inst idx a
  | 3 => plainForm f (.agcProc f.inst a)
  | _ => .error .unassignedFunc

/-- The functions of ADD (R103). -/
def decodeAdd (f : Fields) (a : Word) : Except Illegal Instr :=
  match f.func with
  | 0 => plainForm f (.addInit f.inst)
  | 1 => indexForm f fun idx => .addRd f.inst idx
  | 2 => indexForm f fun idx => .addWr f.inst idx a
  | 3 => plainForm f (.addClr f.inst)
  | 4 => channelForm f fun ch => .addIn f.inst ch a
  | 5 => plainForm f (.addOut f.inst)
  | _ => .error .unassignedFunc

/-- The functions of TILT (R103). -/
def decodeTilt (f : Fields) (a : Word) : Except Illegal Instr :=
  match f.func with
  | 0 => plainForm f (.tiltInit f.inst)
  | 1 => indexForm f fun idx => .tiltRd f.inst idx
  | 2 => indexForm f fun idx => .tiltWr f.inst idx a
  | 3 => plainForm f (.tiltStep f.inst a)
  | _ => .error .unassignedFunc

/-- The functions of DLY (R103). -/
def decodeDly (f : Fields) (a : Word) : Except Illegal Instr :=
  match f.func with
  | 0 => plainForm f (.dlyInit f.inst)
  | 1 => indexForm f fun idx => .dlyRd f.inst idx
  | 2 => indexForm f fun idx => .dlyWr f.inst idx a
  | 3 => plainForm f (.dlySetd f.inst a)
  | 4 => plainForm f (.dlyPushpop f.inst a)
  | _ => .error .unassignedFunc

/-- The decoder (R103, R107, R108): total on every packet. -/
def decode (p : Packet) : Except Illegal Instr :=
  let f := fieldsOf p.cmd
  match f.unit with
  | 0 => decodeSys f p.a
  | 1 => decodeOsc f p.a p.b
  | 2 => decodePre f p.a
  | 3 => decodeFlp f p.a
  | 4 => decodeFhp f p.a
  | 5 => decodeBq f p.a
  | 6 => decodeHil f p.a
  | 7 => decodeFm f p.a
  | 8 => decodeDsb f p.a
  | 9 => decodeMux f p.a p.b
  | 10 => decodeBs f p.a
  | 11 => decodeAgc f p.a
  | 12 => decodeAdd f p.a
  | 13 => decodeTilt f p.a
  | 14 => decodeDly f p.a
  | _ => .error .reservedUnit

/-- The command word with these fields (R101). -/
def commandWord (unit func inst idx flags : Nat) : Word :=
  BitVec.ofNat 32 (unit * 2 ^ 28 + func * 2 ^ 24 + inst * 2 ^ 20 + idx * 2 ^ 8 + flags)

/-- The packet of a well-formed command; operand words its format does not read are zero (R109). -/
def encode : Instr → Packet
  | .sysRst inst => ⟨commandWord 0 0 inst 0 0, 0, 0⟩
  | .sysRd inst idx => ⟨commandWord 0 1 inst idx 0, 0, 0⟩
  | .sysWr inst idx a => ⟨commandWord 0 2 inst idx 0, a, 0⟩
  | .sysNop inst => ⟨commandWord 0 3 inst 0 0, 0, 0⟩
  | .oscInit inst a b => ⟨commandWord 1 0 inst 0 0, a, b⟩
  | .oscRd inst idx => ⟨commandWord 1 1 inst idx 0, 0, 0⟩
  | .oscWr inst idx a => ⟨commandWord 1 2 inst idx 0, a, 0⟩
  | .oscSetf inst a => ⟨commandWord 1 3 inst 0 0, a, 0⟩
  | .oscSin inst => ⟨commandWord 1 4 inst 0 0, 0, 0⟩
  | .oscCos inst => ⟨commandWord 1 5 inst 0 0, 0, 0⟩
  | .oscSinh inst k => ⟨commandWord 1 6 inst k 0, 0, 0⟩
  | .oscCosh inst k => ⟨commandWord 1 7 inst k 0, 0, 0⟩
  | .oscAdv inst => ⟨commandWord 1 8 inst 0 0, 0, 0⟩
  | .preInit inst => ⟨commandWord 2 0 inst 0 0, 0, 0⟩
  | .preRd inst idx => ⟨commandWord 2 1 inst idx 0, 0, 0⟩
  | .preWr inst idx a => ⟨commandWord 2 2 inst idx 0, a, 0⟩
  | .preStep inst a => ⟨commandWord 2 3 inst 0 0, a, 0⟩
  | .flpInit inst => ⟨commandWord 3 0 inst 0 0, 0, 0⟩
  | .flpRd inst idx => ⟨commandWord 3 1 inst idx 0, 0, 0⟩
  | .flpWr inst idx a => ⟨commandWord 3 2 inst idx 0, a, 0⟩
  | .flpStep inst a => ⟨commandWord 3 3 inst 0 0, a, 0⟩
  | .fhpInit inst => ⟨commandWord 4 0 inst 0 0, 0, 0⟩
  | .fhpRd inst idx => ⟨commandWord 4 1 inst idx 0, 0, 0⟩
  | .fhpWr inst idx a => ⟨commandWord 4 2 inst idx 0, a, 0⟩
  | .fhpStep inst a => ⟨commandWord 4 3 inst 0 0, a, 0⟩
  | .bqInit inst => ⟨commandWord 5 0 inst 0 0, 0, 0⟩
  | .bqRd inst idx => ⟨commandWord 5 1 inst idx 0, 0, 0⟩
  | .bqWr inst idx a => ⟨commandWord 5 2 inst idx 0, a, 0⟩
  | .bqStep inst a => ⟨commandWord 5 3 inst 0 0, a, 0⟩
  | .hilInit inst => ⟨commandWord 6 0 inst 0 0, 0, 0⟩
  | .hilRd inst idx => ⟨commandWord 6 1 inst idx 0, 0, 0⟩
  | .hilWr inst idx a => ⟨commandWord 6 2 inst idx 0, a, 0⟩
  | .hilStep inst a => ⟨commandWord 6 3 inst 0 0, a, 0⟩
  | .fmInit inst => ⟨commandWord 7 0 inst 0 0, 0, 0⟩
  | .fmRd inst idx => ⟨commandWord 7 1 inst idx 0, 0, 0⟩
  | .fmWr inst idx a => ⟨commandWord 7 2 inst idx 0, a, 0⟩
  | .fmMod inst a => ⟨commandWord 7 3 inst 0 0, a, 0⟩
  | .dsbInit inst => ⟨commandWord 8 0 inst 0 0, 0, 0⟩
  | .dsbRd inst idx => ⟨commandWord 8 1 inst idx 0, 0, 0⟩
  | .dsbWr inst idx a => ⟨commandWord 8 2 inst idx 0, a, 0⟩
  | .dsbEnc inst a => ⟨commandWord 8 3 inst 0 0, a, 0⟩
  | .muxInit inst => ⟨commandWord 9 0 inst 0 0, 0, 0⟩
  | .muxRd inst idx => ⟨commandWord 9 1 inst idx 0, 0, 0⟩
  | .muxWr inst idx a => ⟨commandWord 9 2 inst idx 0, a, 0⟩
  | .muxEnc inst adv a b => ⟨commandWord 9 3 inst 0 adv.toNat, a, b⟩
  | .bsInit inst => ⟨commandWord 10 0 inst 0 0, 0, 0⟩
  | .bsRd inst idx => ⟨commandWord 10 1 inst idx 0, 0, 0⟩
  | .bsWr inst idx a => ⟨commandWord 10 2 inst idx 0, a, 0⟩
  | .bsMeas inst a => ⟨commandWord 10 3 inst 0 0, a, 0⟩
  | .bsD2dbr inst a => ⟨commandWord 10 4 inst 0 0, a, 0⟩
  | .bsDbr2d inst a => ⟨commandWord 10 5 inst 0 0, a, 0⟩
  | .bsRatio inst a => ⟨commandWord 10 6 inst 0 0, a, 0⟩
  | .agcInit inst => ⟨commandWord 11 0 inst 0 0, 0, 0⟩
  | .agcRd inst idx => ⟨commandWord 11 1 inst idx 0, 0, 0⟩
  | .agcWr inst idx a => ⟨commandWord 11 2 inst idx 0, a, 0⟩
  | .agcProc inst a => ⟨commandWord 11 3 inst 0 0, a, 0⟩
  | .addInit inst => ⟨commandWord 12 0 inst 0 0, 0, 0⟩
  | .addRd inst idx => ⟨commandWord 12 1 inst idx 0, 0, 0⟩
  | .addWr inst idx a => ⟨commandWord 12 2 inst idx 0, a, 0⟩
  | .addClr inst => ⟨commandWord 12 3 inst 0 0, 0, 0⟩
  | .addIn inst ch a => ⟨commandWord 12 4 inst ch.val 0, a, 0⟩
  | .addOut inst => ⟨commandWord 12 5 inst 0 0, 0, 0⟩
  | .tiltInit inst => ⟨commandWord 13 0 inst 0 0, 0, 0⟩
  | .tiltRd inst idx => ⟨commandWord 13 1 inst idx 0, 0, 0⟩
  | .tiltWr inst idx a => ⟨commandWord 13 2 inst idx 0, a, 0⟩
  | .tiltStep inst a => ⟨commandWord 13 3 inst 0 0, a, 0⟩
  | .dlyInit inst => ⟨commandWord 14 0 inst 0 0, 0, 0⟩
  | .dlyRd inst idx => ⟨commandWord 14 1 inst idx 0, 0, 0⟩
  | .dlyWr inst idx a => ⟨commandWord 14 2 inst idx 0, a, 0⟩
  | .dlySetd inst a => ⟨commandWord 14 3 inst 0 0, a, 0⟩
  | .dlyPushpop inst a => ⟨commandWord 14 4 inst 0 0, a, 0⟩

/-- A row of the opcode table: the word w selects it when `(w AND mask) = pattern` (R108). -/
structure OpcodeRow where
  mnemonic : String
  pattern : Word
  mask : Word
  deriving DecidableEq, Repr

/-- The rows of SYS (`opcode_table.json`). -/
def sysRows : List OpcodeRow :=
  [⟨"SYS.RST", 0x00000000#32, 0xFF0FFFFF#32⟩,
   ⟨"SYS.RD", 0x01000000#32, 0xFF0000FF#32⟩,
   ⟨"SYS.WR", 0x02000000#32, 0xFF0000FF#32⟩,
   ⟨"SYS.NOP", 0x03000000#32, 0xFF0FFFFF#32⟩]

/-- The rows of OSC (`opcode_table.json`). -/
def oscRows : List OpcodeRow :=
  [⟨"OSC.INIT", 0x10000000#32, 0xFF0FFFFF#32⟩,
   ⟨"OSC.RD", 0x11000000#32, 0xFF0000FF#32⟩,
   ⟨"OSC.WR", 0x12000000#32, 0xFF0000FF#32⟩,
   ⟨"OSC.SETF", 0x13000000#32, 0xFF0FFFFF#32⟩,
   ⟨"OSC.SIN", 0x14000000#32, 0xFF0FFFFF#32⟩,
   ⟨"OSC.COS", 0x15000000#32, 0xFF0FFFFF#32⟩,
   ⟨"OSC.SINH", 0x16000000#32, 0xFF0F00FF#32⟩,
   ⟨"OSC.COSH", 0x17000000#32, 0xFF0F00FF#32⟩,
   ⟨"OSC.ADV", 0x18000000#32, 0xFF0FFFFF#32⟩]

/-- The rows of PRE (`opcode_table.json`). -/
def preRows : List OpcodeRow :=
  [⟨"PRE.INIT", 0x20000000#32, 0xFF0FFFFF#32⟩,
   ⟨"PRE.RD", 0x21000000#32, 0xFF0000FF#32⟩,
   ⟨"PRE.WR", 0x22000000#32, 0xFF0000FF#32⟩,
   ⟨"PRE.STEP", 0x23000000#32, 0xFF0FFFFF#32⟩]

/-- The rows of FLP (`opcode_table.json`). -/
def flpRows : List OpcodeRow :=
  [⟨"FLP.INIT", 0x30000000#32, 0xFF0FFFFF#32⟩,
   ⟨"FLP.RD", 0x31000000#32, 0xFF0000FF#32⟩,
   ⟨"FLP.WR", 0x32000000#32, 0xFF0000FF#32⟩,
   ⟨"FLP.STEP", 0x33000000#32, 0xFF0FFFFF#32⟩]

/-- The rows of FHP (`opcode_table.json`). -/
def fhpRows : List OpcodeRow :=
  [⟨"FHP.INIT", 0x40000000#32, 0xFF0FFFFF#32⟩,
   ⟨"FHP.RD", 0x41000000#32, 0xFF0000FF#32⟩,
   ⟨"FHP.WR", 0x42000000#32, 0xFF0000FF#32⟩,
   ⟨"FHP.STEP", 0x43000000#32, 0xFF0FFFFF#32⟩]

/-- The rows of BQ (`opcode_table.json`). -/
def bqRows : List OpcodeRow :=
  [⟨"BQ.INIT", 0x50000000#32, 0xFF0FFFFF#32⟩,
   ⟨"BQ.RD", 0x51000000#32, 0xFF0000FF#32⟩,
   ⟨"BQ.WR", 0x52000000#32, 0xFF0000FF#32⟩,
   ⟨"BQ.STEP", 0x53000000#32, 0xFF0FFFFF#32⟩]

/-- The rows of HIL (`opcode_table.json`). -/
def hilRows : List OpcodeRow :=
  [⟨"HIL.INIT", 0x60000000#32, 0xFF0FFFFF#32⟩,
   ⟨"HIL.RD", 0x61000000#32, 0xFF0000FF#32⟩,
   ⟨"HIL.WR", 0x62000000#32, 0xFF0000FF#32⟩,
   ⟨"HIL.STEP", 0x63000000#32, 0xFF0FFFFF#32⟩]

/-- The rows of FM (`opcode_table.json`). -/
def fmRows : List OpcodeRow :=
  [⟨"FM.INIT", 0x70000000#32, 0xFF0FFFFF#32⟩,
   ⟨"FM.RD", 0x71000000#32, 0xFF0000FF#32⟩,
   ⟨"FM.WR", 0x72000000#32, 0xFF0000FF#32⟩,
   ⟨"FM.MOD", 0x73000000#32, 0xFF0FFFFF#32⟩]

/-- The rows of DSB (`opcode_table.json`). -/
def dsbRows : List OpcodeRow :=
  [⟨"DSB.INIT", 0x80000000#32, 0xFF0FFFFF#32⟩,
   ⟨"DSB.RD", 0x81000000#32, 0xFF0000FF#32⟩,
   ⟨"DSB.WR", 0x82000000#32, 0xFF0000FF#32⟩,
   ⟨"DSB.ENC", 0x83000000#32, 0xFF0FFFFF#32⟩]

/-- The rows of MUX (`opcode_table.json`). -/
def muxRows : List OpcodeRow :=
  [⟨"MUX.INIT", 0x90000000#32, 0xFF0FFFFF#32⟩,
   ⟨"MUX.RD", 0x91000000#32, 0xFF0000FF#32⟩,
   ⟨"MUX.WR", 0x92000000#32, 0xFF0000FF#32⟩,
   ⟨"MUX.ENC", 0x93000000#32, 0xFF0FFFFE#32⟩]

/-- The rows of BS (`opcode_table.json`). -/
def bsRows : List OpcodeRow :=
  [⟨"BS.INIT", 0xA0000000#32, 0xFF0FFFFF#32⟩,
   ⟨"BS.RD", 0xA1000000#32, 0xFF0000FF#32⟩,
   ⟨"BS.WR", 0xA2000000#32, 0xFF0000FF#32⟩,
   ⟨"BS.MEAS", 0xA3000000#32, 0xFF0FFFFF#32⟩,
   ⟨"BS.D2DBR", 0xA4000000#32, 0xFF0FFFFF#32⟩,
   ⟨"BS.DBR2D", 0xA5000000#32, 0xFF0FFFFF#32⟩,
   ⟨"BS.RATIO", 0xA6000000#32, 0xFF0FFFFF#32⟩]

/-- The rows of AGC (`opcode_table.json`). -/
def agcRows : List OpcodeRow :=
  [⟨"AGC.INIT", 0xB0000000#32, 0xFF0FFFFF#32⟩,
   ⟨"AGC.RD", 0xB1000000#32, 0xFF0000FF#32⟩,
   ⟨"AGC.WR", 0xB2000000#32, 0xFF0000FF#32⟩,
   ⟨"AGC.PROC", 0xB3000000#32, 0xFF0FFFFF#32⟩]

/-- The rows of ADD (`opcode_table.json`). -/
def addRows : List OpcodeRow :=
  [⟨"ADD.INIT", 0xC0000000#32, 0xFF0FFFFF#32⟩,
   ⟨"ADD.RD", 0xC1000000#32, 0xFF0000FF#32⟩,
   ⟨"ADD.WR", 0xC2000000#32, 0xFF0000FF#32⟩,
   ⟨"ADD.CLR", 0xC3000000#32, 0xFF0FFFFF#32⟩,
   ⟨"ADD.IN", 0xC4000000#32, 0xFF0FF8FF#32⟩,
   ⟨"ADD.OUT", 0xC5000000#32, 0xFF0FFFFF#32⟩]

/-- The rows of TILT (`opcode_table.json`). -/
def tiltRows : List OpcodeRow :=
  [⟨"TILT.INIT", 0xD0000000#32, 0xFF0FFFFF#32⟩,
   ⟨"TILT.RD", 0xD1000000#32, 0xFF0000FF#32⟩,
   ⟨"TILT.WR", 0xD2000000#32, 0xFF0000FF#32⟩,
   ⟨"TILT.STEP", 0xD3000000#32, 0xFF0FFFFF#32⟩]

/-- The rows of DLY (`opcode_table.json`). -/
def dlyRows : List OpcodeRow :=
  [⟨"DLY.INIT", 0xE0000000#32, 0xFF0FFFFF#32⟩,
   ⟨"DLY.RD", 0xE1000000#32, 0xFF0000FF#32⟩,
   ⟨"DLY.WR", 0xE2000000#32, 0xFF0000FF#32⟩,
   ⟨"DLY.SETD", 0xE3000000#32, 0xFF0FFFFF#32⟩,
   ⟨"DLY.PUSHPOP", 0xE4000000#32, 0xFF0FFFFF#32⟩]

/-- The 71 rows of the opcode table (R103, R108). -/
def opcodeRows : List OpcodeRow :=
  sysRows ++ oscRows ++ preRows ++ flpRows ++ fhpRows ++ bqRows ++ hilRows ++ fmRows
    ++ dsbRows ++ muxRows ++ bsRows ++ agcRows ++ addRows ++ tiltRows ++ dlyRows

/-- The packet whose bits are `w`, numbered from the first word: CMD, then A, then B. Log 14. -/
def packetOfBits (w : Nat) : Packet where
  cmd := BitVec.ofNat 32 w
  a := BitVec.ofNat 32 (w / 2 ^ 32)
  b := BitVec.ofNat 32 (w / 2 ^ 64)

/-- The packet of an instruction of which only the first `nbits` bits are given; the rest are 0. -/
def packetOfTable (nbits w : Nat) : Packet := packetOfBits (w % 2 ^ nbits)

/-- The instruction the decoder reads from the bits `w` of an opcode-table row. -/
def decodeTableWord (nbits w : Nat) : Option Instr :=
  match decode (packetOfTable nbits w) with
  | .ok i => some i
  | .error _ => none

end Sys2Proof
end

