-- ==== Sys2Proof/Machine/Fetch.lean ====
section
/-! DEFINITION. How a command reaches the sequencer: the host's pending input (R111, R333). -/

namespace Sys2Proof.Machine

/-- The state with the host's first pending event taken (log 7). -/
def State.withInput (s : State) (rest : List HostEvent) : State := { s with input := rest }

/-- The state in which the host presents this packet next. -/
def State.present (s : State) (p : Packet) : State := s.withInput (.command p :: s.input)

end Sys2Proof.Machine
end

