-- ==== Sys2Proof/Machine/Step.lean ====
section
/-! DEFINITION. One step of the block: it takes the host's next event (R40, R88). -/

namespace Sys2Proof.Machine

/-- With nothing presented the block is idle and nothing changes (R303). `rst` resets it (R315). A
packet is decoded; a word that selects no row ends with `ILLEGAL_CMD` (R293), any other is run. -/
def step (s : State) : Host.Outcome State Fault Refusal :=
  match s.input with
  | [] => .next s
  | .rst :: rest => .next (s.withInput rest).portReset
  | .command p :: rest =>
    match decode p with
    | .ok i => exec i (s.withInput rest)
    | .error _ => raise .illegalCmd (s.withInput rest)

/-- `s` with the host presenting next the packet whose bits are the first `nbits` bits of `w`. -/
def State.withFetchWord (s : State) (nbits w : Nat) : State := s.present (packetOfTable nbits w)

end Sys2Proof.Machine
end

