-- ==== Sys2Proof/Safety.lean ====
section
/-! DEFINITION. What the claims call a good state: the invariant of the machine, the premises the
spec names (R48, R128, R248), and the registers a command may touch (R61). -/

namespace Sys2Proof.Machine

/-- The parameters are in the ranges of R4 and the ROM meets the constraints of R190. -/
structure Params.Legal (p : Params) : Prop where
  taps_odd : p.firTaps % 2 = 1
  taps_range : 3 ≤ p.firTaps ∧ p.firTaps ≤ 1023
  cap_range : 2 ≤ p.dlyCap ∧ p.dlyCap ≤ 1024
  rom_length : p.hilCoef.length = 95
  /-- R190 (a), as real values. -/
  rom_antisymmetric : ∀ k < 95, feq (elem p.hilCoef (94 - k)) (fneg (elem p.hilCoef k)) = true
  /-- R190 (b). -/
  rom_odd_zero : ∀ k < 95, k % 2 = 1 → mag (elem p.hilCoef k) = 0
  /-- R190 (c). -/
  rom_finite : ∀ k < 95, isFinite (elem p.hilCoef k) = true
  /-- R190 (d). -/
  rom_positive : ∀ k < 95, k % 2 = 0 → 47 < k → fgt (elem p.hilCoef k) zero = true

/-! A constructed instance holds a configuration its INIT accepts and the derived registers INIT
computed from it (R44, R296, R328); arrays have their length and cursors are in range (R171). -/

def OscRegs.Legal (u : OscRegs) : Prop :=
  u.inited = true → isFinite u.srate = true ∧ fgt u.srate zero = true

def PreRegs.Legal (u : PreRegs) : Prop :=
  u.inited = true → u.configOk = true ∧ u.alpha = rcAlpha u.tau u.srate
    ∧ u.gain = preGain u.alpha u.reffreq u.srate

/-- The kernel is passed through `shape`: the identity in FLP, the inversion in FHP. -/
def FirRegs.Legal (n : Nat) (shape : List Word → List Word) (u : FirRegs) : Prop :=
  u.coef.length = n ∧ u.hist.length = n ∧ u.wpos.toNat < n ∧
    (u.inited = true → (firKernel n u.cutoff u.srate).map shape = some u.coef)

def BqRegs.Legal (u : BqRegs) : Prop := u.inited = true → u.configOk = true

def HilRegs.Legal (u : HilRegs) : Prop := u.hist.length = 95 ∧ u.wpos.toNat < 95

def FmRegs.Legal (nOsc : Nat) (u : FmRegs) : Prop := u.inited = true → u.configOk nOsc = true

def DsbRegs.Legal (nOsc : Nat) (u : DsbRegs) : Prop := u.inited = true → u.configOk nOsc = true

def MuxRegs.Legal (nOsc nHil nDly : Nat) (u : MuxRegs) : Prop :=
  u.inited = true → u.configOk nOsc nHil nDly = true

def BsRegs.Legal (u : BsRegs) : Prop := u.inited = true → u.configOk = true

def AgcRegs.Legal (u : AgcRegs) : Prop :=
  u.inited = true → u.configOk = true ∧ u.attackC = agcCoef u.srate u.attackT
    ∧ u.releaseC = agcCoef u.srate u.releaseT ∧ u.rmsC = agcCoef u.srate u.rmsT

def AddRegs.Legal (nOsc : Nat) (u : AddRegs) : Prop := u.inited = true → u.configOk nOsc = true

def TiltRegs.Legal (u : TiltRegs) : Prop :=
  u.inited = true → u.configOk = true ∧ u.alpha = rcAlpha (fdiv one (fmul twoPi u.cutoff)) u.srate

def DlyRegs.Legal (cap : Nat) (u : DlyRegs) : Prop :=
  u.buf.length = cap ∧ u.wpos.toNat < cap ∧ u.rpos.toNat < cap ∧ u.delay.toNat < cap

/-- The invariant of the machine. DESIGN CHOICE: the counts have the ranges of R4's table, 1..16 for
`N_OSC` and 0..16 for every other; D15 says "each 1..16". Log 19. -/
structure State.Inv (s : State) : Prop where
  par : s.par.Legal
  /-- R4: 1 to 16 oscillators, 0 to 16 instances of every other unit. Log 19. -/
  osc_count : 1 ≤ s.osc.length
  counts : ∀ u, s.count u ≤ 16
  /-- Bits 0 and 31:6 of FAULT read 0 (R43). -/
  fault : s.fault &&& 0xFFFFFFC1#32 = 0
  osc : ∀ u ∈ s.osc, u.Legal
  pre : ∀ u ∈ s.pre, u.Legal
  flp : ∀ u ∈ s.flp, u.Legal s.par.firTaps id
  fhp : ∀ u ∈ s.fhp, u.Legal s.par.firTaps (invertKernel s.par.firTaps)
  bq : ∀ u ∈ s.bq, u.Legal
  hil : ∀ u ∈ s.hil, u.Legal
  fm : ∀ u ∈ s.fm, u.Legal s.osc.length
  dsb : ∀ u ∈ s.dsb, u.Legal s.osc.length
  mux : ∀ u ∈ s.mux, u.Legal s.osc.length s.hil.length s.dly.length
  bs : ∀ u ∈ s.bs, u.Legal
  agc : ∀ u ∈ s.agc, u.Legal
  add : ∀ u ∈ s.add, u.Legal s.osc.length
  tilt : ∀ u ∈ s.tilt, u.Legal
  dly : ∀ u ∈ s.dly, u.Legal s.par.dlyCap

/-! Phases (R48, R128, R144). -/

/-- The real value of `p` is in [0, `TWO_PI`). -/
def inPhaseRange (p : Word) : Bool := fge p zero && flt p twoPi

/-- The premise `OscRange` (R128): 0 ≤ PINC < `TWO_PI`. -/
def OscRange (o : OscRegs) : Prop := inPhaseRange o.pinc = true

/-! The gain range of the AGC (R59, R248). -/

/-- `x` is a NaN or its real value is in [lo, hi]. Outside `AgcRange` a NaN can appear (R249). -/
def inRangeOrNaN (x lo hi : Word) : Bool := isNaN x || (fle lo x && fle x hi)

/-- `x` is a NaN or its real value is at least 0. -/
def nonNegOrNaN (x : Word) : Bool := isNaN x || fge x zero

/-- Parts (a) to (c) of R248 with the NaN of R249 let in, and what they rest on: the coefficients are
in [0, 1] and the gain limits are in order. -/
def AgcRegs.Bounded (u : AgcRegs) : Prop :=
  u.inited = true →
    fle u.mingain u.maxgain = true ∧ coefOk u.attackC = true ∧ coefOk u.releaseC = true
      ∧ coefOk u.rmsC = true ∧ inRangeOrNaN u.gain u.mingain u.maxgain = true
      ∧ nonNegOrNaN u.rmsbuf = true ∧ nonNegOrNaN u.level = true

/-- The premise `AgcRange` on an operand (R248): |A| < 2^63. -/
def AgcRange (a : Word) : Bool := decide (mag a < 0x5F000000)

/-- Parts (a) to (c) of R248 under `AgcRange`, in a constructed AGC: a configuration that AGC.INIT
accepts, GAIN in range, RMSBUF in [0, 2^126] and LEVEL in [0, 2^63]. -/
def AgcRegs.Settled (u : AgcRegs) : Prop :=
  u.inited = true →
    (isFinite u.target = true ∧ isFinite u.mingain = true ∧ isFinite u.maxgain = true
        ∧ isFinite u.eps = true ∧ fgt u.eps zero = true ∧ fle u.mingain u.maxgain = true)
      ∧ (coefOk u.attackC = true ∧ coefOk u.releaseC = true ∧ coefOk u.rmsC = true)
      ∧ (fle u.mingain u.gain = true ∧ fle u.gain u.maxgain = true)
      ∧ (fge u.rmsbuf zero = true ∧ fle u.rmsbuf 0x7E800000#32 = true)
      ∧ fge u.level zero = true ∧ fle u.level 0x5F000000#32 = true

/-! Ownership (R61). -/

/-- The instances a command may change: the one it addresses, and those R61 lists, through a select
register. -/
def touches (i : Instr) (s : State) : List (UnitId × Nat) :=
  (i.unit, i.inst) ::
    match i with
    | .fmMod inst _ =>
      match s.fm[inst]? with
      | some u => if u.shared = 0 then [] else [(.osc, u.oscsel.toNat)]
      | none => []
    | .muxEnc inst adv _ _ =>
      match s.mux[inst]? with
      | some u =>
        (if adv then [(.osc, u.oscsel.toNat)] else []) ++
          (if u.mode.toNat = 2 then [(.hil, u.hilsel.toNat), (.dly, u.dlysel.toNat)] else [])
      | none => []
    | _ => []

/-- The commands that may write an oscillator's phase (R320). -/
def writesPhase : Instr → Bool
  | .oscInit _ _ _ | .oscAdv _ | .oscSin _ | .oscCos _ | .muxEnc _ true _ _ | .sysRst _ => true
  | _ => false

/-! The outcomes of one command, and of several. -/

/-- How an operation on an instance of `units` ends: `BAD_INSTANCE` with no such instance (R294),
`NOT_INIT` if it is not constructed (R296), and else in `done u`. -/
def Operates {α : Type} (units : List α) (inited : α → Bool) (inst : Nat) (i : Instr) (s : State)
    (done : α → State) : Prop :=
  (units[inst]? = none → exec i s = .next (s.raised .badInstance)) ∧
    ∀ u, units[inst]? = some u →
      (inited u = false → exec i s = .next (s.raised .notInit)) ∧
        (inited u = true → exec i s = .next (done u))

/-- How an INIT of an instance of `units` ends: `BAD_INSTANCE` with no such instance (R294),
`CONFIG_ERROR` if its checks `ok` fail (R297), and else in `done u`. -/
def Constructs {α : Type} (units : List α) (inst : Nat) (i : Instr) (s : State) (ok : α → Prop)
    (done : α → State) : Prop :=
  (units[inst]? = none → exec i s = .next (s.raised .badInstance)) ∧
    ∀ u, units[inst]? = some u →
      (¬ok u → exec i s = .next (s.raised .configError)) ∧ (ok u → exec i s = .next (done u))

/-- Commands in order, as long as each answers a next state. -/
def execAll : List Instr → State → Result
  | [], s => .next s
  | i :: is, s =>
    match exec i s with
    | .next t => execAll is t
    | .fault f => .fault f
    | .refused r => .refused r

/-- Every register holds its reset value: zero but for `SYS.ID`, `SYS.INITED` and the ROM (R63, R315). -/
def State.AtReset (s : State) : Prop :=
  ∀ u inst idx c v, s.reg u inst idx = some (c, v) →
    v = if u = .sys ∧ idx = 0x000 then 0x464D3935#32
      else if u = .sys ∧ idx = 0x0FF then 1
      else if c = .rom then elem s.par.hilCoef (idx - 0x400)
      else 0

end Sys2Proof.Machine
end

