-- ==== Sys2Proof/Certificates/Slice0/Obligations.lean ====
section
/-! DEFINITION. The statements for the provers. `s.completed r0 r1` is `s` with CMDCNT one higher and
the response (OK, r0, r1); `s.raised e` is `s` with FAULT bit e set, CMDCNT one higher and the
response (e, 0, 0): every field not named in an update is unchanged, so each result statement is
also the frame of its command. -/

open Sys2Proof Sys2Proof.Machine

/-! ## Encoding -/

/-- Decoding the packet of a well-formed command gives the command back, every operand at every value
(R101, R103, R105, R108). -/
def Obligations.DecodeEncode : Prop :=
  ∀ i : Instr, i.wf = true → decode (encode i) = .ok i

/-- A command that was decoded is well formed, its encoding has the command word it was decoded from,
and that word's UNIT and INST are its unit and instance (R101). -/
def Obligations.EncodeDecode : Prop :=
  ∀ p i, decode p = .ok i →
    i.wf = true ∧ (encode i).cmd = p.cmd ∧ bits p.cmd 31 28 = i.unit.num ∧
      bits p.cmd 23 20 = i.inst

/-- A word decodes exactly when it selects a row of the opcode table, and it selects at most one
(R107, R108). -/
def Obligations.DecodeMatchesOneRow : Prop :=
  ∀ p, ((∃ i, decode p = .ok i) ↔ ∃ r ∈ opcodeRows, p.cmd &&& r.mask = r.pattern) ∧
    ∀ r ∈ opcodeRows, ∀ r' ∈ opcodeRows,
      p.cmd &&& r.mask = r.pattern → p.cmd &&& r'.mask = r'.pattern → r = r'

/-- The opcode map of R103, row by row, whatever the operand words a format does not read hold (R104):
every pair of unit and function decodes to its command, and every other pair to none. -/
def Obligations.OpcodeMap : Prop :=
  (∀ inst < 16, ∀ a b : Word,
    let word (unit func idx flags : Nat) := decode ⟨commandWord unit func inst idx flags, a, b⟩
    (∀ u idx, idx < 4096 →
      word u.num 1 idx 0 = .ok (.rd u inst idx) ∧ word u.num 2 idx 0 = .ok (.wr u inst idx a)) ∧
      (∀ k < 256, word 1 6 k 0 = .ok (.oscSinh inst k) ∧ word 1 7 k 0 = .ok (.oscCosh inst k)) ∧
      (∀ adv : Bool, word 9 3 0 adv.toNat = .ok (.muxEnc inst adv a b)) ∧
      (∀ ch : Fin 8, word 12 4 ch 0 = .ok (.addIn inst ch a)) ∧
      word 0 0 0 0 = .ok (.sysRst inst) ∧ word 0 3 0 0 = .ok (.sysNop inst) ∧
      word 1 0 0 0 = .ok (.oscInit inst a b) ∧ word 1 3 0 0 = .ok (.oscSetf inst a) ∧
      word 1 4 0 0 = .ok (.oscSin inst) ∧ word 1 5 0 0 = .ok (.oscCos inst) ∧
      word 1 8 0 0 = .ok (.oscAdv inst) ∧ word 2 0 0 0 = .ok (.preInit inst) ∧
      word 2 3 0 0 = .ok (.preStep inst a) ∧ word 3 0 0 0 = .ok (.flpInit inst) ∧
      word 3 3 0 0 = .ok (.flpStep inst a) ∧ word 4 0 0 0 = .ok (.fhpInit inst) ∧
      word 4 3 0 0 = .ok (.fhpStep inst a) ∧ word 5 0 0 0 = .ok (.bqInit inst) ∧
      word 5 3 0 0 = .ok (.bqStep inst a) ∧ word 6 0 0 0 = .ok (.hilInit inst) ∧
      word 6 3 0 0 = .ok (.hilStep inst a) ∧ word 7 0 0 0 = .ok (.fmInit inst) ∧
      word 7 3 0 0 = .ok (.fmMod inst a) ∧ word 8 0 0 0 = .ok (.dsbInit inst) ∧
      word 8 3 0 0 = .ok (.dsbEnc inst a) ∧ word 9 0 0 0 = .ok (.muxInit inst) ∧
      word 10 0 0 0 = .ok (.bsInit inst) ∧ word 10 3 0 0 = .ok (.bsMeas inst a) ∧
      word 10 4 0 0 = .ok (.bsD2dbr inst a) ∧ word 10 5 0 0 = .ok (.bsDbr2d inst a) ∧
      word 10 6 0 0 = .ok (.bsRatio inst a) ∧ word 11 0 0 0 = .ok (.agcInit inst) ∧
      word 11 3 0 0 = .ok (.agcProc inst a) ∧ word 12 0 0 0 = .ok (.addInit inst) ∧
      word 12 3 0 0 = .ok (.addClr inst) ∧ word 12 5 0 0 = .ok (.addOut inst) ∧
      word 13 0 0 0 = .ok (.tiltInit inst) ∧ word 13 3 0 0 = .ok (.tiltStep inst a) ∧
      word 14 0 0 0 = .ok (.dlyInit inst) ∧ word 14 3 0 0 = .ok (.dlySetd inst a) ∧
      word 14 4 0 0 = .ok (.dlyPushpop inst a)) ∧
    ∀ p : Packet,
      [4, 9, 4, 4, 4, 4, 4, 4, 4, 4, 7, 4, 6, 4, 5, 0].getD (bits p.cmd 31 28) 0 ≤ bits p.cmd 27 24 →
        ∀ i, decode p ≠ .ok i

/-- Words written out from the encoding of R101 and the vectors V1 to V5i decode as the spec says. That
a packet is given as one number, with A in bits 63:32, and that a word not given is 0, is the model's
choice (log 14). -/
def Obligations.DecodeWords : Prop :=
  decodeTableWord 32 0x00000000 = some (.sysRst 0) ∧
    decodeTableWord 32 0x16000200 = some (.oscSinh 0 2) ∧
    decodeTableWord 32 0x1730FF00 = some (.oscCosh 3 255) ∧
    decodeTableWord 32 0x93000001 = some (.muxEnc 0 true 0 0) ∧
    decodeTableWord 64 0x3F800000C4000700 = some (.addIn 0 7 0x3F800000#32) ∧
    decodeTableWord 32 0x31044000 = some (.flpRd 0 0x440) ∧
    decodeTableWord 32 0x23700000 = some (.preStep 7 0) ∧
    decodeTableWord 32 0x23000300 = none ∧ decodeTableWord 32 0xF0000000 = none ∧
    decodeTableWord 32 0x19000000 = none ∧ decodeTableWord 32 0x93000002 = none ∧
    decodeTableWord 32 0x16010200 = none ∧ decodeTableWord 32 0xC4000800 = none ∧
    decodeTableWord 32 0x04000000 = none

/-! ## The step -/

/-- A step with a packet presented that decodes runs the decoded command, on the state with that
packet taken from the input (R40, R88, R293). That what the host presents stands in the field `input`,
one event a step, is the model's choice (log 7). -/
def Obligations.StepRunsDecoded : Prop :=
  ∀ s p rest i, s.input = .command p :: rest → decode p = .ok i →
    i.wf = true ∧ step s = exec i { s with input := rest }

/-- A step with a packet presented whose command word selects no row of the opcode table ends with
`ILLEGAL_CMD` (R293), the whole effect of `raise` (R292). That what the host presents stands in the
field `input`, one event a step, is the model's choice (log 7). -/
def Obligations.StepIllegal : Prop :=
  ∀ (s : State) (p : Packet) (rest : List HostEvent), s.input = .command p :: rest →
    (∀ r ∈ opcodeRows, p.cmd &&& r.mask ≠ r.pattern) →
    step s = .next
      { s with
        input := rest
        fault := s.fault ||| 2#32
        cmdcnt := s.cmdcnt + 1
        rsp := some ⟨.illegalCmd, 0, 0⟩ }

/-- With nothing presented a step changes nothing (R303); with `rst` high it answers a next state with
no response (R315). That idling and `rst` are steps, and that `rst` clears the field of the last
response, is the model's choice (log 7, log 9). -/
def Obligations.StepIdle : Prop :=
  (∀ s, s.input = [] → step s = .next s) ∧
    ∀ s rest, s.input = .rst :: rest → ∃ t, step s = .next t ∧ t.rsp = none ∧ t.input = rest

/-! ## Errors, counters, the common checks -/

/-- Every command that answers a next state gives a response; if its code is an error, the FAULT bit
of the code, CMDCNT and the response with zero results are all that changed (R106, R290, R292). -/
def Obligations.ErrorChangesNothing : Prop :=
  ∀ i s t, exec i s = .next t →
    ∃ r, t.rsp = some r ∧
      (r.err ≠ .ok →
        t = { s with
              fault := s.fault ||| 1#32 <<< r.err.code
              cmdcnt := s.cmdcnt + 1
              rsp := some ⟨r.err, 0, 0⟩ })

/-- Every command the block receives other than `SYS.RST`, illegal ones and failed ones too, raises
CMDCNT by 1 modulo 2^32; a completed `SYS.RST` sets it to 0 (R42, R309). -/
def Obligations.CountsCommands : Prop :=
  ∀ s t p rest, s.input = .command p :: rest → step s = .next t →
    ((∀ n, decode p ≠ .ok (.sysRst n)) → t.cmdcnt = s.cmdcnt + 1) ∧
      (decode p = .ok (.sysRst 0) → t.cmdcnt = 0)

/-- FAULT bits are sticky and a command sets at most the one of its own code: after a command other
than `SYS.RST`, FAULT is what it was, with bit e set if the response's code is e in 1..5 (R43, R298). -/
def Obligations.FaultSticky : Prop :=
  ∀ s t p rest, s.input = .command p :: rest → step s = .next t →
    (∀ n, decode p ≠ .ok (.sysRst n)) →
    ∃ r, t.rsp = some r ∧
      t.fault = if r.err = .ok then s.fault else s.fault ||| 1#32 <<< r.err.code

/-- Any command whose INST is at or above its unit's instance count ends with `BAD_INSTANCE`, whatever
else is wrong with it (R294, R298). -/
def Obligations.BadInstance : Prop :=
  ∀ i s, s.count i.unit ≤ i.inst → exec i s = .next (s.raised .badInstance)

/-- Any operation on an instance whose INITED register reads 0 ends with `NOT_INIT` (R296). -/
def Obligations.NotInit : Prop :=
  ∀ i s, i.sort = .operation → s.reg i.unit i.inst 0x0FF = some (.ro, 0) →
    exec i s = .next (s.raised .notInit)

/-- `U.RD` for each of the fifteen units (SYS.RD, OSC.RD, PRE.RD, FLP.RD, FHP.RD, BQ.RD, HIL.RD, FM.RD,
DSB.RD, MUX.RD, BS.RD, AGC.RD, ADD.RD, TILT.RD, DLY.RD): R0 is the word at the mapped address and no
register changes but CMDCNT (R82, R277). -/
def Obligations.ReadCommand : Prop :=
  ∀ (s : State) (u : UnitId) (inst idx : Nat) (c : RegClass) (v : Word),
    s.reg u inst idx = some (c, v) →
      exec (.rd u inst idx) s =
        .next { s with cmdcnt := s.cmdcnt + 1, rsp := some ⟨.ok, v, 0⟩ }

/-- `U.WR` to a register of class CFG (PRE.WR, FLP.WR, FHP.WR, BQ.WR, FM.WR, DSB.WR, MUX.WR, BS.WR,
AGC.WR, ADD.WR, TILT.WR): the register takes all 32 bits, the instance's INITED reads 0, and every
other register of every unit, FAULT, the parameters and the input are as before (R82, R278). -/
def Obligations.WriteConfig : Prop :=
  ∀ s u inst idx a v, s.reg u inst idx = some (.cfg, v) →
    ∃ t, exec (.wr u inst idx a) s = .next t ∧
      t.reg u inst idx = some (.cfg, a) ∧ t.reg u inst 0x0FF = some (.ro, 0) ∧
      (∀ idx', idx' ≠ idx → idx' ≠ 0x0FF → t.reg u inst idx' = s.reg u inst idx') ∧
      (∀ u' inst' idx', u' ≠ .sys → (u', inst') ≠ (u, inst) →
        t.reg u' inst' idx' = s.reg u' inst' idx') ∧
      t.fault = s.fault ∧ t.cmdcnt = s.cmdcnt + 1 ∧ t.rsp = some ⟨.ok, 0, 0⟩ ∧
      t.par = s.par ∧ t.input = s.input

/-- Of an instance that exists, `U.RD` and `U.WR` of an unmapped index, and `U.WR` of a register that is
not of class CFG, end with `BAD_INDEX` (R295). SYS, OSC, HIL and DLY have no CFG register, so SYS.WR,
OSC.WR, HIL.WR and DLY.WR, whatever their operands, have this as their whole effect (R278). -/
def Obligations.BadIndex : Prop :=
  ∀ (s : State) (u : UnitId) (inst idx : Nat) (a : Word), inst < s.count u →
    (s.reg u inst idx = none →
      exec (.rd u inst idx) s = .next (s.raised .badIndex) ∧
        exec (.wr u inst idx a) s = .next (s.raised .badIndex)) ∧
    (∀ c v, s.reg u inst idx = some (c, v) → c ≠ .cfg →
      exec (.wr u inst idx a) s = .next (s.raised .badIndex)) ∧
    (u = .sys ∨ u = .osc ∨ u = .hil ∨ u = .dly →
      exec (.wr u inst idx a) s = .next (s.raised .badIndex))

/-- Indices 0x100..0x3FF and 0xC00..0xFFF are mapped in no unit (R80). -/
def Obligations.NeverMapped : Prop :=
  ∀ (s : State) u inst idx, s.Inv → (0x100 ≤ idx ∧ idx ≤ 0x3FF) ∨ (0xC00 ≤ idx ∧ idx ≤ 0xFFF) →
    s.reg u inst idx = none

/-! ## Rules about the whole machine -/

/-- What the access classes of R44 promise, for every command but `SYS.RST`: only a WR of that
instance changes a CFG register, only an INIT of that instance changes a DRV register, and nothing,
`SYS.RST` included, changes a ROM register. -/
def Obligations.AccessClasses : Prop :=
  ∀ i s t u inst idx v, exec i s = .next t →
    (s.reg u inst idx = some (.rom, v) → t.reg u inst idx = some (.rom, v)) ∧
    ((∀ n, i ≠ .sysRst n) →
      (s.reg u inst idx = some (.cfg, v) → ¬(i.sort = .write ∧ i.unit = u ∧ i.inst = inst) →
        t.reg u inst idx = some (.cfg, v)) ∧
      (s.reg u inst idx = some (.drv, v) → ¬(i.sort = .init ∧ i.unit = u ∧ i.inst = inst) →
        t.reg u inst idx = some (.drv, v)))

/-- A command other than `SYS.RST` changes registers of the instance it addresses only, but for the
exceptions through a select register: the oscillator of a shared-mode FM.MOD and of a MUX.ENC with
ADV, the HIL and DLY of a MUX.ENC in SSB mode (R61). -/
def Obligations.Ownership : Prop :=
  ∀ i s t u inst idx, exec i s = .next t → (∀ n, i ≠ .sysRst n) → u ≠ .sys →
    (u, inst) ∉ touches i s → t.reg u inst idx = s.reg u inst idx

/-- No command other than OSC.ADV, OSC.SIN, OSC.COS, OSC.INIT, MUX.ENC with ADV and SYS.RST writes an
oscillator's PHASE (R320). -/
def Obligations.PhaseWriters : Prop :=
  ∀ i s t inst, exec i s = .next t → writesPhase i = false →
    t.reg .osc inst 0x020 = s.reg .osc inst 0x020

/-- In `State.reset`, after `SYS.RST` and after `rst` every register holds its reset value (R63).
`SYS.RST`, the word 0x00000000, answers OK and counts nothing (R275); `rst` has the same effect on the
registers (R315). Neither unmaps a register: from a good state, an address has a register after the
reset exactly when it had one, of the same class. That the parameters and the counts stand in State,
unchanged, is the model's choice (log 1), and so is that `rst` is an event of the field `input`
(log 7). -/
def Obligations.ResetValues : Prop :=
  let cls (s : State) u inst idx : Option RegClass := (s.reg u inst idx).map Prod.fst
  State.reset.AtReset ∧ State.reset.fault = 0 ∧ State.reset.cmdcnt = 0 ∧
    (∀ a b, decode ⟨0x00000000#32, a, b⟩ = .ok (.sysRst 0)) ∧
    (∀ s, ∃ t, exec (.sysRst 0) s = .next t ∧ t.AtReset ∧ t.fault = 0 ∧ t.cmdcnt = 0 ∧
      t.rsp = some ⟨.ok, 0, 0⟩ ∧ t.par = s.par ∧ t.input = s.input ∧
      (∀ u, t.count u = s.count u) ∧ (s.Inv → ∀ u inst idx, cls t u inst idx = cls s u inst idx)) ∧
    ∀ s rest, s.input = .rst :: rest →
      ∃ t, step s = .next t ∧ t.AtReset ∧ t.fault = 0 ∧ t.cmdcnt = 0 ∧ t.par = s.par ∧
        t.input = rest ∧ (∀ u, t.count u = s.count u) ∧
        (s.Inv → ∀ u inst idx, cls t u inst idx = cls s u inst idx)

/-- `SYS.NOP`, the word 0x03000000, changes nothing but CMDCNT and the response (R276); any other
instance of SYS is a `BAD_INSTANCE`. -/
def Obligations.SysNop : Prop :=
  (∀ a b, decode ⟨0x03000000#32, a, b⟩ = .ok (.sysNop 0)) ∧
    ∀ s, exec (.sysNop 0) s = .next { s with cmdcnt := s.cmdcnt + 1, rsp := some ⟨.ok, 0, 0⟩ } ∧
      ∀ inst, 1 ≤ inst → exec (.sysNop inst) s = .next (s.raised .badInstance)

/-- The machine right after reset meets the invariant. Its parameters are the model's choice: the
defaults (log 2), and any ROM that R190 allows (log 5). -/
def Obligations.ResetInv : Prop := State.reset.Inv

/-- Every step keeps the invariant: parameters legal, FAULT bits 0 and 31:6 clear, arrays of their
length, cursors in range, and every constructed instance with a configuration its INIT accepts and
the derived registers INIT computed from it (R43, R44, R171, R296). Every step leaves the parameters
and the instance counts as they are (R45; that they stand in State is the model's choice, log 1, and
so is that a count other than the oscillators' may be 0, log 19). -/
def Obligations.StepKeepsInv : Prop :=
  ∀ s t, s.Inv → step s = .next t → t.Inv ∧ t.par = s.par ∧ ∀ u, t.count u = s.count u

/-- From a state that meets the invariant a step always answers a next state: the block does not
stop, halt or enter an error state (R290). The model has three faults, for states the invariant rules
out (log 12). -/
def Obligations.NeverStops : Prop :=
  ∀ s, s.Inv → ∃ t, step s = .next t

/-! ## Arithmetic -/

/-- On finite operands `fadd`, `fsub`, `fmul`, `fdiv` and `fsqrt` round the exact real result `x` (R7);
values are in units of 2^-149. Below 2^277 - 2^252, halfway from the greatest finite value to the next
power of two, the result is finite and nearest to `x`, and a tie goes to the even word; from there on
it is an infinity. Its sign is that of `x`; an exact 0 has the sign IEEE 754 gives it: - for a sum of
two -0, the exclusive or of the signs for a product or quotient, the operand's for a root. -/
def Obligations.ArithmeticNearest : Prop :=
  ∀ a b : Word, isFinite a = true → isFinite b = true →
    let rounded (r : Word) (x : ℝ) (zeroNeg : Bool) : Prop :=
      (|x| < 2 ^ 277 - 2 ^ 252 →
        isFinite r = true ∧ ∀ w, isFinite w = true →
          |(units r : ℝ) - x| ≤ |(units w : ℝ) - x| ∧
            (units w ≠ units r → |(units r : ℝ) - x| = |(units w : ℝ) - x| → mag r % 2 = 0)) ∧
      (2 ^ 277 - 2 ^ 252 ≤ |x| → isInf r = true) ∧
      (x < 0 → isNeg r = true) ∧ (0 < x → isNeg r = false) ∧ (x = 0 → isNeg r = zeroNeg)
    rounded (fadd a b) ((units a : ℝ) + units b) (isNeg a && isNeg b) ∧
      rounded (fsub a b) ((units a : ℝ) - units b) (isNeg a && !isNeg b) ∧
      rounded (fmul a b) ((units a : ℝ) * units b / 2 ^ 149) (isNeg a != isNeg b) ∧
      (mag b ≠ 0 →
        rounded (fdiv a b) ((units a : ℝ) * 2 ^ 149 / units b) (isNeg a != isNeg b)) ∧
      (0 ≤ units a → rounded (fsqrt a) (Real.sqrt ((units a : ℝ) * 2 ^ 149)) (isNeg a))

/-- The IEEE 754 rules for NaNs, infinities and zeros (R7): a NaN operand gives a NaN; inf - inf,
0 * inf, 0 / 0, inf / inf and the root of a negative value give a NaN; x / 0 gives a signed infinity;
x / inf a signed zero; x - x gives +0; the root of a zero is that zero. -/
def Obligations.ArithmeticSpecial : Prop :=
  (∀ a b, isNaN a = true ∨ isNaN b = true →
      isNaN (fadd a b) = true ∧ isNaN (fsub a b) = true ∧ isNaN (fmul a b) = true ∧
        isNaN (fdiv a b) = true) ∧
    (∀ a b, isInf a = true → isInf b = true →
      isNaN (fdiv a b) = true ∧ (isNeg a = isNeg b → isNaN (fsub a b) = true ∧ fadd a b = a)) ∧
    (∀ a b, isInf a = true → isFinite b = true →
      fadd a b = a ∧ fadd b a = a ∧ fdiv b a = pack (isNeg b != isNeg a) 0 ∧
        (if mag b = 0 then isNaN (fmul a b) = true
        else fmul a b = pack (isNeg a != isNeg b) infMag)) ∧
    (∀ a b, isFinite a = true → mag b = 0 →
      if mag a = 0 then isNaN (fdiv a b) = true else fdiv a b = pack (isNeg a != isNeg b) infMag) ∧
    (∀ a, isFinite a = true → fsub a a = zero) ∧
    ∀ a, (isNaN a = true ∨ units a < 0 → isNaN (fsqrt a) = true) ∧ (mag a = 0 → fsqrt a = a)

/-- A harmonic read is coherent: of a finite phase the argument of harmonic 1 is the phase word
itself and that of harmonic 2 is exactly twice its value, so OSC.SINH with k = 1 and k = 2 at one
phase return the sines of the two (R126, R131, R321). -/
def Obligations.HarmonicCoherence : Prop :=
  ∀ s inst o, s.osc[inst]? = some o → o.inited = true → isFinite o.phase = true →
    exec (.oscSinh inst 1) s = .next (s.completed (Config.fsin o.phase) 0) ∧
      (mag o.phase < 0x7F000000 →
        units (fmul o.phase two) = 2 * units o.phase ∧
          exec (.oscSinh inst 2) s = .next (s.completed (Config.fsin (fmul o.phase two)) 0))

/-- `u2f` is exact below 2^24 (R11). -/
def Obligations.U2fExact : Prop :=
  ∀ n, n < 2 ^ 24 → units (u2f n) = n * 2 ^ 149

/-- `wrap2pi` (R14): of a value that is not finite a NaN; of a finite p the word `r` of the exact
remainder of p by `TWO_PI`, with the sign of p, plus one `TWO_PI` if that is negative, with `TWO_PI`
and -0 turned into +0; the result is in [0, `TWO_PI`) and never -0. -/
def Obligations.WrapRange : Prop :=
  ∀ p, (isFinite p = false → isNaN (wrap2pi p) = true) ∧
    (isFinite p = true →
      inPhaseRange (wrap2pi p) = true ∧ isNeg (wrap2pi p) = false ∧
        ∃ r, isFinite r = true ∧ units r = (units p).tmod (units twoPi) ∧
          let q := if units r < 0 then fadd r twoPi else r
          wrap2pi p = if fge q twoPi = true ∨ mag q = 0 then zero else q)

/-! ## OSC -/

/-- `OSC.INIT` (R121): PHASE +0, SRATE = B, PINC = (TWO_PI * A) / B, INITED; `CONFIG_ERROR` unless B is
finite and positive and A finite. `OSC.SETF` (R122): only PINC changes, to (TWO_PI * A) / SRATE. -/
def Obligations.OscFrequency : Prop :=
  ∀ s inst a b,
    Constructs s.osc inst (.oscInit inst a b) s
      (fun _ => isFinite b = true ∧ fgt b zero = true ∧ isFinite a = true)
      (fun _ => ({ s with
        osc := s.osc.set inst
          { phase := zero, pinc := fdiv (fmul twoPi a) b, srate := b, inited := true } }).completed
            0 0) ∧
    Operates s.osc OscRegs.inited inst (.oscSetf inst a) s
      fun o => ({ s with
        osc := s.osc.set inst { o with pinc := fdiv (fmul twoPi a) o.srate } }).completed 0 0

/-- `OSC.ADV`, `OSC.SIN`, `OSC.COS` (R120, R123 to R125): PHASE becomes PHASE + PINC, less `TWO_PI` if
that is at least `TWO_PI`; the result of SIN and COS is of the phase before. -/
def Obligations.OscAdvance : Prop :=
  ∀ s inst,
    let advanced (o : OscRegs) : State :=
      { s with
        osc := s.osc.set inst
          { o with
            phase :=
              if fge (fadd o.phase o.pinc) twoPi then fsub (fadd o.phase o.pinc) twoPi
              else fadd o.phase o.pinc } }
    Operates s.osc OscRegs.inited inst (.oscAdv inst) s (fun o => (advanced o).completed 0 0) ∧
      Operates s.osc OscRegs.inited inst (.oscSin inst) s
        (fun o => (advanced o).completed (Config.fsin o.phase) 0) ∧
      Operates s.osc OscRegs.inited inst (.oscCos inst) s
        (fun o => (advanced o).completed (Config.fcos o.phase) 0)

/-- `OSC.SINH`, `OSC.COSH` (R126, R127): R0 is the sine or cosine of PHASE * k; no register is
written. -/
def Obligations.OscHarmonic : Prop :=
  ∀ s inst k,
    Operates s.osc OscRegs.inited inst (.oscSinh inst k) s
        (fun o => s.completed (Config.fsin (fmul o.phase (u2f k))) 0) ∧
      Operates s.osc OscRegs.inited inst (.oscCosh inst k) s
        (fun o => s.completed (Config.fcos (fmul o.phase (u2f k))) 0)

/-- An oscillator with 0 ≤ PINC < `TWO_PI` and its PHASE in [0, `TWO_PI`) has its PHASE in that range
after any command, and a change of frequency changes no PHASE (R48). -/
def Obligations.PhaseInRange : Prop :=
  ∀ s t : State,
    (∀ (i : Instr) (n : Nat) (o o' : OscRegs), exec i s = .next t →
      s.osc[n]? = some o → OscRange o → inPhaseRange o.phase = true →
        t.osc[n]? = some o' → inPhaseRange o'.phase = true) ∧
    ∀ inst a, exec (.oscSetf inst a) s = .next t →
      ∀ n, t.reg .osc n 0x020 = s.reg .osc n 0x020

/-- The exactness of the wrap (R129): in range the sum is below twice `TWO_PI`; where it is at least
`TWO_PI` the subtraction is exact, so that the addition is the only rounding; the new PHASE is in
range. -/
def Obligations.WrapExact : Prop :=
  ∀ o, OscRange o → inPhaseRange o.phase = true →
    let p := fadd o.phase o.pinc
    isFinite p = true ∧ units p < 2 * units twoPi ∧
      (fge p twoPi = true → units (fsub p twoPi) = units p - units twoPi) ∧
      inPhaseRange (if fge p twoPi then fsub p twoPi else p) = true

/-! ## FM -/

/-- `FM.INIT` (R140) and `FM.MOD` (R141, R142). Owned mode: the phase advances by 2pi * f_inst / SRATE,
wrapped, and R0 is its sine. Shared mode: the shared oscillator's PINC is set, its phase is not
advanced, and R0 is the phase's sine; `NOT_INIT` if that oscillator is not constructed. -/
def Obligations.FmModulator : Prop :=
  ∀ s inst,
    Constructs s.fm inst (.fmInit inst) s
      (fun u => (u.shared = 0 ∨ u.shared = 1) ∧ isFinite u.center = true ∧
        isFinite u.deviation = true ∧
        (u.shared = 0 → isFinite u.srate = true ∧ fgt u.srate zero = true) ∧
        (u.shared = 1 → u.oscsel.toNat < s.osc.length))
      (fun u => ({ s with
        fm := s.fm.set inst { u with phase := zero, inited := true } }).completed 0 0) ∧
    ∀ a,
      (s.fm[inst]? = none → exec (.fmMod inst a) s = .next (s.raised .badInstance)) ∧
      ∀ u, s.fm[inst]? = some u →
        let f := fadd u.center (fmul a u.deviation)
        let p := wrap2pi (fadd u.phase (fdiv (fmul twoPi f) u.srate))
        (u.inited = false → exec (.fmMod inst a) s = .next (s.raised .notInit)) ∧
        (u.inited = true → u.shared = 0 →
          exec (.fmMod inst a) s =
            .next (({ s with fm := s.fm.set inst { u with phase := p } }).completed
              (Config.fsin p) 0)) ∧
        (u.inited = true → u.shared ≠ 0 → ∀ o, s.osc[u.oscsel.toNat]? = some o →
          (o.inited = false → exec (.fmMod inst a) s = .next (s.raised .notInit)) ∧
          (o.inited = true →
            exec (.fmMod inst a) s =
              .next (({ s with
                osc := s.osc.set u.oscsel.toNat
                  { o with pinc := fdiv (fmul twoPi f) o.srate } }).completed
                  (Config.fsin o.phase) 0)))

/-- The phase of a constructed FM in owned mode is in [0, `TWO_PI`), or a NaN once an operand or an
overflow made it one, and every command keeps that (R144). -/
def Obligations.FmPhaseInRange : Prop :=
  let ok (u : FmRegs) : Prop :=
    u.inited = true → u.shared = 0 → inPhaseRange u.phase = true ∨ isNaN u.phase = true
  ∀ i s t, (∀ u ∈ s.fm, ok u) → exec i s = .next t → ∀ u ∈ t.fm, ok u

/-! ## PRE and TILT -/

/-- `PRE.INIT` and `PRE.STEP` (R150, R151). -/
def Obligations.PreEmphasis : Prop :=
  ∀ s inst,
    (let alpha (u : PreRegs) := fdiv u.tau (fadd u.tau (fdiv one u.srate))
    let m2 (u : PreRegs) :=
      fadd (fsub one (fmul (fmul two (alpha u))
        (Config.fcos (fdiv (fmul twoPi u.reffreq) u.srate)))) (fmul (alpha u) (alpha u))
    let gain (u : PreRegs) := fdiv one (fsqrt (m2 u))
    Constructs s.pre inst (.preInit inst) s
      (fun u => (isFinite u.srate = true ∧ fgt u.srate zero = true) ∧
        (isFinite u.tau = true ∧ fge u.tau zero = true) ∧
        (isFinite u.reffreq = true ∧ fge u.reffreq zero = true) ∧ isFinite (gain u) = true)
      fun u => ({ s with
        pre := s.pre.set inst
          { u with alpha := alpha u, gain := gain u, xprev := zero, inited := true } }).completed 0 0) ∧
    ∀ a, Operates s.pre PreRegs.inited inst (.preStep inst a) s
      fun u => ({ s with pre := s.pre.set inst { u with xprev := a } }).completed
        (fmul (fsub a (fmul u.alpha u.xprev)) u.gain) 0

/-- `TILT.INIT` and `TILT.STEP` (R155, R156). -/
def Obligations.Tilt : Prop :=
  ∀ s inst,
    (Constructs s.tilt inst (.tiltInit inst) s
      (fun u => (isFinite u.srate = true ∧ fgt u.srate zero = true) ∧
        isFinite u.cutoff = true ∧ fgt u.cutoff zero = true)
      fun u =>
        let tau := fdiv one (fmul twoPi u.cutoff)
        ({ s with
          tilt := s.tilt.set inst
            { u with
              alpha := fdiv tau (fadd tau (fdiv one u.srate))
              xprev := zero
              yprev := zero
              inited := true } }).completed 0 0) ∧
    ∀ a, Operates s.tilt TiltRegs.inited inst (.tiltStep inst a) s
      fun u =>
        let y := fadd (fmul u.alpha u.yprev) (fsub a u.xprev)
        ({ s with tilt := s.tilt.set inst { u with xprev := a, yprev := y } }).completed y 0

/-! ## FLP and FHP -/

/-- `FLP.INIT` and `FHP.INIT` (R165 to R167), the windowed sinc written out: the kernel is `g[i]`
divided by the sum of all `g[i]` in index order; FHP negates it and adds 1.0 at the centre tap;
history and cursor are zero. -/
def Obligations.FirInit : Prop :=
  ∀ s inst,
    let n := s.par.firTaps
    let c : Nat := (n - 1) / 2
    let g (u : FirRegs) (i : Nat) : Word :=
      let fc := fdiv u.cutoff u.srate
      let m : Int := (i : Int) - (c : Int)
      let t := fdiv (u2f i) (u2f (n - 1))
      fmul
        (if m = 0 then fmul two fc
          else fdiv (Config.fsin (fmul (fmul twoPi fc) (i2f m))) (fmul pi (i2f m)))
        (fadd (fsub c042 (fmul half (Config.fcos (fmul twoPi t))))
          (fmul c008 (Config.fcos (fmul (fmul two twoPi) t))))
    let sum (u : FirRegs) : Word := (List.range n).foldl (fun acc i => fadd acc (g u i)) zero
    let ok (u : FirRegs) : Prop :=
      (isFinite u.srate = true ∧ fgt u.srate zero = true) ∧
        (isFinite u.cutoff = true ∧ fgt u.cutoff zero = true ∧
          flt (fmul two u.cutoff) u.srate = true) ∧
        isFinite (sum u) = true ∧ feq (sum u) zero = false
    let low (u : FirRegs) : List Word := (List.range n).map fun i => fdiv (g u i) (sum u)
    let high (u : FirRegs) : List Word :=
      ((low u).map fneg).set c (fadd (((low u).map fneg).getD c 0) one)
    Constructs s.flp inst (.flpInit inst) s ok
        (fun u => ({ s with
          flp := s.flp.set inst
            { u with
              coef := low u, hist := List.replicate n zero, wpos := 0, inited := true }
          }).completed 0 0) ∧
      Constructs s.fhp inst (.fhpInit inst) s ok
        (fun u => ({ s with
          fhp := s.fhp.set inst
            { u with
              coef := high u, hist := List.replicate n zero, wpos := 0, inited := true }
          }).completed 0 0)

/-- `FLP.STEP` and `FHP.STEP` (R168, R169): the sample is stored at the cursor, the cursor moves on
by one modulo N, and R0 is the sum of COEF[k] * HIST[(WPOS - k) mod N] from k = 0 up. -/
def Obligations.FirStep : Prop :=
  ∀ s inst a,
    let n := s.par.firTaps
    let hist (u : FirRegs) := u.hist.set u.wpos.toNat a
    let acc (u : FirRegs) : Word :=
      (List.range n).foldl
        (fun acc k => fadd acc (fmul (u.coef.getD k 0)
          ((hist u).getD (((u.wpos.toNat : Int) - k) % n).toNat 0))) zero
    let next (u : FirRegs) : FirRegs :=
      { u with hist := hist u, wpos := BitVec.ofNat 32 ((u.wpos.toNat + 1) % n) }
    Operates s.flp FirRegs.inited inst (.flpStep inst a) s
        (fun u => ({ s with flp := s.flp.set inst (next u) }).completed (acc u) 0) ∧
      Operates s.fhp FirRegs.inited inst (.fhpStep inst a) s
        (fun u => ({ s with fhp := s.fhp.set inst (next u) }).completed (acc u) 0)

/-- The FIR filters convolve: from the zero history and cursor an INIT leaves, after the samples `xs`
the last response is the sum of COEF[k] * x[n - k] from k = 0 up, with +0 for the samples before
construction (R166 to R169). -/
def Obligations.FirConvolution : Prop :=
  ∀ (s : State) (inst : Nat) (xs : List Word), 0 < s.par.firTaps → s.par.firTaps ≤ 1023 → xs ≠ [] →
    let fresh (u : FirRegs) : Prop :=
      u.inited = true ∧ u.hist = List.replicate s.par.firTaps zero ∧ u.wpos = 0
    let out (coef : List Word) : Word :=
      (List.range s.par.firTaps).foldl
        (fun acc k => fadd acc (fmul (coef.getD k 0)
          (if k < xs.length then xs.getD (xs.length - 1 - k) 0 else zero))) zero
    (∀ u, s.flp[inst]? = some u → fresh u →
      ∃ t, execAll (xs.map (.flpStep inst)) s = .next t ∧ t.rsp = some ⟨.ok, out u.coef, 0⟩) ∧
    ∀ u, s.fhp[inst]? = some u → fresh u →
      ∃ t, execAll (xs.map (.fhpStep inst)) s = .next t ∧ t.rsp = some ⟨.ok, out u.coef, 0⟩

/-! ## BQ, HIL, DLY -/

/-- `BQ.INIT` and `BQ.STEP` (R180, R181). -/
def Obligations.Biquad : Prop :=
  ∀ s inst,
    Constructs s.bq inst (.bqInit inst) s
      (fun u => isFinite u.b0 = true ∧ isFinite u.b1 = true ∧ isFinite u.b2 = true ∧
        isFinite u.a1 = true ∧ isFinite u.a2 = true)
      (fun u => ({ s with
        bq := s.bq.set inst
          { u with x1 := zero, x2 := zero, y1 := zero, y2 := zero, inited := true } }).completed 0 0) ∧
    ∀ a, Operates s.bq BqRegs.inited inst (.bqStep inst a) s
      fun u =>
        let y := fsub (fsub (fadd (fadd (fmul u.b0 a) (fmul u.b1 u.x1)) (fmul u.b2 u.x2))
          (fmul u.a1 u.y1)) (fmul u.a2 u.y2)
        ({ s with
          bq := s.bq.set inst { u with x2 := u.x1, x1 := a, y2 := u.y1, y1 := y } }).completed y 0

/-- `HIL.INIT` and `HIL.STEP` (R191, R192): R0 is the history word 47 samples back, R1 the dot product
with the ROM. -/
def Obligations.Hilbert : Prop :=
  ∀ s inst,
    Constructs s.hil inst (.hilInit inst) s (fun _ => True)
      (fun _ => ({ s with
        hil := s.hil.set inst
          { wpos := 0, hist := List.replicate 95 zero, inited := true } }).completed 0 0) ∧
    ∀ a, Operates s.hil HilRegs.inited inst (.hilStep inst a) s
      fun u =>
        let hist := u.hist.set u.wpos.toNat a
        let at' (k : Nat) : Word := hist.getD (((u.wpos.toNat : Int) - k) % 95).toNat 0
        let q := (List.range 95).foldl
          (fun q k => fadd q (fmul (s.par.hilCoef.getD k 0) (at' k))) zero
        ({ s with
          hil := s.hil.set inst
            { u with hist := hist, wpos := BitVec.ofNat 32 ((u.wpos.toNat + 1) % 95) }
          }).completed (at' 47) q

/-- The Hilbert pair is aligned: after HIL.INIT and the samples `xs`, the last response is
(x[n - 47], the sum of HIL_COEF[k] * x[n - k]), with +0 for the samples before construction (R193). -/
def Obligations.HilbertAlignment : Prop :=
  ∀ (s : State) (inst : Nat) (xs : List Word), inst < s.hil.length → xs ≠ [] →
    let x (k : Nat) : Word := if k < xs.length then xs.getD (xs.length - 1 - k) 0 else zero
    ∃ t, execAll (.hilInit inst :: xs.map (.hilStep inst)) s = .next t ∧
      t.rsp = some ⟨.ok, x 47,
        (List.range 95).foldl (fun q k => fadd q (fmul (s.par.hilCoef.getD k 0) (x k))) zero⟩

/-- `DLY.INIT`, `DLY.SETD` and `DLY.PUSHPOP` (R196 to R198): the operand of SETD is signed and clamped
into 0..C-1; PUSHPOP reads, then writes, then advances both cursors. -/
def Obligations.DelayLine : Prop :=
  ∀ s inst,
    let c : Nat := s.par.dlyCap
    Constructs s.dly inst (.dlyInit inst) s (fun _ => True)
      (fun _ => ({ s with
        dly := s.dly.set inst
          { wpos := 0, rpos := 0, delay := 0, buf := List.replicate c zero, inited := true }
        }).completed 0 0) ∧
    ∀ a,
      (let n : Nat := (max 0 (min a.toInt ((c : Int) - 1))).toNat
      Operates s.dly DlyRegs.inited inst (.dlySetd inst a) s
        fun u => ({ s with
          dly := s.dly.set inst
            { u with
              delay := BitVec.ofNat 32 n
              rpos := BitVec.ofNat 32 (((u.wpos.toNat : Int) - n) % c).toNat } }).completed
            (BitVec.ofNat 32 n) 0) ∧
      Operates s.dly DlyRegs.inited inst (.dlyPushpop inst a) s
        fun u => ({ s with
          dly := s.dly.set inst
            { u with
              buf := u.buf.set u.wpos.toNat a
              rpos := BitVec.ofNat 32 ((u.rpos.toNat + 1) % c)
              wpos := BitVec.ofNat 32 ((u.wpos.toNat + 1) % c) } }).completed
            (u.buf.getD u.rpos.toNat 0) 0

/-- The effective delay (R199): after a DLY.SETD that sets the delay n, and the samples `xs`, the last
PUSHPOP returns the operand of the one n pushes before, or what the buffer held there before; a
delay of 0 behaves as a delay of C. -/
def Obligations.EffectiveDelay : Prop :=
  ∀ (s : State) (inst : Nat) (a : Word) (xs : List Word) (u : DlyRegs),
    2 ≤ s.par.dlyCap → s.par.dlyCap ≤ 1024 → s.dly[inst]? = some u → u.inited = true →
    u.buf.length = s.par.dlyCap → u.wpos.toNat < s.par.dlyCap → xs ≠ [] →
    let c := s.par.dlyCap
    let n := clampDelay a c
    let d := if n = 0 then c else n
    ∃ t, execAll (.dlySetd inst a :: xs.map (.dlyPushpop inst)) s = .next t ∧
      t.rsp = some ⟨.ok,
        if d < xs.length then xs.getD (xs.length - 1 - d) 0
        else u.buf.getD ((u.wpos.toNat + (xs.length - 1) + c - d) % c) 0, 0⟩

/-! ## DSB and MUX -/

/-- `DSB.INIT` and `DSB.ENC` (R205 to R207): no register is written by ENC; `NOT_INIT` if the instance or
the selected oscillator is not constructed. -/
def Obligations.DsbSc : Prop :=
  ∀ s inst,
    Constructs s.dsb inst (.dsbInit inst) s
      (fun u => u.oscsel.toNat < s.osc.length ∧ (u.polar = 0 ∨ u.polar = 1) ∧
        (u.polar = 0 → 1 ≤ u.harm.toNat ∧ u.harm.toNat ≤ 255))
      (fun u => ({ s with dsb := s.dsb.set inst { u with inited := true } }).completed 0 0) ∧
    ∀ a,
      (s.dsb[inst]? = none → exec (.dsbEnc inst a) s = .next (s.raised .badInstance)) ∧
      ∀ u, s.dsb[inst]? = some u →
        (u.inited = false → exec (.dsbEnc inst a) s = .next (s.raised .notInit)) ∧
        (u.inited = true → ∀ o, s.osc[u.oscsel.toNat]? = some o →
          (o.inited = false → exec (.dsbEnc inst a) s = .next (s.raised .notInit)) ∧
          (o.inited = true →
            exec (.dsbEnc inst a) s = .next (s.completed
              (if u.polar = 0 then fmul a (Config.fsin (fmul o.phase (u2f u.harm.toNat)))
              else fmul (fadd a s.par.polarDc) (Config.fsin o.phase)) 0)))

/-- `MUX.INIT` (R209): the unit has no state of its own to clear. -/
def Obligations.MuxInit : Prop :=
  ∀ s inst, Constructs s.mux inst (.muxInit inst) s
    (fun u => u.oscsel.toNat < s.osc.length ∧ u.mode.toNat ≤ 3 ∧
      (isFinite u.monovol = true ∧ isFinite u.pilotvol = true ∧ isFinite u.stereovol = true) ∧
      (u.mode = 1 ∨ u.mode = 2 → 1 ≤ u.harm.toNat ∧ u.harm.toNat ≤ 255) ∧
      (u.mode = 2 → u.sideband.toNat ≤ 1 ∧ u.hilsel.toNat < s.hil.length ∧
        u.dlysel.toNat < s.dly.length))
    fun u => ({ s with mux := s.mux.set inst { u with inited := true } }).completed 0 0

/-- `MUX.ENC` in mono, DSB-SC and polar mode (R205, R210 to R212): the output, and with ADV one advance
of the selected oscillator after every read of its phase; `NOT_INIT` if it is not constructed. -/
def Obligations.MuxEnc : Prop :=
  ∀ s inst adv a b u o, s.mux[inst]? = some u → u.inited = true →
    s.osc[u.oscsel.toNat]? = some o →
    let mid := fdiv (fadd a b) two
    let side := fdiv (fsub a b) two
    let p := o.phase
    let q := fadd p o.pinc
    let after : State :=
      if adv = true then
        { s with
          osc := s.osc.set u.oscsel.toNat
            { o with phase := if fge q twoPi then fsub q twoPi else q } }
      else s
    (o.inited = false → exec (.muxEnc inst adv a b) s = .next (s.raised .notInit)) ∧
    (o.inited = true →
      (u.mode = 0 → exec (.muxEnc inst adv a b) s =
        .next (after.completed (fmul mid u.monovol) 0)) ∧
      (u.mode = 1 → exec (.muxEnc inst adv a b) s =
        .next (after.completed
          (fadd (fadd (fmul mid u.monovol) (fmul (Config.fsin p) u.pilotvol))
            (fmul (fmul side (Config.fsin (fmul p (u2f u.harm.toNat)))) u.stereovol)) 0)) ∧
      (u.mode = 3 → exec (.muxEnc inst adv a b) s =
        .next (after.completed
          (fadd (fmul mid u.monovol)
            (fmul (fmul (fadd side s.par.polarDc) (Config.fsin p)) u.stereovol)) 0)))

/-- `MUX.ENC` in SSB mode (R210, R213): the side sample steps the selected HIL as HIL.STEP does, the mid
sample the selected DLY as DLY.PUSHPOP does, and the two outputs, the pilot and the delayed mid make
the result; `NOT_INIT`, with nothing changed, if the HIL or the DLY is not constructed. -/
def Obligations.MuxEncSsb : Prop :=
  ∀ s inst adv a b u o h d, s.mux[inst]? = some u → u.inited = true → u.mode = 2 →
    s.osc[u.oscsel.toNat]? = some o → o.inited = true →
    s.hil[u.hilsel.toNat]? = some h → s.dly[u.dlysel.toNat]? = some d →
    let mid := fdiv (fadd a b) two
    let side := fdiv (fsub a b) two
    let p := o.phase
    let q := fadd p o.pinc
    (h.inited = false ∨ d.inited = false →
      exec (.muxEnc inst adv a b) s = .next (s.raised .notInit)) ∧
    (h.inited = true → d.inited = true → ∀ th rh td rd,
      exec (.hilStep u.hilsel.toNat side) s = .next th → th.rsp = some rh →
      exec (.dlyPushpop u.dlysel.toNat mid) s = .next td → td.rsp = some rd →
      let c2 := Config.fcos (fmul p (u2f u.harm.toNat))
      let s2 := Config.fsin (fmul p (u2f u.harm.toNat))
      let qt := fmul (fmul rh.r1 s2) s.par.ssbQGain
      let term := if u.sideband = 0 then fsub (fmul rh.r0 c2) qt else fadd (fmul rh.r0 c2) qt
      exec (.muxEnc inst adv a b) s =
        .next (({ s with
          hil := th.hil
          dly := td.dly
          osc :=
            if adv = true then
              s.osc.set u.oscsel.toNat
                { o with phase := if fge q twoPi then fsub q twoPi else q }
            else s.osc }).completed
          (fadd (fadd (fmul rd.r0 u.monovol) (fmul (Config.fsin p) u.pilotvol))
            (fmul term u.stereovol)) 0))

/-- Silence in DSB-SC mode (R215 (a)): with both inputs +0 the output is `out` of the sine of the phase
and of the sine of the harmonic; with positive finite volumes `out` equals the first sine times
PILOTVOL, whatever the two sines are in [-1, 1] (NP5 of R10). -/
def Obligations.MuxSilence : Prop :=
  ∀ (s : State) (inst : Nat) (u : MuxRegs) (o : OscRegs), s.mux[inst]? = some u → u.inited = true →
    u.mode = 1 → s.osc[u.oscsel.toNat]? = some o → o.inited = true →
    (∀ v ∈ [u.monovol, u.pilotvol, u.stereovol], isFinite v = true ∧ fgt v zero = true) →
    let out (x y : Word) : Word :=
      fadd (fadd (fmul (fdiv (fadd zero zero) two) u.monovol) (fmul x u.pilotvol))
        (fmul (fmul (fdiv (fsub zero zero) two) y) u.stereovol)
    exec (.muxEnc inst false zero zero) s =
        .next (s.completed
          (out (Config.fsin o.phase) (Config.fsin (fmul o.phase (u2f u.harm.toNat)))) 0) ∧
      ∀ x y, (∀ w ∈ [x, y], fle (fneg one) w = true ∧ fle w one = true) →
        feq (out x y) (fmul x u.pilotvol) = true

/-! ## BS -/

/-- `BS.INIT`, `BS.D2DBR`, `BS.DBR2D` and `BS.RATIO` (R225, R226, R229 to R231): INIT clears ACC and
COUNT, the conversions write no register. -/
def Obligations.BsConversions : Prop :=
  ∀ s inst,
    let toDbr (u : BsRegs) (x : Word) : Word :=
      if feq x zero = true ∨ flt x u.eps = true then u.floor
      else fmul ten (Config.flog10 (fmul (fdiv x u.refdev) (fdiv x u.refdev)))
    let toDev (u : BsRegs) (d : Word) : Word :=
      fmul u.refdev (Config.fexp2 (fdiv d (fmul twenty (Config.flog10 two))))
    Constructs s.bs inst (.bsInit inst) s
      (fun u => (isFinite u.srate = true ∧ fgt u.srate zero = true) ∧
        (isFinite u.refdev = true ∧ fgt u.refdev zero = true) ∧
        (isFinite u.floor = true ∧ isFinite u.target = true) ∧
        isFinite u.eps = true ∧ fge u.eps zero = true)
      (fun u => ({ s with
        bs := s.bs.set inst { u with acc := zero, count := 0, inited := true } }).completed 0 0) ∧
    ∀ a,
      Operates s.bs BsRegs.inited inst (.bsD2dbr inst a) s (fun u => s.completed (toDbr u a) 0) ∧
      Operates s.bs BsRegs.inited inst (.bsDbr2d inst a) s (fun u => s.completed (toDev u a) 0) ∧
      Operates s.bs BsRegs.inited inst (.bsRatio inst a) s
        (fun u => s.completed
          (if fgt (fsub a u.target) zero = true then
            fdiv (toDev u (fneg (fsub a u.target))) u.refdev
          else one) 0)

/-- `BS.MEAS` (R228): accumulate, count modulo 2^32, report the full window's mean, and at the window's
end seed the next window with that mean and a count of 1. -/
def Obligations.BsMeasure : Prop :=
  ∀ s inst a, Operates s.bs BsRegs.inited inst (.bsMeas inst a) s
    fun u =>
      let acc := fadd u.acc (fmul a a)
      let count := u.count + 1
      let ms := fdiv acc (u2f count.toNat)
      let rms := fsqrt ms
      let dbr :=
        if feq rms zero = true ∨ flt rms u.eps = true then u.floor
        else fmul ten (Config.flog10 (fmul (fdiv rms u.refdev) (fdiv rms u.refdev)))
      let full := cmpUfGe count (fmul u.srate sixty)
      ({ s with
        bs := s.bs.set inst
          { u with acc := if full then ms else acc, count := if full then 1 else count }
        }).completed dbr 0

/-- ACC is never negative (R57). If ACC ≥ 0 in every BS, the sample rate of every constructed one is
finite and positive, and the operand of a presented BS.MEAS is finite, then that holds after the
step, with no NaN; whatever the operand, ACC stays at least 0 or a NaN. -/
def Obligations.BsAccumulator : Prop :=
  let ok (u : BsRegs) : Prop :=
    fge u.acc zero = true ∧
      (u.inited = true → isFinite u.srate = true ∧ fgt u.srate zero = true)
  ∀ s t, step s = .next t →
    ((∀ p rest inst a, s.input = .command p :: rest → decode p = .ok (.bsMeas inst a) →
        isFinite a = true) → (∀ u ∈ s.bs, ok u) → ∀ u ∈ t.bs, ok u) ∧
    ((∀ u ∈ s.bs, nonNegOrNaN u.acc = true) → ∀ u ∈ t.bs, nonNegOrNaN u.acc = true)

/-! ## AGC -/

/-- `AGC.INIT` and `AGC.PROC` (R245 to R247). -/
def Obligations.AgcGain : Prop :=
  ∀ s inst,
    (let coef (u : AgcRegs) (t : Word) : Word :=
      Config.fexp (fneg (fdiv one (fmul u.srate t)))
    let unit (c : Word) : Prop := isFinite c = true ∧ fge c zero = true ∧ fle c one = true
    Constructs s.agc inst (.agcInit inst) s
      (fun u => (isFinite u.srate = true ∧ fgt u.srate zero = true) ∧
        (isFinite u.target = true ∧ isFinite u.mingain = true ∧ isFinite u.maxgain = true ∧
          fle u.mingain u.maxgain = true) ∧
        (∀ t ∈ [u.attackT, u.releaseT, u.rmsT], isFinite t = true ∧ fgt t zero = true) ∧
        (isFinite u.eps = true ∧ fgt u.eps zero = true) ∧
        unit (coef u u.attackT) ∧ unit (coef u u.releaseT) ∧ unit (coef u u.rmsT))
      fun u => ({ s with
        agc := s.agc.set inst
          { u with
            attackC := coef u u.attackT
            releaseC := coef u u.releaseT
            rmsC := coef u u.rmsT
            gain := clamp one u.mingain u.maxgain
            level := zero
            rmsbuf := zero
            inited := true } }).completed 0 0) ∧
    ∀ a, Operates s.agc AgcRegs.inited inst (.agcProc inst a) s
      fun u =>
        let pole (c old x : Word) : Word := fadd (fmul c old) (fmul (fsub one c) x)
        let rmsbuf := pole u.rmsC u.rmsbuf (fmul a a)
        let x := fsqrt rmsbuf
        let level := pole (if fgt x u.level then u.attackC else u.releaseC) u.level x
        let des := clamp (fdiv u.target (fadd level u.eps)) u.mingain u.maxgain
        let g := pole (if flt des u.gain then u.attackC else u.releaseC) u.gain des
        let gain := clamp g u.mingain u.maxgain
        ({ s with
          agc := s.agc.set inst { u with rmsbuf := rmsbuf, level := level, gain := gain }
          }).completed gain 0

/-- The AGC invariants, for every sequence of operands (R59, R248 (a) to (c), R249): if in every
constructed AGC the coefficients are in [0, 1], MINGAIN ≤ MAXGAIN, GAIN is in range or a NaN, and
RMSBUF and LEVEL are at least 0 or a NaN, then that holds after every step. -/
def Obligations.AgcGainInRange : Prop :=
  ∀ s t, (∀ u ∈ s.agc, u.Bounded) → step s = .next t → ∀ u ∈ t.agc, u.Bounded

/-- The AGC invariants under the premise `AgcRange` (R59, R248): if in every constructed AGC the
configuration is one AGC.INIT accepts, MINGAIN ≤ GAIN ≤ MAXGAIN, 0 ≤ RMSBUF ≤ 2^126 and
0 ≤ LEVEL ≤ 2^63, and a presented AGC.PROC has |A| < 2^63, then that holds after the step; so RMSBUF,
LEVEL and GAIN are finite and no NaN appears. The finiteness is the proof obligation R248 names. -/
def Obligations.AgcFinite : Prop :=
  ∀ s t,
    (∀ p rest inst a, s.input = .command p :: rest → decode p = .ok (.agcProc inst a) →
      AgcRange a = true) →
    (∀ u ∈ s.agc, u.Settled) → step s = .next t → ∀ u ∈ t.agc, u.Settled ∧
      (u.inited = true → isFinite u.rmsbuf = true ∧ isFinite u.level = true ∧ isFinite u.gain = true)

/-! ## ADD -/

/-- `ADD.INIT`, `ADD.CLR` and `ADD.OUT` (R260, R261, R263). -/
def Obligations.AdderSum : Prop :=
  ∀ s inst,
    Constructs s.add inst (.addInit inst) s
      (fun u => u.oscsel.toNat < s.osc.length ∧ ∀ c : Fin 8, isFinite u.vol[c] = true ∧
        u.car[c] &&& 0xFFFF00FC#32 = 0 ∧ bits u.car[c] 1 0 ≠ 3)
      (fun u => ({ s with
        add := s.add.set inst { u with sum := zero, inited := true } }).completed 0 0) ∧
    Operates s.add AddRegs.inited inst (.addClr inst) s
      (fun u => ({ s with add := s.add.set inst { u with sum := zero } }).completed 0 0) ∧
    Operates s.add AddRegs.inited inst (.addOut inst) s (fun u => s.completed u.sum 0)

/-- `ADD.IN` (R262): the operand is scaled, then put on the channel's carrier, then added to the sum,
which is the result; no oscillator advances; `NOT_INIT` if a carrier is selected and the oscillator
is not constructed. -/
def Obligations.AdderIn : Prop :=
  ∀ s inst (c : Fin 8) a u, s.add[inst]? = some u → u.inited = true →
    let x := fmul a u.vol[c]
    let h := bits u.car[c] 15 8
    let added (t : Word) : State :=
      ({ s with add := s.add.set inst { u with sum := fadd u.sum t } }).completed (fadd u.sum t) 0
    (bits u.car[c] 1 0 = 0 → exec (.addIn inst c a) s = .next (added x)) ∧
    ∀ o, s.osc[u.oscsel.toNat]? = some o →
      (bits u.car[c] 1 0 = 1 ∨ bits u.car[c] 1 0 = 2 → o.inited = false →
        exec (.addIn inst c a) s = .next (s.raised .notInit)) ∧
      (bits u.car[c] 1 0 = 1 → o.inited = true →
        exec (.addIn inst c a) s =
          .next (added (fmul x (Config.fsin (fmul o.phase (u2f h)))))) ∧
      (bits u.car[c] 1 0 = 2 → o.inited = true →
        exec (.addIn inst c a) s =
          .next (added (fmul x (Config.fcos (fmul o.phase (u2f h))))))
end

