-- ==== Sys2Proof/Laws/Rounding.lean ====
section
/-! SUPPORT. The format and the rounding: magnitudes and signs of a packed word, the order of the
values, and what rounding to nearest gives (R6, R7). -/

namespace Sys2Proof.Machine

/-! Sign and magnitude. -/

theorem mag_lt (a : Word) : mag a < 2 ^ 31 := Nat.mod_lt _ (by norm_num)

theorem toNat_pack {neg : Bool} {m : Nat} (h : m < 2 ^ 31) :
    (pack neg m).toNat = if neg then 2 ^ 31 + m else m := by
  cases neg <;> simp only [pack, BitVec.toNat_ofNat] <;> simp <;> omega

@[simp] theorem mag_pack {neg : Bool} {m : Nat} (h : m < 2 ^ 31) : mag (pack neg m) = m := by
  rw [mag, toNat_pack h]
  split <;> omega

@[simp] theorem isNeg_pack {neg : Bool} {m : Nat} (h : m < 2 ^ 31) : isNeg (pack neg m) = neg := by
  rw [isNeg, toNat_pack h]
  cases neg
  · have : ¬2 ^ 31 ≤ m := by omega
    simpa using this
  · simp

/-- A word is its sign and its magnitude. -/
theorem pack_isNeg_mag (a : Word) : pack (isNeg a) (mag a) = a := by
  apply BitVec.eq_of_toNat_eq
  rw [toNat_pack (mag_lt a)]
  have h : a.toNat < 2 ^ 32 := a.isLt
  simp only [isNeg, mag, decide_eq_true_eq]
  split <;> omega

/-- Two words with one sign and one magnitude are equal. -/
theorem eq_of_sign_mag {a b : Word} (hs : isNeg a = isNeg b) (hm : mag a = mag b) : a = b := by
  rw [← pack_isNeg_mag a, ← pack_isNeg_mag b, hs, hm]

/-- `fneg` changes the sign and nothing else (R7). -/
theorem fneg_eq_pack (a : Word) : fneg a = pack (!isNeg a) (mag a) := by
  apply BitVec.eq_of_toNat_eq
  rw [toNat_pack (mag_lt a), fneg, BitVec.toNat_xor]
  have h : a.toNat < 2 ^ 32 := a.isLt
  have hlit : (0x80000000#32).toNat = 2 ^ 31 := rfl
  rw [hlit]
  apply Nat.eq_of_testBit_eq
  intro i
  rw [Nat.testBit_xor, Nat.testBit_two_pow]
  rcases lt_trichotomy i 31 with hi | rfl | hi
  · have h31 : decide (31 = i) = false := decide_eq_false (by omega)
    rw [h31, Bool.xor_false]
    split
    · rw [Nat.testBit_two_pow_add_gt hi, mag, Nat.testBit_mod_two_pow]
      simp [hi]
    · rw [mag, Nat.testBit_mod_two_pow]
      simp [hi]
  · have hb : a.toNat.testBit 31 = isNeg a := by
      rw [Nat.testBit_eq_decide_div_mod_eq, isNeg, decide_eq_decide]
      omega
    have hm : (mag a).testBit 31 = false := Nat.testBit_lt_two_pow (mag_lt a)
    rw [hb]
    cases isNeg a
    · rw [Bool.not_false, if_pos rfl, Nat.testBit_two_pow_add_eq, hm]
      rfl
    · rw [Bool.not_true, if_neg (by simp), hm]
      rfl
  · have hp : 2 ^ 32 ≤ 2 ^ i := Nat.pow_le_pow_right (by norm_num) hi
    have hm := mag_lt a
    have h31 : decide (31 = i) = false := decide_eq_false (by omega)
    rw [h31, Bool.xor_false, Nat.testBit_lt_two_pow (lt_of_lt_of_le h hp)]
    symm
    apply Nat.testBit_lt_two_pow
    refine lt_of_lt_of_le ?_ hp
    split <;> omega

@[simp] theorem isNeg_fneg (a : Word) : isNeg (fneg a) = !isNeg a := by
  rw [fneg_eq_pack, isNeg_pack (mag_lt a)]

@[simp] theorem mag_fneg (a : Word) : mag (fneg a) = mag a := by
  rw [fneg_eq_pack, mag_pack (mag_lt a)]

@[simp] theorem isNaN_fneg (a : Word) : isNaN (fneg a) = isNaN a := by simp [isNaN]
@[simp] theorem isInf_fneg (a : Word) : isInf (fneg a) = isInf a := by simp [isInf]
@[simp] theorem isFinite_fneg (a : Word) : isFinite (fneg a) = isFinite a := by simp [isFinite]

@[simp] theorem units_fneg (a : Word) : units (fneg a) = -units a := by
  simp only [units, isNeg_fneg, mag_fneg]
  cases isNeg a <;> simp

theorem units_pack {neg : Bool} {m : Nat} (h : m < 2 ^ 31) :
    units (pack neg m) = if neg then -(unitsOfMag m : Int) else unitsOfMag m := by
  rw [units, isNeg_pack h, mag_pack h]

theorem isNaN_eq_false_of_isFinite {a : Word} (h : isFinite a = true) : isNaN a = false := by
  simp only [isFinite, isNaN, decide_eq_true_eq, decide_eq_false_iff_not] at *
  omega

theorem isInf_eq_false_of_isFinite {a : Word} (h : isFinite a = true) : isInf a = false := by
  simp only [isFinite, isInf, decide_eq_true_eq, decide_eq_false_iff_not] at *
  omega

/-- A NaN result is a NaN, whatever is drawn (U2). -/
@[simp] theorem isNaN_nanFor (op : Config.NanSource) (a b : Word) : isNaN (nanFor op a b) = true := by
  unfold nanFor
  split
  · assumption
  · decide

/-! The values of the magnitudes are in the order of the magnitudes. -/

theorem unitsOfMag_of_lt {m : Nat} (h : m < 2 ^ 24) : unitsOfMag m = m := by
  unfold unitsOfMag
  split
  · rfl
  · have h1 : m / 2 ^ 23 = 1 := by omega
    rw [h1]
    omega

theorem unitsOfMag_lt_succ (m : Nat) : unitsOfMag m < unitsOfMag (m + 1) := by
  by_cases h : m + 1 < 2 ^ 24
  · rw [unitsOfMag_of_lt h, unitsOfMag_of_lt (by omega)]
    omega
  · unfold unitsOfMag
    rw [if_neg (by omega), if_neg (by omega)]
    by_cases hc : m % 2 ^ 23 = 2 ^ 23 - 1
    · have h1 : (m + 1) % 2 ^ 23 = 0 := by omega
      have h2 : (m + 1) / 2 ^ 23 - 1 = (m / 2 ^ 23 - 1) + 1 := by omega
      rw [h1, h2, hc, pow_succ 2 (m / 2 ^ 23 - 1)]
      have := Nat.two_pow_pos (m / 2 ^ 23 - 1)
      generalize 2 ^ (m / 2 ^ 23 - 1) = k at *
      omega
    · have h1 : (m + 1) % 2 ^ 23 = m % 2 ^ 23 + 1 := by omega
      have h2 : (m + 1) / 2 ^ 23 = m / 2 ^ 23 := by omega
      rw [h1, h2]
      exact Nat.mul_lt_mul_of_pos_right (by omega) (Nat.two_pow_pos _)

theorem unitsOfMag_strictMono : StrictMono unitsOfMag := strictMono_nat_of_lt_succ unitsOfMag_lt_succ

theorem unitsOfMag_lt_iff {m n : Nat} : unitsOfMag m < unitsOfMag n ↔ m < n :=
  unitsOfMag_strictMono.lt_iff_lt

theorem unitsOfMag_le_iff {m n : Nat} : unitsOfMag m ≤ unitsOfMag n ↔ m ≤ n :=
  unitsOfMag_strictMono.le_iff_le

theorem unitsOfMag_inj {m n : Nat} : unitsOfMag m = unitsOfMag n ↔ m = n :=
  unitsOfMag_strictMono.injective.eq_iff

@[simp] theorem unitsOfMag_zero : unitsOfMag 0 = 0 := rfl

@[simp] theorem unitsOfMag_pos {m : Nat} : 0 < unitsOfMag m ↔ 0 < m := by
  simpa using unitsOfMag_lt_iff (m := 0) (n := m)

/-- The magnitude `e * 2^23 + n` with a 24-bit significand `n` has the value `n * 2^e`; a carry
(`n = 2^24`) is the next exponent's least significand. -/
theorem unitsOfMag_significand {e n : Nat} (h : e = 0 ∨ 2 ^ 23 ≤ n) (hn : n ≤ 2 ^ 24) :
    unitsOfMag (e * 2 ^ 23 + n) = n * 2 ^ e := by
  rcases Nat.lt_or_ge (e * 2 ^ 23 + n) (2 ^ 23) with hs | hs
  · have he : e = 0 := by omega
    subst he
    simp only [unitsOfMag]
    rw [if_pos (by omega)]
    omega
  · unfold unitsOfMag
    rw [if_neg (by omega)]
    rcases Nat.lt_or_ge n (2 ^ 24) with hlt | hge
    · have hn' : 2 ^ 23 ≤ n := by omega
      have h1 : (e * 2 ^ 23 + n) % 2 ^ 23 = n - 2 ^ 23 := by omega
      have h2 : (e * 2 ^ 23 + n) / 2 ^ 23 - 1 = e := by omega
      have h3 : 2 ^ 23 + (n - 2 ^ 23) = n := by omega
      rw [h1, h2, h3]
    · have h1 : (e * 2 ^ 23 + n) % 2 ^ 23 = 0 := by omega
      have h2 : (e * 2 ^ 23 + n) / 2 ^ 23 - 1 = e + 1 := by omega
      have h3 : ∀ k, (2 ^ 23 + 0) * (k * 2) = n * k := by
        intro k
        have hn' : n = 16777216 := by omega
        subst hn'
        omega
      rw [h1, h2, pow_succ 2 e, h3]

/-- Every magnitude is of that form. -/
theorem exists_significand (m : Nat) :
    ∃ e n, m = e * 2 ^ 23 + n ∧ (e = 0 ∨ 2 ^ 23 ≤ n) ∧ n < 2 ^ 24 := by
  by_cases h : m < 2 ^ 23
  · exact ⟨0, m, by omega, .inl rfl, by omega⟩
  · exact ⟨m / 2 ^ 23 - 1, 2 ^ 23 + m % 2 ^ 23, by omega, by omega, by omega⟩

/-! Rounding a quotient to the nearest integer. -/

/-- Twice the distance from the rounded quotient is at most the divisor. -/
theorem nearestEven_bounds (num : Nat) {den : Nat} (hd : 0 < den) :
    2 * num ≤ 2 * (nearestEven num den * den) + den ∧
      2 * (nearestEven num den * den) ≤ 2 * num + den := by
  have h := Nat.div_add_mod num den
  have hr := Nat.mod_lt num hd
  unfold nearestEven
  simp only
  generalize num / den = q at *
  generalize num % den = r at *
  subst h
  split <;> rename_i hc
  · have : (q + 1) * den = den * q + den := by ring
    omega
  · have : q * den = den * q := by ring
    omega

/-- In a tie the rounded quotient is even. -/
theorem nearestEven_even_of_tie {num den : Nat} (hd : 0 < den)
    (h : 2 * num = 2 * (nearestEven num den * den) + den ∨
      2 * (nearestEven num den * den) = 2 * num + den) : nearestEven num den % 2 = 0 := by
  have h' := Nat.div_add_mod num den
  have hr := Nat.mod_lt num hd
  revert h
  unfold nearestEven
  simp only
  generalize num / den = q at *
  generalize num % den = r at *
  subst h'
  split <;> rename_i hc
  · have : (q + 1) * den = den * q + den := by ring
    omega
  · have : q * den = den * q := by ring
    omega

theorem nearestEven_exact (n : Nat) {den : Nat} (hd : 0 < den) : nearestEven (n * den) den = n := by
  have h1 : n * den / den = n := Nat.mul_div_cancel _ hd
  have h2 : n * den % den = 0 := Nat.mul_mod_left _ _
  unfold nearestEven
  simp only [h1, h2]
  rw [if_neg (by omega)]

/-- No integer is nearer to the quotient than the rounded one. -/
theorem nearestEven_nearest (num : Nat) {den : Nat} (hd : 0 < den) (k : Nat) :
    |(nearestEven num den * den : Int) - num| ≤ |(k * den : Int) - num| := by
  obtain ⟨h1, h2⟩ := nearestEven_bounds num hd
  zify at h1 h2
  generalize (nearestEven num den : Int) = n at *
  have hd' : (0 : Int) < den := by exact_mod_cast hd
  rcases lt_trichotomy (k : Int) n with hk | hk | hk
  · have : (k : Int) * den ≤ n * den - den := by nlinarith
    rw [abs_of_nonpos (a := (k : Int) * den - num) (by linarith)]
    exact abs_le.mpr ⟨by linarith, by linarith⟩
  · rw [hk]
  · have : n * den + den ≤ (k : Int) * den := by nlinarith
    rw [abs_of_nonneg (a := (k : Int) * den - num) (by linarith)]
    exact abs_le.mpr ⟨by linarith, by linarith⟩

/-- Rounding keeps order. -/
theorem nearestEven_mono {n₁ d₁ n₂ d₂ : Nat} (h₁ : 0 < d₁) (h₂ : 0 < d₂)
    (h : n₁ * d₂ ≤ n₂ * d₁) : nearestEven n₁ d₁ ≤ nearestEven n₂ d₂ := by
  by_contra hc
  push Not at hc
  obtain ⟨-, hu⟩ := nearestEven_bounds n₁ h₁
  obtain ⟨hl, -⟩ := nearestEven_bounds n₂ h₂
  have e₁ := nearestEven_even_of_tie (num := n₁) h₁
  have e₂ := nearestEven_even_of_tie (num := n₂) h₂
  generalize nearestEven n₁ d₁ = a at *
  generalize nearestEven n₂ d₂ = b at *
  obtain ⟨c, rfl⟩ : ∃ c, a = b + 1 + c := ⟨a - (b + 1), by omega⟩
  have k1 : 2 * ((b + 1 + c) * d₁) * d₂ ≤ 2 * n₁ * d₂ + d₁ * d₂ := by nlinarith
  have k2 : 2 * n₂ * d₁ ≤ 2 * (b * d₂) * d₁ + d₂ * d₁ := by nlinarith
  have k3 : 2 * c * (d₁ * d₂) ≤ 0 := by nlinarith
  have hpos : 0 < d₁ * d₂ := Nat.mul_pos h₁ h₂
  have hc0 : c = 0 := by
    rcases Nat.eq_zero_or_pos c with h0 | h0
    · exact h0
    · nlinarith
  subst hc0
  have t1 : 2 * ((b + 1) * d₁) * d₂ = 2 * n₁ * d₂ + d₁ * d₂ := by nlinarith
  have t2 : 2 * n₂ * d₁ = 2 * (b * d₂) * d₁ + d₂ * d₁ := by nlinarith
  have s1 : 2 * ((b + 1 + 0) * d₁) = 2 * n₁ + d₁ := by
    apply Nat.eq_of_mul_eq_mul_right h₂
    nlinarith
  have s2 : 2 * n₂ = 2 * (b * d₂) + d₂ := by
    apply Nat.eq_of_mul_eq_mul_right h₁
    nlinarith
  have := e₁ (.inr s1)
  have := e₂ (.inl s2)
  omega

/-! Rounding to a magnitude. -/

theorem nearestEven_le {num den k : Nat} (hd : 0 < den) (h : num ≤ k * den) :
    nearestEven num den ≤ k := by
  have := nearestEven_mono (n₁ := num) (d₁ := den) (n₂ := k * den) (d₂ := den) hd hd
    (Nat.mul_le_mul_right _ h)
  rwa [nearestEven_exact k hd] at this

theorem le_nearestEven {num den k : Nat} (hd : 0 < den) (h : k * den ≤ num) :
    k ≤ nearestEven num den := by
  have := nearestEven_mono (n₁ := k * den) (d₁ := den) (n₂ := num) (d₂ := den) hd hd
    (Nat.mul_le_mul_right _ h)
  rwa [nearestEven_exact k hd] at this

/-- The value lies below 2^(24 + excess). -/
theorem lt_of_excess (num : Nat) {den : Nat} (hd : 0 < den) :
    num < 2 ^ 24 * (den * 2 ^ excess num den) := by
  have hq : num / den < 2 ^ (24 + excess num den) := by
    refine lt_of_lt_of_le (Nat.lt_log2_self (n := num / den)) ?_
    apply Nat.pow_le_pow_right (by norm_num)
    unfold excess
    omega
  have := (Nat.div_lt_iff_lt_mul hd).mp hq
  calc num < 2 ^ (24 + excess num den) * den := this
    _ = _ := by rw [pow_add]; ring

/-- Where the exponent step is not 0 the value is at least 2^(23 + excess). -/
theorem le_of_excess {num den : Nat} (hd : 0 < den) (he : excess num den ≠ 0) :
    2 ^ 23 * (den * 2 ^ excess num den) ≤ num := by
  have h0 : num / den ≠ 0 := by
    intro h
    apply he
    simp [excess, h]
  have hq : 2 ^ (23 + excess num den) ≤ num / den := by
    have := Nat.log2_self_le h0
    refine le_trans (Nat.pow_le_pow_right (by norm_num) ?_) this
    unfold excess at *
    omega
  have := (Nat.le_div_iff_mul_le hd).mp hq
  calc _ = 2 ^ (23 + excess num den) * den := by rw [pow_add]; ring
    _ ≤ num := this

/-- The rounded significand. -/
theorem significand_bounds (num : Nat) {den : Nat} (hd : 0 < den) :
    (excess num den = 0 ∨ 2 ^ 23 ≤ nearestEven num (den * 2 ^ excess num den)) ∧
      nearestEven num (den * 2 ^ excess num den) ≤ 2 ^ 24 := by
  have hd' : 0 < den * 2 ^ excess num den := Nat.mul_pos hd (Nat.two_pow_pos _)
  constructor
  · by_cases he : excess num den = 0
    · exact .inl he
    · exact .inr (le_nearestEven hd' (le_of_excess hd he))
  · exact nearestEven_le hd' (lt_of_excess num hd).le

theorem roundMag_le (num den : Nat) : roundMag num den ≤ infMag := min_le_right _ _

theorem roundMag_lt_two_pow (num den : Nat) : roundMag num den < 2 ^ 31 :=
  lt_of_le_of_lt (roundMag_le num den) (by norm_num [infMag])

/-- The value of the magnitude before the cut at infinity is the significand, scaled. -/
theorem unitsOfMag_round (num : Nat) {den : Nat} (hd : 0 < den) :
    unitsOfMag (excess num den * 2 ^ 23 + nearestEven num (den * 2 ^ excess num den)) =
      nearestEven num (den * 2 ^ excess num den) * 2 ^ excess num den :=
  unitsOfMag_significand (significand_bounds num hd).1 (significand_bounds num hd).2

theorem log2_mono {a b : Nat} (h : a ≤ b) : Nat.log2 a ≤ Nat.log2 b := by
  rcases Nat.eq_zero_or_pos a with rfl | ha
  · simp
  · rw [Nat.le_log2 (by omega)]
    exact le_trans (Nat.log2_self_le (by omega)) h

theorem excess_mono {n₁ d₁ n₂ d₂ : Nat} (h₁ : 0 < d₁) (h₂ : 0 < d₂) (h : n₁ * d₂ ≤ n₂ * d₁) :
    excess n₁ d₁ ≤ excess n₂ d₂ := by
  have hq : n₁ / d₁ ≤ n₂ / d₂ := by
    rw [Nat.le_div_iff_mul_le h₂]
    have := Nat.div_mul_le_self n₁ d₁
    have h3 : n₁ / d₁ * d₂ * d₁ ≤ n₂ * d₁ := by
      calc n₁ / d₁ * d₂ * d₁ = n₁ / d₁ * d₁ * d₂ := by ring
        _ ≤ n₁ * d₂ := Nat.mul_le_mul_right _ this
        _ ≤ _ := h
    exact Nat.le_of_mul_le_mul_right h3 h₁
  have := log2_mono hq
  unfold excess
  omega

/-- Rounding keeps order (R7). -/
theorem roundMag_mono {n₁ d₁ n₂ d₂ : Nat} (h₁ : 0 < d₁) (h₂ : 0 < d₂) (h : n₁ * d₂ ≤ n₂ * d₁) :
    roundMag n₁ d₁ ≤ roundMag n₂ d₂ := by
  unfold roundMag
  simp only
  apply min_le_min_right
  obtain ⟨-, hu⟩ := significand_bounds n₁ h₁
  obtain ⟨hl, -⟩ := significand_bounds n₂ h₂
  rcases Nat.lt_or_ge (excess n₁ d₁) (excess n₂ d₂) with he | he
  · have : 2 ^ 23 ≤ nearestEven n₂ (d₂ * 2 ^ excess n₂ d₂) := by omega
    omega
  · have he' : excess n₁ d₁ = excess n₂ d₂ := le_antisymm (excess_mono h₁ h₂ h) he
    rw [he']
    have hp := Nat.two_pow_pos (excess n₂ d₂)
    have := nearestEven_mono (n₁ := n₁) (d₁ := d₁ * 2 ^ excess n₂ d₂) (n₂ := n₂)
      (d₂ := d₂ * 2 ^ excess n₂ d₂) (Nat.mul_pos h₁ hp) (Nat.mul_pos h₂ hp) (by nlinarith)
    omega

/-- A value of the format rounds to itself (R7). -/
theorem roundMag_exact {m : Nat} (hm : m ≤ infMag) {den : Nat} (hd : 0 < den) :
    roundMag (unitsOfMag m * den) den = m := by
  obtain ⟨e, n, rfl, hn, hlt⟩ := exists_significand m
  have hv : unitsOfMag (e * 2 ^ 23 + n) = n * 2 ^ e := unitsOfMag_significand hn hlt.le
  have hx : excess (unitsOfMag (e * 2 ^ 23 + n) * den) den = e := by
    unfold excess
    rw [Nat.mul_div_cancel _ hd, hv]
    rcases hn with rfl | hn
    · have : Nat.log2 (n * 2 ^ 0) < 24 := by
        rcases Nat.eq_zero_or_pos n with rfl | h0
        · simp
        · rw [Nat.log2_lt (by simpa using h0.ne')]
          simpa using hlt
      omega
    · have h1 : 24 + e ≤ Nat.log2 (n * 2 ^ e) + 1 := by
        have : 23 + e ≤ Nat.log2 (n * 2 ^ e) := by
          rw [Nat.le_log2 (by positivity), pow_add]
          exact Nat.mul_le_mul_right _ hn
        omega
      have h2 : Nat.log2 (n * 2 ^ e) < 24 + e := by
        rw [Nat.log2_lt (by positivity), pow_add]
        exact Nat.mul_lt_mul_of_pos_right hlt (Nat.two_pow_pos _)
      omega
  unfold roundMag
  simp only [hx]
  have : nearestEven (unitsOfMag (e * 2 ^ 23 + n) * den) (den * 2 ^ e) = n := by
    rw [hv, show n * 2 ^ e * den = n * (den * 2 ^ e) by ring]
    exact nearestEven_exact n (Nat.mul_pos hd (Nat.two_pow_pos _))
  rw [this, min_eq_left hm]

/-- A value at most that of `m` rounds to at most `m`. -/
theorem roundMag_le_of_le {num den m : Nat} (hd : 0 < den) (hm : m ≤ infMag)
    (h : num ≤ unitsOfMag m * den) : roundMag num den ≤ m := by
  have := roundMag_mono (n₁ := num) (d₁ := den) (n₂ := unitsOfMag m * den) (d₂ := den) hd hd
    (Nat.mul_le_mul_right _ h)
  rwa [roundMag_exact hm hd] at this

/-- A value at least that of `m` rounds to at least `m`. -/
theorem le_roundMag_of_le {num den m : Nat} (hd : 0 < den) (hm : m ≤ infMag)
    (h : unitsOfMag m * den ≤ num) : m ≤ roundMag num den := by
  have := roundMag_mono (n₁ := unitsOfMag m * den) (d₁ := den) (n₂ := num) (d₂ := den) hd hd
    (Nat.mul_le_mul_right _ h)
  rwa [roundMag_exact hm hd] at this

@[simp] theorem roundMag_zero {den : Nat} (hd : 0 < den) : roundMag 0 den = 0 := by
  have := roundMag_exact (m := 0) (by norm_num [infMag]) hd
  simpa using this

/-- Where the result becomes infinite: halfway from the greatest finite value to 2^277 units (R7). -/
theorem roundMag_lt_infMag_iff {num den : Nat} (hd : 0 < den) :
    roundMag num den < infMag ↔ num < (2 ^ 277 - 2 ^ 252) * den := by
  constructor
  · intro h
    by_contra hc
    have hm := roundMag_mono (n₁ := 2 ^ 277 - 2 ^ 252) (d₁ := 1) (n₂ := num) (d₂ := den)
      Nat.one_pos hd (by omega)
    have : roundMag (2 ^ 277 - 2 ^ 252) 1 = infMag := by decide +kernel
    omega
  · intro h
    by_contra hc
    have hq : num / den < 2 ^ 277 := by
      rw [Nat.div_lt_iff_lt_mul hd]
      exact lt_of_lt_of_le h (Nat.mul_le_mul_right _ (by norm_num))
    have he : excess num den ≤ 253 := by
      by_cases h0 : num / den = 0
      · simp [excess, h0]
      · have := (Nat.log2_lt h0).mpr hq
        unfold excess
        omega
    obtain ⟨-, hn⟩ := significand_bounds num hd
    have hi : infMag ≤ excess num den * 2 ^ 23 + nearestEven num (den * 2 ^ excess num den) := by
      unfold roundMag at hc
      simp only at hc
      omega
    have h1 : excess num den = 253 := by simp only [infMag] at hi; omega
    rw [h1] at hn hi
    have h2 : nearestEven num (den * 2 ^ 253) = 2 ^ 24 := by simp only [infMag] at hi; omega
    obtain ⟨-, hb⟩ := nearestEven_bounds num (Nat.mul_pos hd (Nat.two_pow_pos 253))
    rw [h2] at hb
    omega

/-- A value of at most `2^(24 + e)` rounds with an error of at most half of `2^e`. -/
theorem unitsOfMag_roundMag_le {num e : Nat} (h : num ≤ 2 ^ (24 + e)) (he : e ≤ 252) :
    2 * unitsOfMag (roundMag num 1) ≤ 2 * num + 2 ^ e := by
  rcases h.eq_or_lt with rfl | h
  · have hv : unitsOfMag (e * 2 ^ 23 + 2 ^ 24) = 2 ^ (24 + e) := by
      rw [unitsOfMag_significand (.inr (by norm_num)) le_rfl, pow_add]
    have := roundMag_exact (m := e * 2 ^ 23 + 2 ^ 24) (by simp only [infMag]; omega) Nat.one_pos
    rw [mul_one, hv] at this
    rw [this, hv]
    exact Nat.le_add_right _ _
  · have hx : excess num 1 ≤ e := by
      by_cases h0 : num = 0
      · simp [excess, h0]
      · have := (Nat.log2_lt h0).mpr h
        unfold excess
        rw [Nat.div_one]
        omega
    obtain ⟨-, hb⟩ := nearestEven_bounds num (Nat.mul_pos Nat.one_pos (Nat.two_pow_pos (excess num 1)))
    have hu := unitsOfMag_round num Nat.one_pos
    have hle : unitsOfMag (roundMag num 1) ≤
        unitsOfMag (excess num 1 * 2 ^ 23 + nearestEven num (1 * 2 ^ excess num 1)) :=
      unitsOfMag_le_iff.mpr (min_le_left _ _)
    have hp : 2 ^ excess num 1 ≤ 2 ^ e := Nat.pow_le_pow_right (by norm_num) hx
    rw [one_mul] at *
    omega

/-! The integer square root. -/

theorem isqrtFrom_sq_le {n : Nat} : ∀ (k : Nat) {r : Nat}, r * r ≤ n →
    isqrtFrom n k r * isqrtFrom n k r ≤ n
  | 0, _, h => h
  | k + 1, r, h => by
    unfold isqrtFrom
    split
    · exact isqrtFrom_sq_le k ‹_›
    · exact isqrtFrom_sq_le k h

theorem lt_isqrtFrom_sq {n : Nat} : ∀ (k : Nat) {r : Nat}, n < (r + 2 ^ k) * (r + 2 ^ k) →
    n < (isqrtFrom n k r + 1) * (isqrtFrom n k r + 1)
  | 0, _, h => by simpa [isqrtFrom] using h
  | k + 1, r, h => by
    unfold isqrtFrom
    split
    · refine lt_isqrtFrom_sq k ?_
      rwa [show r + 2 ^ k + 2 ^ k = r + 2 ^ (k + 1) by rw [pow_succ]; ring]
    · exact lt_isqrtFrom_sq k (by omega)

/-- `isqrt` is the integer square root (R7). -/
theorem isqrt_bounds {n : Nat} (h : n < 2 ^ 214 * 2 ^ 214) :
    isqrt n * isqrt n ≤ n ∧ n < (isqrt n + 1) * (isqrt n + 1) :=
  ⟨isqrtFrom_sq_le 214 (Nat.zero_le _), lt_isqrtFrom_sq 214 (by rwa [Nat.zero_add])⟩

/-- The root of at most the square of `m` rounds to at most `m`. -/
theorem sqrtMag_le {v m : Nat} (hm : m ≤ infMag) (h : v * 2 ^ 149 ≤ unitsOfMag m * unitsOfMag m) :
    sqrtMag v ≤ m := by
  have hr := isqrtFrom_sq_le (n := v * 2 ^ 149) 214 (r := 0) (Nat.zero_le _)
  change isqrt (v * 2 ^ 149) * isqrt (v * 2 ^ 149) ≤ _ at hr
  have hle : isqrt (v * 2 ^ 149) ≤ unitsOfMag m := Nat.mul_self_le_mul_self_iff.mp (hr.trans h)
  unfold sqrtMag
  simp only
  refine roundMag_le_of_le (by norm_num) hm ?_
  split
  · omega
  · rename_i hne
    have : isqrt (v * 2 ^ 149) ≠ unitsOfMag m := by
      rintro e
      exact hne (le_antisymm hr (by rw [e]; exact h))
    omega

end Sys2Proof.Machine
end

