-- ==== Sys2Proof/Laws/Float.lean ====
section
/-! SUPPORT. What each arithmetic primitive and comparison gives (R7, R8, R13): its value on finite
words, bounds that rounding keeps, and signs. -/

namespace Sys2Proof.Machine

/-! Values. -/

theorem units_nonneg_of_not_isNeg {a : Word} (h : isNeg a = false) : 0 ≤ units a := by
  simp [units, h]

theorem units_natAbs (a : Word) : (units a).natAbs = unitsOfMag (mag a) := by
  unfold units
  split <;> simp

theorem units_eq_zero_iff {a : Word} : units a = 0 ↔ mag a = 0 := by
  rw [← Int.natAbs_eq_zero, units_natAbs]
  exact unitsOfMag_inj (n := 0)

theorem units_neg_iff {a : Word} : units a < 0 ↔ isNeg a = true ∧ mag a ≠ 0 := by
  unfold units
  have := @unitsOfMag_pos (mag a)
  split <;> rename_i h <;> simp [h]
  omega

/-- A finite magnitude is below the infinite one in value. -/
theorem abs_units_lt_of_isFinite {a : Word} (h : isFinite a = true) :
    (units a).natAbs < unitsOfMag infMag := by
  rw [units_natAbs, unitsOfMag_lt_iff]
  simpa [isFinite] using h

theorem mag_le_of_not_isNaN {a : Word} (h : isNaN a = false) : mag a ≤ infMag := by
  simpa [isNaN] using h

theorem isNaN_pack {neg : Bool} {m : Nat} (h : m ≤ infMag) : isNaN (pack neg m) = false := by
  rw [isNaN, mag_pack (lt_of_le_of_lt h (by norm_num [infMag]))]
  simpa using h

theorem isFinite_of_bounds {a lo hi : Word} (hlo : isFinite lo = true)
    (hhi : isFinite hi = true) (h1 : units lo ≤ units a) (h2 : units a ≤ units hi) :
    isFinite a = true := by
  have l1 := abs_units_lt_of_isFinite hlo
  have l2 := abs_units_lt_of_isFinite hhi
  have : (units a).natAbs < unitsOfMag infMag := by omega
  rw [units_natAbs, unitsOfMag_lt_iff] at this
  simpa [isFinite] using this

/-! Comparisons as orders of the values. -/

theorem flt_iff {a b : Word} :
    flt a b = true ↔ isNaN a = false ∧ isNaN b = false ∧ units a < units b := by
  simp [flt, and_assoc]

theorem fle_iff {a b : Word} :
    fle a b = true ↔ isNaN a = false ∧ isNaN b = false ∧ units a ≤ units b := by
  simp [fle, and_assoc]

theorem feq_iff {a b : Word} :
    feq a b = true ↔ isNaN a = false ∧ isNaN b = false ∧ units a = units b := by
  simp [feq, and_assoc]

theorem fgt_iff {a b : Word} :
    fgt a b = true ↔ isNaN a = false ∧ isNaN b = false ∧ units b < units a := by
  rw [fgt, flt_iff]
  tauto

theorem fge_iff {a b : Word} :
    fge a b = true ↔ isNaN a = false ∧ isNaN b = false ∧ units b ≤ units a := by
  rw [fge, fle_iff]
  tauto

/-! Rounding an exact value. -/

theorem roundInt_zero (z : Bool) : roundInt 0 z = pack z 0 := rfl

theorem isNaN_roundInt (n : Int) (z : Bool) : isNaN (roundInt n z) = false := by
  unfold roundInt
  split
  · exact isNaN_pack (Nat.zero_le _)
  · exact isNaN_pack (roundMag_le _ _)

theorem mag_roundInt (n : Int) (z : Bool) : mag (roundInt n z) = roundMag n.natAbs 1 := by
  unfold roundInt
  split
  · rename_i h
    subst h
    rw [mag_pack (by norm_num)]
    exact (roundMag_zero one_pos).symm
  · exact mag_pack (roundMag_lt_two_pow _ _)

theorem units_roundInt (n : Int) (z : Bool) :
    units (roundInt n z) =
      if n < 0 then -(unitsOfMag (roundMag n.natAbs 1) : Int) else unitsOfMag (roundMag n.natAbs 1) := by
  unfold roundInt
  split
  · rename_i h
    subst h
    rw [units_pack (by norm_num)]
    simp [roundMag_zero one_pos]
  · rename_i h
    rw [units_pack (roundMag_lt_two_pow _ _)]
    simp

/-- A value at most that of a word rounds to at most it. -/
theorem units_roundInt_le {n : Int} {w : Word} (z : Bool) (hw : isNaN w = false)
    (h : n ≤ units w) : units (roundInt n z) ≤ units w := by
  have hm := mag_le_of_not_isNaN hw
  have ha := units_natAbs w
  rw [units_roundInt]
  by_cases hneg : n < 0
  · rw [if_pos hneg]
    rcases lt_or_ge (units w) 0 with hs | hs
    · have := le_roundMag_of_le (num := n.natAbs) one_pos hm (by omega)
      have := unitsOfMag_le_iff.mpr this
      omega
    · omega
  · rw [if_neg hneg]
    have := roundMag_le_of_le (num := n.natAbs) one_pos hm (by omega)
    have := unitsOfMag_le_iff.mpr this
    omega

/-- A value at least that of a word rounds to at least it. -/
theorem le_units_roundInt {n : Int} {w : Word} (z : Bool) (hw : isNaN w = false)
    (h : units w ≤ n) : units w ≤ units (roundInt n z) := by
  have hm := mag_le_of_not_isNaN hw
  have ha := units_natAbs w
  rw [units_roundInt]
  by_cases hneg : n < 0
  · rw [if_pos hneg]
    have := roundMag_le_of_le (num := n.natAbs) one_pos hm (by omega)
    have := unitsOfMag_le_iff.mpr this
    omega
  · rw [if_neg hneg]
    rcases lt_or_ge (units w) 0 with hs | hs
    · omega
    · have := le_roundMag_of_le (num := n.natAbs) one_pos hm (by omega)
      have := unitsOfMag_le_iff.mpr this
      omega

/-- The value of a word rounds to itself. -/
theorem units_roundInt_units {w : Word} (z : Bool) (hw : isNaN w = false) :
    units (roundInt (units w) z) = units w :=
  le_antisymm (units_roundInt_le z hw le_rfl) (le_units_roundInt z hw le_rfl)

theorem units_zero : units zero = 0 := by decide
theorem isNaN_zero : isNaN zero = false := by decide

theorem units_roundInt_nonneg {n : Int} (z : Bool) (h : 0 ≤ n) : 0 ≤ units (roundInt n z) := by
  have := le_units_roundInt (w := zero) (n := n) z isNaN_zero (by rw [units_zero]; exact h)
  rwa [units_zero] at this

theorem units_roundInt_nonpos {n : Int} (z : Bool) (h : n ≤ 0) : units (roundInt n z) ≤ 0 := by
  have := units_roundInt_le (w := zero) (n := n) z isNaN_zero (by rw [units_zero]; exact h)
  rwa [units_zero] at this

/-! The primitives on finite words. -/

theorem fadd_of_isFinite {a b : Word} (ha : isFinite a = true) (hb : isFinite b = true) :
    fadd a b = roundInt (units a + units b) (isNeg a && isNeg b) := by
  simp [fadd, isNaN_eq_false_of_isFinite, isInf_eq_false_of_isFinite, ha, hb]

theorem fsub_of_isFinite {a b : Word} (ha : isFinite a = true) (hb : isFinite b = true) :
    fsub a b = roundInt (units a - units b) (isNeg a && !isNeg b) := by
  rw [fsub, fadd_of_isFinite ha (by simpa using hb), units_fneg, isNeg_fneg, sub_eq_add_neg]

theorem fmul_of_isFinite {a b : Word} (ha : isFinite a = true) (hb : isFinite b = true) :
    fmul a b = pack (isNeg a != isNeg b)
      (roundMag (unitsOfMag (mag a) * unitsOfMag (mag b)) (2 ^ 149)) := by
  simp [fmul, isNaN_eq_false_of_isFinite, isInf_eq_false_of_isFinite, ha, hb]

theorem fdiv_of_isFinite {a b : Word} (ha : isFinite a = true) (hb : isFinite b = true)
    (h0 : mag b ≠ 0) :
    fdiv a b = pack (isNeg a != isNeg b)
      (roundMag (unitsOfMag (mag a) * 2 ^ 149) (unitsOfMag (mag b))) := by
  simp [fdiv, isNaN_eq_false_of_isFinite, isInf_eq_false_of_isFinite, ha, hb, h0]

theorem fsqrt_of_isFinite {a : Word} (ha : isFinite a = true) (hn : isNeg a = false)
    (h0 : mag a ≠ 0) : fsqrt a = pack false (sqrtMag (unitsOfMag (mag a))) := by
  simp [fsqrt, isNaN_eq_false_of_isFinite, isInf_eq_false_of_isFinite, ha, hn, h0]

/-! A NaN operand gives a NaN (R7). -/

theorem isNaN_fadd_left {a b : Word} (h : isNaN a = true) : isNaN (fadd a b) = true := by
  simp [fadd, h]

theorem isNaN_fadd_right {a b : Word} (h : isNaN b = true) : isNaN (fadd a b) = true := by
  simp [fadd, h]

theorem isNaN_fmul_left {a b : Word} (h : isNaN a = true) : isNaN (fmul a b) = true := by
  simp [fmul, h]

theorem isNaN_fmul_right {a b : Word} (h : isNaN b = true) : isNaN (fmul a b) = true := by
  simp [fmul, h]

theorem isNaN_fdiv_left {a b : Word} (h : isNaN a = true) : isNaN (fdiv a b) = true := by
  simp [fdiv, h]

theorem isNaN_fdiv_right {a b : Word} (h : isNaN b = true) : isNaN (fdiv a b) = true := by
  simp [fdiv, h]

theorem isNaN_fsqrt {a : Word} (h : isNaN a = true) : isNaN (fsqrt a) = true := by
  simp [fsqrt, h]

/-! Signs: what is not negative stays not negative, or becomes a NaN. -/

theorem nonNegOrNaN_of_isNaN {a : Word} (h : isNaN a = true) : nonNegOrNaN a = true := by
  simp [nonNegOrNaN, h]

theorem nonNegOrNaN_iff {a : Word} : nonNegOrNaN a = true ↔ isNaN a = true ∨ 0 ≤ units a := by
  rw [nonNegOrNaN, Bool.or_eq_true, fge_iff, units_zero]
  cases h : isNaN a <;> simp [isNaN_zero]

/-- Not negative means sign + or magnitude 0. -/
theorem units_nonneg_iff {a : Word} : 0 ≤ units a ↔ isNeg a = false ∨ mag a = 0 := by
  have := @units_neg_iff a
  cases hn : isNeg a
  · simp [units_nonneg_of_not_isNeg hn]
  · rw [hn] at this
    simp only [true_and] at this
    constructor
    · intro h
      right
      by_contra hc
      have := this.mpr hc
      omega
    · rintro (h | h)
      · cases h
      · rw [units_eq_zero_iff.mpr h]

theorem nonNegOrNaN_pack_false {m : Nat} (h : m < 2 ^ 31) : nonNegOrNaN (pack false m) = true := by
  rw [nonNegOrNaN_iff, units_pack h]
  right
  simp

theorem nonNegOrNaN_pack_zero (neg : Bool) : nonNegOrNaN (pack neg 0) = true := by
  cases neg <;> decide

theorem nonNegOrNaN_fmul_self (a : Word) : nonNegOrNaN (fmul a a) = true := by
  unfold fmul
  split
  · exact nonNegOrNaN_of_isNaN (isNaN_nanFor _ _ _)
  · split
    · split
      · exact nonNegOrNaN_of_isNaN (isNaN_nanFor _ _ _)
      · rw [bne_self_eq_false]
        exact nonNegOrNaN_pack_false (by norm_num [infMag])
    · rw [bne_self_eq_false]
      exact nonNegOrNaN_pack_false (roundMag_lt_two_pow _ _)

theorem nonNegOrNaN_fmul {a b : Word} (ha : nonNegOrNaN a = true) (hb : nonNegOrNaN b = true) :
    nonNegOrNaN (fmul a b) = true := by
  rw [nonNegOrNaN_iff] at ha hb
  rcases ha with ha | ha
  · exact nonNegOrNaN_of_isNaN (isNaN_fmul_left ha)
  rcases hb with hb | hb
  · exact nonNegOrNaN_of_isNaN (isNaN_fmul_right hb)
  rw [units_nonneg_iff] at ha hb
  unfold fmul
  split
  · exact nonNegOrNaN_of_isNaN (isNaN_nanFor _ _ _)
  · split
    · split
      · exact nonNegOrNaN_of_isNaN (isNaN_nanFor _ _ _)
      · rename_i h
        push Not at h
        have h1 : isNeg a = false := ha.resolve_right h.1
        have h2 : isNeg b = false := hb.resolve_right h.2
        rw [h1, h2]
        exact nonNegOrNaN_pack_false (by norm_num [infMag])
    · rcases ha with ha | ha
      · rcases hb with hb | hb
        · rw [ha, hb]
          exact nonNegOrNaN_pack_false (roundMag_lt_two_pow _ _)
        · rw [hb, unitsOfMag_zero, Nat.mul_zero, roundMag_zero (by positivity)]
          exact nonNegOrNaN_pack_zero _
      · rw [ha, unitsOfMag_zero, Nat.zero_mul, roundMag_zero (by positivity)]
        exact nonNegOrNaN_pack_zero _

theorem nonNegOrNaN_fadd {a b : Word} (ha : nonNegOrNaN a = true) (hb : nonNegOrNaN b = true) :
    nonNegOrNaN (fadd a b) = true := by
  rw [nonNegOrNaN_iff] at ha hb
  rcases ha with ha | ha
  · exact nonNegOrNaN_of_isNaN (isNaN_fadd_left ha)
  rcases hb with hb | hb
  · exact nonNegOrNaN_of_isNaN (isNaN_fadd_right hb)
  unfold fadd
  split
  · exact nonNegOrNaN_of_isNaN (isNaN_nanFor _ _ _)
  · split
    · split
      · exact nonNegOrNaN_of_isNaN (isNaN_nanFor _ _ _)
      · exact nonNegOrNaN_iff.mpr (.inr ha)
    · split
      · exact nonNegOrNaN_iff.mpr (.inr hb)
      · exact nonNegOrNaN_iff.mpr (.inr (units_roundInt_nonneg _ (by omega)))

theorem nonNegOrNaN_fsqrt {a : Word} (ha : nonNegOrNaN a = true) : nonNegOrNaN (fsqrt a) = true := by
  unfold fsqrt
  split
  · exact nonNegOrNaN_of_isNaN (isNaN_nanFor _ _ _)
  · split
    · exact ha
    · split
      · exact nonNegOrNaN_of_isNaN (isNaN_nanFor _ _ _)
      · split
        · exact ha
        · exact nonNegOrNaN_pack_false (roundMag_lt_two_pow _ _)

/-! `clamp` (R13). -/

theorem clamp_of_isNaN {x lo hi : Word} (h : isNaN x = true) : clamp x lo hi = x := by
  simp [clamp, flt, fgt, h]

/-- Between limits in order, `clamp` gives a value in the range, or a NaN back. -/
theorem inRangeOrNaN_clamp {x lo hi : Word} (h : fle lo hi = true) :
    inRangeOrNaN (clamp x lo hi) lo hi = true := by
  obtain ⟨hl, hh, hle⟩ := fle_iff.mp h
  unfold inRangeOrNaN
  cases hx : isNaN x
  · unfold clamp
    split
    · simp [fle, hl, hh, hle]
    · split
      · simp [fle, hl, hh, hle]
      · rename_i h1 h2
        simp only [flt_iff, fgt_iff, hx, hl, hh, true_and, not_lt] at h1 h2
        simp [fle, hx, hl, hh, h1, h2]
  · rw [clamp_of_isNaN hx, hx]
    rfl

end Sys2Proof.Machine
end

