-- ==== Sys2Proof/Laws/Bounds.lean ====
section
/-! SUPPORT. The bounds of R57 and R248: what the one-pole form, the root and the division of an AGC
sample keep finite, that a sample keeps `AgcRegs.Settled`, and that a measurement keeps ACC at least 0. -/

namespace Sys2Proof.Machine

/-! Finite values in a range. -/

/-- `x` is a finite word with a value in [0, `hi`] (in units). -/
structure Within (x : Word) (hi : Int) : Prop where
  finite : isFinite x = true
  nonneg : 0 ≤ units x
  le : units x ≤ hi

theorem units_eq_unitsOfMag {a : Word} (h : 0 ≤ units a) : units a = unitsOfMag (mag a) := by
  have := units_natAbs a
  omega

theorem within_iff {x w : Word} (hw : isFinite w = true) :
    (fge x zero = true ∧ fle x w = true) ↔ Within x (units w) := by
  rw [fge_iff, fle_iff, units_zero]
  constructor
  · rintro ⟨⟨-, -, h0⟩, hx, -, h1⟩
    refine ⟨isFinite_of_bounds (lo := zero) (hi := w) (by decide) hw ?_ h1, h0, h1⟩
    rwa [units_zero]
  · rintro ⟨hf, h0, h1⟩
    have := isNaN_eq_false_of_isFinite hf
    exact ⟨⟨this, isNaN_zero, h0⟩, this, isNaN_eq_false_of_isFinite hw, h1⟩

/-- A scaled 24-bit significand is a value of the format. -/
theorem exists_unitsOfMag_scaled : ∀ (j : Nat) {n : Nat}, n < 2 ^ 24 → ∃ m, unitsOfMag m = n * 2 ^ j
  | 0, n, h => ⟨n, by rw [unitsOfMag_of_lt h, pow_zero, Nat.mul_one]⟩
  | j + 1, n, h => by
    by_cases hn : 2 ^ 23 ≤ n
    · exact ⟨_, unitsOfMag_significand (.inr hn) h.le⟩
    · obtain ⟨m, hm⟩ := exists_unitsOfMag_scaled j (n := 2 * n) (by omega)
      exact ⟨m, by rw [hm, pow_succ]; ring⟩

/-- A value of the format scaled by a power of two is a value of the format. -/
theorem exists_unitsOfMag_mul (m k : Nat) : ∃ m', unitsOfMag m' = unitsOfMag m * 2 ^ k := by
  obtain ⟨e, n, rfl, hn, hlt⟩ := exists_significand m
  obtain ⟨m', h⟩ := exists_unitsOfMag_scaled (e + k) hlt
  exact ⟨m', by rw [h, unitsOfMag_significand hn hlt.le, pow_add, Nat.mul_assoc]⟩

theorem units_pack_nonneg {s : Bool} {m : Nat} (h : m < 2 ^ 31) (hs : s = true → m = 0) :
    units (pack s m) = unitsOfMag m := by
  rw [units_pack h]
  cases s
  · rfl
  · rw [hs rfl]; rfl

/-- A product of words that are not negative: its value is that of the rounded magnitude. -/
theorem units_fmul_nonneg {a b : Word} (ha : isFinite a = true) (hb : isFinite b = true)
    (ha0 : 0 ≤ units a) (hb0 : 0 ≤ units b) :
    units (fmul a b) = unitsOfMag (roundMag (unitsOfMag (mag a) * unitsOfMag (mag b)) (2 ^ 149)) := by
  rw [fmul_of_isFinite ha hb]
  refine units_pack_nonneg (roundMag_lt_two_pow _ _) fun hs => ?_
  rw [units_nonneg_iff] at ha0 hb0
  rcases ha0 with ha0 | ha0
  · rcases hb0 with hb0 | hb0
    · rw [ha0, hb0] at hs; cases hs
    · rw [hb0, unitsOfMag_zero, Nat.mul_zero, roundMag_zero (by positivity)]
  · rw [ha0, unitsOfMag_zero, Nat.zero_mul, roundMag_zero (by positivity)]

theorem units_infinity : unitsOfMag infMag = 2 ^ 277 := by decide +kernel

theorem isFinite_of_abs_units_lt {a : Word} (h : (units a).natAbs < 2 ^ 277) : isFinite a = true := by
  rw [units_natAbs, ← units_infinity, unitsOfMag_lt_iff] at h
  simpa [isFinite] using h

/-- A factor of at most 1 times a value of at most 2^k is at most that factor, scaled by 2^k. -/
theorem within_fmul {c x : Word} {k : Nat} (hk : k ≤ 126) (hc : Within c (2 ^ 149))
    (hx : Within x (2 ^ (149 + k))) : Within (fmul c x) (units c * 2 ^ k) := by
  have h := units_fmul_nonneg hc.finite hx.finite hc.nonneg hx.nonneg
  have hcu := units_eq_unitsOfMag hc.nonneg
  have hxu := units_eq_unitsOfMag hx.nonneg
  have hc1 : unitsOfMag (mag c) ≤ 2 ^ 149 := by have := hc.le; rw [hcu] at this; exact_mod_cast this
  have hx1 : unitsOfMag (mag x) ≤ 2 ^ (149 + k) := by
    have := hx.le; rw [hxu] at this; exact_mod_cast this
  obtain ⟨m, hm⟩ := exists_unitsOfMag_mul (mag c) k
  have hlt : unitsOfMag m < 2 ^ 277 := by
    have := Nat.mul_le_mul hc1 (Nat.pow_le_pow_right (n := 2) (by norm_num) hk)
    rw [hm]
    refine lt_of_le_of_lt this ?_
    rw [← pow_add, Nat.pow_lt_pow_iff_right (by norm_num)]
    norm_num
  have hm2 : m ≤ infMag := by
    rw [← unitsOfMag_le_iff, units_infinity]
    exact hlt.le
  have hr : roundMag (unitsOfMag (mag c) * unitsOfMag (mag x)) (2 ^ 149) ≤ m := by
    refine roundMag_le_of_le (by positivity) hm2 ?_
    rw [hm, Nat.mul_assoc, ← pow_add, Nat.add_comm k]
    exact Nat.mul_le_mul_left _ hx1
  have hr' := unitsOfMag_le_iff.mpr hr
  refine ⟨isFinite_of_abs_units_lt ?_, ?_, ?_⟩
  · rw [h]; omega
  · rw [h]; omega
  · rw [h, hcu]
    calc _ ≤ (unitsOfMag m : Int) := by exact_mod_cast hr'
      _ = _ := by rw [hm]; push_cast; rfl

/-- `1 - c` for `c` in [0, 1]: in [0, 1], and at most 2^-25 above the exact difference. -/
theorem within_one_sub {c : Word} (hc : Within c (2 ^ 149)) :
    Within (fsub one c) (2 ^ 149) ∧ units c + units (fsub one c) ≤ 2 ^ 149 + 2 ^ 124 := by
  have h1 : isFinite one = true := by decide
  have hu : units one = 2 ^ 149 := by decide +kernel
  have h := fsub_of_isFinite h1 hc.finite
  have h0 := hc.nonneg
  have hle := hc.le
  have hn : (units one - units c).natAbs ≤ 2 ^ (24 + 125) := by rw [hu]; omega
  have hv := units_roundInt (units one - units c) (isNeg one && !isNeg c)
  rw [if_neg (by omega), ← h] at hv
  have herr := unitsOfMag_roundMag_le hn (by norm_num)
  have hup := units_roundInt_le (n := units one - units c) (w := one) (isNeg one && !isNeg c)
    (by decide) (by omega)
  rw [← h, hu] at hup
  refine ⟨⟨isFinite_of_abs_units_lt ?_, ?_, hup⟩, ?_⟩
  · omega
  · omega
  · have hd : ((units one - units c).natAbs : Int) = 2 ^ 149 - units c := by rw [hu]; omega
    rw [hv]
    omega

theorem within_of_coefOk {c : Word} (h : coefOk c = true) : Within c (2 ^ 149) := by
  have hu : units one = 2 ^ 149 := by decide +kernel
  simp only [coefOk, Bool.and_eq_true] at h
  exact hu ▸ (within_iff (by decide)).mp ⟨h.1.2, h.2⟩

/-- A quarter of the last place above a power of two rounds down to it. -/
theorem roundMag_one_add_le (k : Nat) :
    roundMag ((2 ^ 149 + 2 ^ 124) * 2 ^ k) 1 ≤ (126 + k) * 2 ^ 23 + 2 ^ 23 := by
  have hN : (2 ^ 149 + 2 ^ 124) * 2 ^ k = (2 ^ 25 + 1) * 2 ^ (124 + k) := by rw [pow_add]; ring
  have hp := Nat.two_pow_pos (124 + k)
  have hx : excess ((2 ^ 25 + 1) * 2 ^ (124 + k)) 1 = 126 + k := by
    have h1 : 149 + k ≤ Nat.log2 ((2 ^ 25 + 1) * 2 ^ (124 + k)) := by
      rw [Nat.le_log2 (by omega), show 149 + k = 25 + (124 + k) by omega, pow_add 2 25]
      exact Nat.mul_le_mul_right _ (by norm_num)
    have h2 : Nat.log2 ((2 ^ 25 + 1) * 2 ^ (124 + k)) < 150 + k := by
      rw [Nat.log2_lt (by omega), show 150 + k = 26 + (124 + k) by omega, pow_add 2 26]
      exact Nat.mul_lt_mul_of_pos_right (by norm_num) hp
    unfold excess
    rw [Nat.div_one]
    omega
  have hq : nearestEven ((2 ^ 25 + 1) * 2 ^ (124 + k)) (1 * 2 ^ (126 + k)) ≤ 2 ^ 23 := by
    obtain ⟨-, hb⟩ := nearestEven_bounds ((2 ^ 25 + 1) * 2 ^ (124 + k))
      (Nat.mul_pos Nat.one_pos (Nat.two_pow_pos (126 + k)))
    rw [one_mul] at *
    rw [show 126 + k = 2 + (124 + k) by omega, pow_add 2 2] at *
    generalize 2 ^ (124 + k) = D at *
    generalize nearestEven ((2 ^ 25 + 1) * D) (2 ^ 2 * D) = q at *
    by_contra hc
    have : (2 ^ 23 + 1) * D ≤ q * D := Nat.mul_le_mul_right _ (by omega)
    have : q * (2 ^ 2 * D) = 4 * (q * D) := by ring
    omega
  rw [hN]
  unfold roundMag
  simp only [hx]
  omega

/-- The one-pole form keeps a bound 2^k: an average of two values in [0, 2^k] is in [0, 2^k] (R248). -/
theorem within_onePole {c old x : Word} {k : Nat} (hk : k ≤ 126) (hc : coefOk c = true)
    (ho : Within old (2 ^ (149 + k))) (hx : Within x (2 ^ (149 + k))) :
    Within (onePole c old x) (2 ^ (149 + k)) := by
  have hc' := within_of_coefOk hc
  obtain ⟨hd, hsum⟩ := within_one_sub hc'
  have h1 := within_fmul hk hc' ho
  have h2 := within_fmul hk hd hx
  have ha := fadd_of_isFinite h1.finite h2.finite
  have hn1 := h1.nonneg
  have hn2 := h2.nonneg
  have hv := units_roundInt (units (fmul c old) + units (fmul (fsub one c) x))
    (isNeg (fmul c old) && isNeg (fmul (fsub one c) x))
  rw [if_neg (by omega), ← ha] at hv
  have hle : units (fmul c old) + units (fmul (fsub one c) x) ≤ (2 ^ 149 + 2 ^ 124) * 2 ^ k :=
    calc _ ≤ units c * 2 ^ k + units (fsub one c) * 2 ^ k := Int.add_le_add h1.le h2.le
      _ = (units c + units (fsub one c)) * 2 ^ k := by ring
      _ ≤ _ := Int.mul_le_mul_of_nonneg_right hsum (by positivity)
  have hN : (units (fmul c old) + units (fmul (fsub one c) x)).natAbs ≤ (2 ^ 149 + 2 ^ 124) * 2 ^ k := by
    zify
    rwa [abs_of_nonneg (by omega)]
  have hb : unitsOfMag (roundMag (units (fmul c old) + units (fmul (fsub one c) x)).natAbs 1) ≤
      2 ^ (149 + k) := by
    have hm := roundMag_mono (n₁ := (units (fmul c old) + units (fmul (fsub one c) x)).natAbs)
      (n₂ := (2 ^ 149 + 2 ^ 124) * 2 ^ k) Nat.one_pos Nat.one_pos (by omega)
    have := unitsOfMag_le_iff.mpr (hm.trans (roundMag_one_add_le k))
    rwa [unitsOfMag_significand (.inr le_rfl) (by norm_num), ← pow_add,
      show 23 + (126 + k) = 149 + k by omega] at this
  have hlt : 2 ^ (149 + k) < 2 ^ 277 := by
    rw [Nat.pow_lt_pow_iff_right (by norm_num)]
    omega
  refine ⟨isFinite_of_abs_units_lt ?_, ?_, ?_⟩ <;> rw [onePole, hv]
  · rw [Int.natAbs_natCast]
    exact lt_of_le_of_lt hb hlt
  · omega
  · exact_mod_cast hb

/-- The root of a value in [0, w^2] is in [0, w]. -/
theorem within_fsqrt {x w : Word} {hi : Int} (hw : isFinite w = true) (hx : Within x hi)
    (hw0 : 0 ≤ units w) (h : hi * 2 ^ 149 ≤ units w * units w) : Within (fsqrt x) (units w) := by
  by_cases h0 : mag x = 0
  · have hs : fsqrt x = x := by simp [fsqrt, h0, isNaN_eq_false_of_isFinite hx.finite]
    have hu := units_eq_zero_iff.mpr h0
    rw [hs]
    exact ⟨hx.finite, hx.nonneg, by omega⟩
  · have hn : isNeg x = false := (units_nonneg_iff.mp hx.nonneg).resolve_right h0
    have hle : sqrtMag (unitsOfMag (mag x)) ≤ mag w := by
      refine sqrtMag_le (mag_le_of_not_isNaN (isNaN_eq_false_of_isFinite hw)) ?_
      zify
      rw [← units_eq_unitsOfMag hx.nonneg, ← units_eq_unitsOfMag hw0]
      exact le_trans (Int.mul_le_mul_of_nonneg_right hx.le (by norm_num)) h
    have hv : units (fsqrt x) = unitsOfMag (sqrtMag (unitsOfMag (mag x))) := by
      rw [fsqrt_of_isFinite hx.finite hn h0]
      exact units_pack_nonneg (lt_of_le_of_lt hle (mag_lt w)) (by simp)
    have hwu := units_eq_unitsOfMag hw0
    have hm := unitsOfMag_le_iff.mpr hle
    refine ⟨isFinite_of_bounds (lo := zero) (hi := w) (by decide) hw ?_ ?_, ?_, ?_⟩ <;>
      first
      | (rw [units_zero]; omega)
      | omega

/-- The square of an operand in `AgcRange` is at most 2^126 (R248). -/
theorem within_square {a : Word} (h : mag a < 0x5F000000) : Within (fmul a a) (2 ^ (149 + 126)) := by
  have hf : isFinite a = true := by
    rw [isFinite, decide_eq_true_eq]
    exact lt_of_lt_of_le h (by norm_num [infMag])
  have hm : roundMag (unitsOfMag (mag a) * unitsOfMag (mag a)) (2 ^ 149) ≤ 0x7E800000 := by
    refine roundMag_le_of_le (by positivity) (by norm_num [infMag]) ?_
    have hle := unitsOfMag_le_iff.mpr h.le
    have e1 : unitsOfMag 0x5F000000 = 2 ^ 212 := by decide +kernel
    have e2 : unitsOfMag 0x7E800000 = 2 ^ 212 * 2 ^ 63 := by decide +kernel
    rw [e1] at hle
    rw [e2, Nat.mul_assoc, ← pow_add]
    exact Nat.mul_le_mul hle hle
  have hv : units (fmul a a) = unitsOfMag (roundMag (unitsOfMag (mag a) * unitsOfMag (mag a)) (2 ^ 149)) := by
    rw [fmul_of_isFinite hf hf, bne_self_eq_false]
    exact units_pack_nonneg (roundMag_lt_two_pow _ _) (by simp)
  have hle := unitsOfMag_le_iff.mpr hm
  have e3 : unitsOfMag 0x7E800000 = 2 ^ (149 + 126) := by decide +kernel
  refine ⟨?_, ?_, ?_⟩
  · rw [fmul_of_isFinite hf hf, isFinite, mag_pack (roundMag_lt_two_pow _ _), decide_eq_true_eq]
    exact lt_of_le_of_lt hm (by norm_num [infMag])
  · rw [hv]; exact Int.natCast_nonneg _
  · rw [e3] at hle
    rw [hv]
    exact_mod_cast hle

/-- A finite word by a positive finite word is not a NaN. -/
theorem isNaN_fdiv_of_isFinite {a b : Word} (ha : isFinite a = true) (hb : isFinite b = true)
    (h0 : mag b ≠ 0) : isNaN (fdiv a b) = false := by
  rw [fdiv_of_isFinite ha hb h0]
  exact isNaN_pack (roundMag_le _ _)

/-- Between limits in order, `clamp` of what is not a NaN is in the range. -/
theorem clamp_inRange {x lo hi : Word} (h : fle lo hi = true) (hx : isNaN x = false) :
    fle lo (clamp x lo hi) = true ∧ fle (clamp x lo hi) hi = true := by
  obtain ⟨hl, hh, hle⟩ := fle_iff.mp h
  have hr := inRangeOrNaN_clamp (x := x) h
  have hn : isNaN (clamp x lo hi) = false := by
    unfold clamp
    split
    · exact hl
    · split
      · exact hh
      · exact hx
  simpa [inRangeOrNaN, hn] using hr

/-- The one-pole form of finite values with a coefficient in [0, 1] is not a NaN. -/
theorem isNaN_onePole {c old x : Word} (hc : coefOk c = true) (ho : isFinite old = true)
    (hx : isFinite x = true) : isNaN (onePole c old x) = false := by
  have hprod : ∀ {c y : Word}, Within c (2 ^ 149) → isFinite y = true → isFinite (fmul c y) = true := by
    intro c y hc hy
    have hcu := units_eq_unitsOfMag hc.nonneg
    have hc1 : unitsOfMag (mag c) ≤ 2 ^ 149 := by have := hc.le; rw [hcu] at this; exact_mod_cast this
    have hy' : mag y ≤ infMag := mag_le_of_not_isNaN (isNaN_eq_false_of_isFinite hy)
    have hr : roundMag (unitsOfMag (mag c) * unitsOfMag (mag y)) (2 ^ 149) ≤ mag y := by
      refine roundMag_le_of_le (by positivity) hy' ?_
      rw [Nat.mul_comm]
      exact Nat.mul_le_mul_left _ hc1
    rw [fmul_of_isFinite hc.finite hy, isFinite, mag_pack (roundMag_lt_two_pow _ _)]
    simp only [isFinite, decide_eq_true_eq] at hy ⊢
    omega
  have hc' := within_of_coefOk hc
  rw [onePole, fadd_of_isFinite (hprod hc' ho) (hprod (within_one_sub hc').1 hx)]
  exact isNaN_roundInt _ _

theorem isFinite_of_fle {lo x hi : Word} (hlo : isFinite lo = true) (hhi : isFinite hi = true)
    (h : fle lo x = true ∧ fle x hi = true) : isFinite x = true :=
  isFinite_of_bounds hlo hhi (fle_iff.mp h.1).2.2 (fle_iff.mp h.2).2.2

/-- A value in [0, 2^63] plus a positive finite one is finite and not zero. -/
theorem fadd_positive {x e : Word} (hx : Within x (2 ^ (149 + 63))) (he : isFinite e = true)
    (he0 : fgt e zero = true) : isFinite (fadd x e) = true ∧ mag (fadd x e) ≠ 0 := by
  obtain ⟨-, -, hpos⟩ := fgt_iff.mp he0
  rw [units_zero] at hpos
  have hadd := fadd_of_isFinite hx.finite he
  have h0 := hx.nonneg
  have hle : units x ≤ 2 ^ 212 := hx.le
  have hmax : unitsOfMag (infMag - 1) = (2 ^ 24 - 1) * 2 ^ 253 := by decide +kernel
  have hbe : unitsOfMag (mag e) ≤ (2 ^ 24 - 1) * 2 ^ 253 := by
    rw [← hmax, unitsOfMag_le_iff]
    rw [isFinite, decide_eq_true_eq] at he
    omega
  have hu := units_eq_unitsOfMag hpos.le
  constructor
  · rw [hadd, isFinite, mag_roundInt, decide_eq_true_eq, roundMag_lt_infMag_iff Nat.one_pos]
    omega
  · have hz := le_units_roundInt (n := units x + units e) (w := e) (isNeg x && isNeg e)
      (isNaN_eq_false_of_isFinite he) (by omega)
    rw [← hadd] at hz
    intro hm
    rw [units_eq_zero_iff.mpr hm] at hz
    omega

theorem coefOk_ite {c c' : Word} {b : Bool} (h : coefOk c = true) (h' : coefOk c' = true) :
    coefOk (if b then c else c') = true := by
  cases b <;> assumption

theorem units_two_pow_126 : units 0x7E800000#32 = 2 ^ (149 + 126) := by decide +kernel
theorem units_two_pow_63 : units 0x5F000000#32 = 2 ^ (149 + 63) := by decide +kernel

/-- A sample of R247 with an operand in `AgcRange` keeps the bounds of R248. -/
theorem settled_process {u : AgcRegs} {a : Word} (h : u.Settled) (hi : u.inited = true)
    (ha : AgcRange a = true) : (u.process a).Settled := by
  intro _
  obtain ⟨⟨ht, hmi, hma, he, he0, hmm⟩, ⟨ca, cr, cm⟩, hg, hr, hl⟩ := h hi
  rw [within_iff (by decide), units_two_pow_126] at hr
  rw [within_iff (by decide), units_two_pow_63] at hl
  have hR := within_onePole (by norm_num) cm hr (within_square (by simpa [AgcRange] using ha))
  have hS := within_fsqrt (w := 0x5F000000#32) (by decide) hR (by rw [units_two_pow_63]; positivity)
    (by rw [units_two_pow_63, ← pow_add, ← pow_add])
  rw [units_two_pow_63] at hS
  have hL := within_onePole (by norm_num)
    (coefOk_ite (b := fgt (fsqrt (onePole u.rmsC u.rmsbuf (fmul a a))) u.level) ca cr) hl hS
  have hLE := fadd_positive hL he he0
  have hdes := clamp_inRange hmm (isNaN_fdiv_of_isFinite ht hLE.1 hLE.2)
  refine ⟨⟨ht, hmi, hma, he, he0, hmm⟩, ⟨ca, cr, cm⟩, clamp_inRange hmm (isNaN_onePole
    (coefOk_ite ca cr) (isFinite_of_fle hmi hma hg) (isFinite_of_fle hmi hma hdes)), ?_, ?_⟩
  · rw [within_iff (by decide), units_two_pow_126]
    exact hR
  · rw [within_iff (by decide), units_two_pow_63]
    exact hL

/-- What AGC.INIT constructs is within the bounds of R248. -/
theorem settled_constructed {u u' : AgcRegs} (h : u.constructed = some u') : u'.Settled := by
  unfold AgcRegs.constructed at h
  split at h
  · rename_i hc
    simp only [AgcRegs.configOk, timeOk, Bool.and_eq_true] at hc
    cases h
    intro _
    have hmm : fle u.mingain u.maxgain = true := by tauto
    refine ⟨by tauto, by tauto, clamp_inRange hmm (by decide), ?_, ?_⟩
    · exact (by decide : fge zero zero = true ∧ fle zero 0x7E800000#32 = true)
    · exact (by decide : fge zero zero = true ∧ fle zero 0x5F000000#32 = true)
  · cases h

/-! ACC of a BS412 meter (R57). -/

theorem u2f_eq (n : Nat) : u2f n = pack false (roundMag (n * 2 ^ 149) 1) := by
  unfold u2f i2f roundInt
  split
  · rename_i h
    have : n = 0 := by omega
    rw [this, Nat.zero_mul, roundMag_zero Nat.one_pos]
  · have hn : ((n : Int) * 2 ^ 149).natAbs = n * 2 ^ 149 := by omega
    have hs : ¬(n : Int) * 2 ^ 149 < 0 := by omega
    rw [hn, decide_eq_false hs]

@[simp] theorem isNeg_u2f (n : Nat) : isNeg (u2f n) = false := by
  rw [u2f_eq, isNeg_pack (roundMag_lt_two_pow _ _)]

/-- A count that is not 0 is a positive finite value. -/
theorem u2f_positive {n : Nat} (h0 : n ≠ 0) (h : n < 2 ^ 32) :
    isFinite (u2f n) = true ∧ mag (u2f n) ≠ 0 := by
  rw [u2f_eq, isFinite, mag_pack (roundMag_lt_two_pow _ _), decide_eq_true_eq,
    roundMag_lt_infMag_iff Nat.one_pos]
  refine ⟨by omega, ?_⟩
  have := le_roundMag_of_le (num := n * 2 ^ 149) (m := 1) Nat.one_pos (by norm_num [infMag])
    (by rw [unitsOfMag_of_lt (by norm_num)]; omega)
  omega

/-- A value that is not negative by one of sign + is not negative, or a NaN. -/
theorem nonNegOrNaN_fdiv {a b : Word} (ha : nonNegOrNaN a = true) (hb : isNeg b = false) :
    nonNegOrNaN (fdiv a b) = true := by
  rw [nonNegOrNaN_iff] at ha
  rcases ha with ha | ha
  · exact nonNegOrNaN_of_isNaN (isNaN_fdiv_left ha)
  by_cases h0 : mag a = 0
  · have hi : isInf a = false := by simp [isInf, h0, infMag]
    unfold fdiv
    rw [hi, h0, unitsOfMag_zero, Nat.zero_mul]
    split
    · exact nonNegOrNaN_of_isNaN (isNaN_nanFor _ _ _)
    · split
      · contradiction
      · split
        · exact nonNegOrNaN_pack_zero _
        · split
          · simpa using nonNegOrNaN_of_isNaN (isNaN_nanFor _ _ _)
          · rename_i hm
            rw [roundMag_zero (unitsOfMag_pos.mpr (Nat.pos_of_ne_zero hm))]
            exact nonNegOrNaN_pack_zero _
  · have hn : isNeg a = false := (units_nonneg_iff.mp ha).resolve_right h0
    unfold fdiv
    rw [hn, hb]
    have hp : ∀ {m}, m < 2 ^ 31 → nonNegOrNaN (pack (false != false) m) = true :=
      fun h => nonNegOrNaN_pack_false h
    have hi : infMag < 2 ^ 31 := by norm_num [infMag]
    have hN := fun op => nonNegOrNaN_of_isNaN (isNaN_nanFor op a b)
    split
    · exact hN _
    · split
      · split
        · exact hN _
        · exact hp hi
      · split
        · exact hp (by norm_num)
        · split
          · exact hp hi
          · exact hp (roundMag_lt_two_pow _ _)

/-- A measurement keeps ACC at least 0 or a NaN (R57). -/
theorem nonNegOrNaN_measure {u : BsRegs} (a : Word) (h : nonNegOrNaN u.acc = true) :
    nonNegOrNaN (u.measure a).1.acc = true := by
  have hacc := nonNegOrNaN_fadd h (nonNegOrNaN_fmul_self a)
  unfold BsRegs.measure
  simp only
  split
  · exact nonNegOrNaN_fdiv hacc (isNeg_u2f _)
  · exact hacc

/-- The window never ends at a count of 0: its length is positive. -/
theorem count_ne_zero_of_full {u : BsRegs} {n : Word} (hf : isFinite u.srate = true)
    (h0 : fgt u.srate zero = true) (h : cmpUfGe n (fmul u.srate sixty) = true) : n.toNat ≠ 0 := by
  obtain ⟨-, -, hpos⟩ := fgt_iff.mp h0
  rw [units_zero] at hpos
  have h60 : units sixty = 60 * 2 ^ 149 := by decide +kernel
  have hv := units_fmul_nonneg (b := sixty) hf (by decide) hpos.le (by rw [h60]; norm_num)
  have hu := units_eq_unitsOfMag hpos.le
  have h60' := units_eq_unitsOfMag (a := sixty) (by rw [h60]; norm_num)
  have hm : 1 ≤ roundMag (unitsOfMag (mag u.srate) * unitsOfMag (mag sixty)) (2 ^ 149) := by
    refine le_roundMag_of_le (by positivity) (by norm_num [infMag]) ?_
    have e1 : unitsOfMag 1 = 1 := rfl
    have e2 : unitsOfMag (mag sixty) = 60 * 2 ^ 149 := by omega
    rw [e1, e2]
    have : 1 ≤ unitsOfMag (mag u.srate) := by omega
    nlinarith
  have hm' := unitsOfMag_pos.mpr hm
  simp only [cmpUfGe, Bool.and_eq_true, decide_eq_true_eq] at h
  intro hz
  rw [hz, hv] at h
  omega

/-- A measurement of a finite operand keeps ACC at least 0, and no NaN (R57). -/
theorem nonneg_measure {u : BsRegs} {a : Word} (hf : isFinite u.srate = true)
    (h0 : fgt u.srate zero = true) (ha : isFinite a = true) (h : fge u.acc zero = true) :
    fge (u.measure a).1.acc zero = true := by
  have hsq : isNaN (fmul a a) = false ∧ isNeg (fmul a a) = false := by
    rw [fmul_of_isFinite ha ha, bne_self_eq_false, isNeg_pack (roundMag_lt_two_pow _ _)]
    exact ⟨isNaN_pack (roundMag_le _ _), rfl⟩
  have hacc : isNaN u.acc = false := (fge_iff.mp h).1
  have hnn : nonNegOrNaN u.acc = true := by rw [nonNegOrNaN, h, Bool.or_true]
  have hge : ∀ {x : Word}, nonNegOrNaN x = true → isNaN x = false → fge x zero = true := by
    intro x hx hn
    simpa [nonNegOrNaN, hn] using hx
  have hsum : isNaN (fadd u.acc (fmul a a)) = false := by
    unfold fadd
    rw [hacc, hsq.1, hsq.2]
    simp only [Bool.or_self, Bool.false_eq_true, if_false]
    split
    · rename_i hi
      have hm : mag u.acc ≠ 0 := by
        rw [isInf, decide_eq_true_eq] at hi
        rw [hi]
        norm_num [infMag]
      have h0 : 0 ≤ units u.acc := by simpa [units_zero] using (fge_iff.mp h).2.2
      rw [(units_nonneg_iff.mp h0).resolve_right hm]
      simpa using hacc
    · split
      · exact hsq.1
      · exact isNaN_roundInt _ _
  have hs := nonNegOrNaN_fadd hnn (nonNegOrNaN_fmul_self a)
  unfold BsRegs.measure
  simp only
  split
  · rename_i hfull
    have hc := u2f_positive (count_ne_zero_of_full hf h0 hfull) (u.count + 1).isLt
    refine hge (nonNegOrNaN_fdiv hs (isNeg_u2f _)) ?_
    have hb : isNaN (u2f (u.count + 1).toNat) = false := isNaN_eq_false_of_isFinite hc.1
    have hi : isInf (u2f (u.count + 1).toNat) = false := isInf_eq_false_of_isFinite hc.1
    unfold fdiv
    rw [hsum, hb, hi]
    simp only [Bool.or_self, Bool.false_eq_true, if_false, hc.2]
    split
    · exact isNaN_pack le_rfl
    · exact isNaN_pack (roundMag_le _ _)
  · exact hge hs hsum

end Sys2Proof.Machine
end

