-- ==== Sys2Proof/Laws/Encoding.lean ====
section
/-! SUPPORT. The fields of a command word (R101), read back from the word that was built. -/

namespace Sys2Proof

theorem toNat_commandWord {u f i x g : Nat} (hu : u < 16) (hf : f < 16) (hi : i < 16)
    (hx : x < 4096) (hg : g < 256) :
    (commandWord u f i x g).toNat = u * 2 ^ 28 + f * 2 ^ 24 + i * 2 ^ 20 + x * 2 ^ 8 + g := by
  rw [commandWord, BitVec.toNat_ofNat, Nat.mod_eq_of_lt]
  omega

/-- The fields of a built word are the fields it was built from. -/
theorem fieldsOf_commandWord {u f i x g : Nat} (hu : u < 16) (hf : f < 16) (hi : i < 16)
    (hx : x < 4096) (hg : g < 256) : fieldsOf (commandWord u f i x g) = ⟨u, f, i, x, g⟩ := by
  simp only [fieldsOf, bits, toNat_commandWord hu hf hi hx hg, Fields.mk.injEq]
  refine ⟨?_, ?_, ?_, ?_, ?_⟩ <;> omega

/-- A word is built from its fields. -/
theorem commandWord_fieldsOf (w : Word) :
    commandWord (fieldsOf w).unit (fieldsOf w).func (fieldsOf w).inst (fieldsOf w).idx
      (fieldsOf w).flags = w := by
  apply BitVec.eq_of_toNat_eq
  have := w.isLt
  rw [toNat_commandWord] <;> simp only [fieldsOf, bits] <;> omega

/-- Every field fits its width. -/
theorem fieldsOf_lt (w : Word) :
    (fieldsOf w).unit < 16 ∧ (fieldsOf w).func < 16 ∧ (fieldsOf w).inst < 16 ∧
      (fieldsOf w).idx < 4096 ∧ (fieldsOf w).flags < 256 := by
  simp only [fieldsOf, bits]
  omega

/-! What each form of R105 accepts. -/

theorem plainForm_ok {f : Fields} {i j : Instr} :
    plainForm f i = .ok j ↔ (f.idx = 0 ∧ f.flags = 0) ∧ i = j := by
  unfold plainForm
  split <;> simp [*]

theorem indexForm_ok {f : Fields} {i : Nat → Instr} {j : Instr} :
    indexForm f i = .ok j ↔ f.flags = 0 ∧ i f.idx = j := by
  unfold indexForm
  split <;> simp [*]

theorem harmonicForm_ok {f : Fields} {i : Nat → Instr} {j : Instr} :
    harmonicForm f i = .ok j ↔ (f.idx < 256 ∧ f.flags = 0) ∧ i f.idx = j := by
  unfold harmonicForm
  split <;> simp [*]

theorem channelForm_ok {f : Fields} {i : Fin 8 → Instr} {j : Instr} :
    channelForm f i = .ok j ↔ ∃ h : f.idx < 8, f.flags = 0 ∧ i ⟨f.idx, h⟩ = j := by
  unfold channelForm
  split
  · split <;> simp [*]
  · simp [*]

theorem advanceForm_ok {f : Fields} {i : Bool → Instr} {j : Instr} :
    advanceForm f i = .ok j ↔ (f.idx = 0 ∧ f.flags < 2) ∧ i (f.flags == 1) = j := by
  unfold advanceForm
  split
  · simp [*]
  · rename_i h
    exact iff_of_false (by simp) fun hj => h hj.1

/-- The decoder on a word whose fields are known: cite this instead of unfolding `decode`. -/
theorem decode_of_fields {p : Packet} {f : Fields} (h : fieldsOf p.cmd = f) :
    decode p =
      match f.unit with
      | 0 => decodeSys f p.a
      | 1 => decodeOsc f p.a p.b
      | 2 => decodePre f p.a
      | 3 => decodeFlp f p.a
      | 4 => decodeFhp f p.a
      | 5 => decodeBq f p.a
      | 6 => decodeHil f p.a
      | 7 => decodeFm f p.a
      | 8 => decodeDsb f p.a
      | 9 => decodeMux f p.a p.b
      | 10 => decodeBs f p.a
      | 11 => decodeAgc f p.a
      | 12 => decodeAdd f p.a
      | 13 => decodeTilt f p.a
      | 14 => decodeDly f p.a
      | _ => .error .reservedUnit := by
  subst h
  rfl

end Sys2Proof
end

