-- ==== Sys2Proof/Laws/State.lean ====
section
/-! SUPPORT. What each update of the state leaves in each field. -/

namespace Sys2Proof.Machine

/-! Replacing a OSC instance. -/

@[simp] theorem State.putOsc_par (s : State) (n : Nat) (u : OscRegs) : (s.putOsc n u).par = s.par := rfl
@[simp] theorem State.putOsc_fault (s : State) (n : Nat) (u : OscRegs) : (s.putOsc n u).fault = s.fault := rfl
@[simp] theorem State.putOsc_cmdcnt (s : State) (n : Nat) (u : OscRegs) : (s.putOsc n u).cmdcnt = s.cmdcnt := rfl
@[simp] theorem State.putOsc_osc (s : State) (n : Nat) (u : OscRegs) : (s.putOsc n u).osc = s.osc.set n u := rfl
@[simp] theorem State.putOsc_pre (s : State) (n : Nat) (u : OscRegs) : (s.putOsc n u).pre = s.pre := rfl
@[simp] theorem State.putOsc_flp (s : State) (n : Nat) (u : OscRegs) : (s.putOsc n u).flp = s.flp := rfl
@[simp] theorem State.putOsc_fhp (s : State) (n : Nat) (u : OscRegs) : (s.putOsc n u).fhp = s.fhp := rfl
@[simp] theorem State.putOsc_bq (s : State) (n : Nat) (u : OscRegs) : (s.putOsc n u).bq = s.bq := rfl
@[simp] theorem State.putOsc_hil (s : State) (n : Nat) (u : OscRegs) : (s.putOsc n u).hil = s.hil := rfl
@[simp] theorem State.putOsc_fm (s : State) (n : Nat) (u : OscRegs) : (s.putOsc n u).fm = s.fm := rfl
@[simp] theorem State.putOsc_dsb (s : State) (n : Nat) (u : OscRegs) : (s.putOsc n u).dsb = s.dsb := rfl
@[simp] theorem State.putOsc_mux (s : State) (n : Nat) (u : OscRegs) : (s.putOsc n u).mux = s.mux := rfl
@[simp] theorem State.putOsc_bs (s : State) (n : Nat) (u : OscRegs) : (s.putOsc n u).bs = s.bs := rfl
@[simp] theorem State.putOsc_agc (s : State) (n : Nat) (u : OscRegs) : (s.putOsc n u).agc = s.agc := rfl
@[simp] theorem State.putOsc_add (s : State) (n : Nat) (u : OscRegs) : (s.putOsc n u).add = s.add := rfl
@[simp] theorem State.putOsc_tilt (s : State) (n : Nat) (u : OscRegs) : (s.putOsc n u).tilt = s.tilt := rfl
@[simp] theorem State.putOsc_dly (s : State) (n : Nat) (u : OscRegs) : (s.putOsc n u).dly = s.dly := rfl
@[simp] theorem State.putOsc_input (s : State) (n : Nat) (u : OscRegs) : (s.putOsc n u).input = s.input := rfl
@[simp] theorem State.putOsc_rsp (s : State) (n : Nat) (u : OscRegs) : (s.putOsc n u).rsp = s.rsp := rfl

/-! Replacing a PRE instance. -/

@[simp] theorem State.putPre_par (s : State) (n : Nat) (u : PreRegs) : (s.putPre n u).par = s.par := rfl
@[simp] theorem State.putPre_fault (s : State) (n : Nat) (u : PreRegs) : (s.putPre n u).fault = s.fault := rfl
@[simp] theorem State.putPre_cmdcnt (s : State) (n : Nat) (u : PreRegs) : (s.putPre n u).cmdcnt = s.cmdcnt := rfl
@[simp] theorem State.putPre_osc (s : State) (n : Nat) (u : PreRegs) : (s.putPre n u).osc = s.osc := rfl
@[simp] theorem State.putPre_pre (s : State) (n : Nat) (u : PreRegs) : (s.putPre n u).pre = s.pre.set n u := rfl
@[simp] theorem State.putPre_flp (s : State) (n : Nat) (u : PreRegs) : (s.putPre n u).flp = s.flp := rfl
@[simp] theorem State.putPre_fhp (s : State) (n : Nat) (u : PreRegs) : (s.putPre n u).fhp = s.fhp := rfl
@[simp] theorem State.putPre_bq (s : State) (n : Nat) (u : PreRegs) : (s.putPre n u).bq = s.bq := rfl
@[simp] theorem State.putPre_hil (s : State) (n : Nat) (u : PreRegs) : (s.putPre n u).hil = s.hil := rfl
@[simp] theorem State.putPre_fm (s : State) (n : Nat) (u : PreRegs) : (s.putPre n u).fm = s.fm := rfl
@[simp] theorem State.putPre_dsb (s : State) (n : Nat) (u : PreRegs) : (s.putPre n u).dsb = s.dsb := rfl
@[simp] theorem State.putPre_mux (s : State) (n : Nat) (u : PreRegs) : (s.putPre n u).mux = s.mux := rfl
@[simp] theorem State.putPre_bs (s : State) (n : Nat) (u : PreRegs) : (s.putPre n u).bs = s.bs := rfl
@[simp] theorem State.putPre_agc (s : State) (n : Nat) (u : PreRegs) : (s.putPre n u).agc = s.agc := rfl
@[simp] theorem State.putPre_add (s : State) (n : Nat) (u : PreRegs) : (s.putPre n u).add = s.add := rfl
@[simp] theorem State.putPre_tilt (s : State) (n : Nat) (u : PreRegs) : (s.putPre n u).tilt = s.tilt := rfl
@[simp] theorem State.putPre_dly (s : State) (n : Nat) (u : PreRegs) : (s.putPre n u).dly = s.dly := rfl
@[simp] theorem State.putPre_input (s : State) (n : Nat) (u : PreRegs) : (s.putPre n u).input = s.input := rfl
@[simp] theorem State.putPre_rsp (s : State) (n : Nat) (u : PreRegs) : (s.putPre n u).rsp = s.rsp := rfl

/-! Replacing a FLP instance. -/

@[simp] theorem State.putFlp_par (s : State) (n : Nat) (u : FirRegs) : (s.putFlp n u).par = s.par := rfl
@[simp] theorem State.putFlp_fault (s : State) (n : Nat) (u : FirRegs) : (s.putFlp n u).fault = s.fault := rfl
@[simp] theorem State.putFlp_cmdcnt (s : State) (n : Nat) (u : FirRegs) : (s.putFlp n u).cmdcnt = s.cmdcnt := rfl
@[simp] theorem State.putFlp_osc (s : State) (n : Nat) (u : FirRegs) : (s.putFlp n u).osc = s.osc := rfl
@[simp] theorem State.putFlp_pre (s : State) (n : Nat) (u : FirRegs) : (s.putFlp n u).pre = s.pre := rfl
@[simp] theorem State.putFlp_flp (s : State) (n : Nat) (u : FirRegs) : (s.putFlp n u).flp = s.flp.set n u := rfl
@[simp] theorem State.putFlp_fhp (s : State) (n : Nat) (u : FirRegs) : (s.putFlp n u).fhp = s.fhp := rfl
@[simp] theorem State.putFlp_bq (s : State) (n : Nat) (u : FirRegs) : (s.putFlp n u).bq = s.bq := rfl
@[simp] theorem State.putFlp_hil (s : State) (n : Nat) (u : FirRegs) : (s.putFlp n u).hil = s.hil := rfl
@[simp] theorem State.putFlp_fm (s : State) (n : Nat) (u : FirRegs) : (s.putFlp n u).fm = s.fm := rfl
@[simp] theorem State.putFlp_dsb (s : State) (n : Nat) (u : FirRegs) : (s.putFlp n u).dsb = s.dsb := rfl
@[simp] theorem State.putFlp_mux (s : State) (n : Nat) (u : FirRegs) : (s.putFlp n u).mux = s.mux := rfl
@[simp] theorem State.putFlp_bs (s : State) (n : Nat) (u : FirRegs) : (s.putFlp n u).bs = s.bs := rfl
@[simp] theorem State.putFlp_agc (s : State) (n : Nat) (u : FirRegs) : (s.putFlp n u).agc = s.agc := rfl
@[simp] theorem State.putFlp_add (s : State) (n : Nat) (u : FirRegs) : (s.putFlp n u).add = s.add := rfl
@[simp] theorem State.putFlp_tilt (s : State) (n : Nat) (u : FirRegs) : (s.putFlp n u).tilt = s.tilt := rfl
@[simp] theorem State.putFlp_dly (s : State) (n : Nat) (u : FirRegs) : (s.putFlp n u).dly = s.dly := rfl
@[simp] theorem State.putFlp_input (s : State) (n : Nat) (u : FirRegs) : (s.putFlp n u).input = s.input := rfl
@[simp] theorem State.putFlp_rsp (s : State) (n : Nat) (u : FirRegs) : (s.putFlp n u).rsp = s.rsp := rfl

/-! Replacing a FHP instance. -/

@[simp] theorem State.putFhp_par (s : State) (n : Nat) (u : FirRegs) : (s.putFhp n u).par = s.par := rfl
@[simp] theorem State.putFhp_fault (s : State) (n : Nat) (u : FirRegs) : (s.putFhp n u).fault = s.fault := rfl
@[simp] theorem State.putFhp_cmdcnt (s : State) (n : Nat) (u : FirRegs) : (s.putFhp n u).cmdcnt = s.cmdcnt := rfl
@[simp] theorem State.putFhp_osc (s : State) (n : Nat) (u : FirRegs) : (s.putFhp n u).osc = s.osc := rfl
@[simp] theorem State.putFhp_pre (s : State) (n : Nat) (u : FirRegs) : (s.putFhp n u).pre = s.pre := rfl
@[simp] theorem State.putFhp_flp (s : State) (n : Nat) (u : FirRegs) : (s.putFhp n u).flp = s.flp := rfl
@[simp] theorem State.putFhp_fhp (s : State) (n : Nat) (u : FirRegs) : (s.putFhp n u).fhp = s.fhp.set n u := rfl
@[simp] theorem State.putFhp_bq (s : State) (n : Nat) (u : FirRegs) : (s.putFhp n u).bq = s.bq := rfl
@[simp] theorem State.putFhp_hil (s : State) (n : Nat) (u : FirRegs) : (s.putFhp n u).hil = s.hil := rfl
@[simp] theorem State.putFhp_fm (s : State) (n : Nat) (u : FirRegs) : (s.putFhp n u).fm = s.fm := rfl
@[simp] theorem State.putFhp_dsb (s : State) (n : Nat) (u : FirRegs) : (s.putFhp n u).dsb = s.dsb := rfl
@[simp] theorem State.putFhp_mux (s : State) (n : Nat) (u : FirRegs) : (s.putFhp n u).mux = s.mux := rfl
@[simp] theorem State.putFhp_bs (s : State) (n : Nat) (u : FirRegs) : (s.putFhp n u).bs = s.bs := rfl
@[simp] theorem State.putFhp_agc (s : State) (n : Nat) (u : FirRegs) : (s.putFhp n u).agc = s.agc := rfl
@[simp] theorem State.putFhp_add (s : State) (n : Nat) (u : FirRegs) : (s.putFhp n u).add = s.add := rfl
@[simp] theorem State.putFhp_tilt (s : State) (n : Nat) (u : FirRegs) : (s.putFhp n u).tilt = s.tilt := rfl
@[simp] theorem State.putFhp_dly (s : State) (n : Nat) (u : FirRegs) : (s.putFhp n u).dly = s.dly := rfl
@[simp] theorem State.putFhp_input (s : State) (n : Nat) (u : FirRegs) : (s.putFhp n u).input = s.input := rfl
@[simp] theorem State.putFhp_rsp (s : State) (n : Nat) (u : FirRegs) : (s.putFhp n u).rsp = s.rsp := rfl

/-! Replacing a BQ instance. -/

@[simp] theorem State.putBq_par (s : State) (n : Nat) (u : BqRegs) : (s.putBq n u).par = s.par := rfl
@[simp] theorem State.putBq_fault (s : State) (n : Nat) (u : BqRegs) : (s.putBq n u).fault = s.fault := rfl
@[simp] theorem State.putBq_cmdcnt (s : State) (n : Nat) (u : BqRegs) : (s.putBq n u).cmdcnt = s.cmdcnt := rfl
@[simp] theorem State.putBq_osc (s : State) (n : Nat) (u : BqRegs) : (s.putBq n u).osc = s.osc := rfl
@[simp] theorem State.putBq_pre (s : State) (n : Nat) (u : BqRegs) : (s.putBq n u).pre = s.pre := rfl
@[simp] theorem State.putBq_flp (s : State) (n : Nat) (u : BqRegs) : (s.putBq n u).flp = s.flp := rfl
@[simp] theorem State.putBq_fhp (s : State) (n : Nat) (u : BqRegs) : (s.putBq n u).fhp = s.fhp := rfl
@[simp] theorem State.putBq_bq (s : State) (n : Nat) (u : BqRegs) : (s.putBq n u).bq = s.bq.set n u := rfl
@[simp] theorem State.putBq_hil (s : State) (n : Nat) (u : BqRegs) : (s.putBq n u).hil = s.hil := rfl
@[simp] theorem State.putBq_fm (s : State) (n : Nat) (u : BqRegs) : (s.putBq n u).fm = s.fm := rfl
@[simp] theorem State.putBq_dsb (s : State) (n : Nat) (u : BqRegs) : (s.putBq n u).dsb = s.dsb := rfl
@[simp] theorem State.putBq_mux (s : State) (n : Nat) (u : BqRegs) : (s.putBq n u).mux = s.mux := rfl
@[simp] theorem State.putBq_bs (s : State) (n : Nat) (u : BqRegs) : (s.putBq n u).bs = s.bs := rfl
@[simp] theorem State.putBq_agc (s : State) (n : Nat) (u : BqRegs) : (s.putBq n u).agc = s.agc := rfl
@[simp] theorem State.putBq_add (s : State) (n : Nat) (u : BqRegs) : (s.putBq n u).add = s.add := rfl
@[simp] theorem State.putBq_tilt (s : State) (n : Nat) (u : BqRegs) : (s.putBq n u).tilt = s.tilt := rfl
@[simp] theorem State.putBq_dly (s : State) (n : Nat) (u : BqRegs) : (s.putBq n u).dly = s.dly := rfl
@[simp] theorem State.putBq_input (s : State) (n : Nat) (u : BqRegs) : (s.putBq n u).input = s.input := rfl
@[simp] theorem State.putBq_rsp (s : State) (n : Nat) (u : BqRegs) : (s.putBq n u).rsp = s.rsp := rfl

/-! Replacing a HIL instance. -/

@[simp] theorem State.putHil_par (s : State) (n : Nat) (u : HilRegs) : (s.putHil n u).par = s.par := rfl
@[simp] theorem State.putHil_fault (s : State) (n : Nat) (u : HilRegs) : (s.putHil n u).fault = s.fault := rfl
@[simp] theorem State.putHil_cmdcnt (s : State) (n : Nat) (u : HilRegs) : (s.putHil n u).cmdcnt = s.cmdcnt := rfl
@[simp] theorem State.putHil_osc (s : State) (n : Nat) (u : HilRegs) : (s.putHil n u).osc = s.osc := rfl
@[simp] theorem State.putHil_pre (s : State) (n : Nat) (u : HilRegs) : (s.putHil n u).pre = s.pre := rfl
@[simp] theorem State.putHil_flp (s : State) (n : Nat) (u : HilRegs) : (s.putHil n u).flp = s.flp := rfl
@[simp] theorem State.putHil_fhp (s : State) (n : Nat) (u : HilRegs) : (s.putHil n u).fhp = s.fhp := rfl
@[simp] theorem State.putHil_bq (s : State) (n : Nat) (u : HilRegs) : (s.putHil n u).bq = s.bq := rfl
@[simp] theorem State.putHil_hil (s : State) (n : Nat) (u : HilRegs) : (s.putHil n u).hil = s.hil.set n u := rfl
@[simp] theorem State.putHil_fm (s : State) (n : Nat) (u : HilRegs) : (s.putHil n u).fm = s.fm := rfl
@[simp] theorem State.putHil_dsb (s : State) (n : Nat) (u : HilRegs) : (s.putHil n u).dsb = s.dsb := rfl
@[simp] theorem State.putHil_mux (s : State) (n : Nat) (u : HilRegs) : (s.putHil n u).mux = s.mux := rfl
@[simp] theorem State.putHil_bs (s : State) (n : Nat) (u : HilRegs) : (s.putHil n u).bs = s.bs := rfl
@[simp] theorem State.putHil_agc (s : State) (n : Nat) (u : HilRegs) : (s.putHil n u).agc = s.agc := rfl
@[simp] theorem State.putHil_add (s : State) (n : Nat) (u : HilRegs) : (s.putHil n u).add = s.add := rfl
@[simp] theorem State.putHil_tilt (s : State) (n : Nat) (u : HilRegs) : (s.putHil n u).tilt = s.tilt := rfl
@[simp] theorem State.putHil_dly (s : State) (n : Nat) (u : HilRegs) : (s.putHil n u).dly = s.dly := rfl
@[simp] theorem State.putHil_input (s : State) (n : Nat) (u : HilRegs) : (s.putHil n u).input = s.input := rfl
@[simp] theorem State.putHil_rsp (s : State) (n : Nat) (u : HilRegs) : (s.putHil n u).rsp = s.rsp := rfl

/-! Replacing a FM instance. -/

@[simp] theorem State.putFm_par (s : State) (n : Nat) (u : FmRegs) : (s.putFm n u).par = s.par := rfl
@[simp] theorem State.putFm_fault (s : State) (n : Nat) (u : FmRegs) : (s.putFm n u).fault = s.fault := rfl
@[simp] theorem State.putFm_cmdcnt (s : State) (n : Nat) (u : FmRegs) : (s.putFm n u).cmdcnt = s.cmdcnt := rfl
@[simp] theorem State.putFm_osc (s : State) (n : Nat) (u : FmRegs) : (s.putFm n u).osc = s.osc := rfl
@[simp] theorem State.putFm_pre (s : State) (n : Nat) (u : FmRegs) : (s.putFm n u).pre = s.pre := rfl
@[simp] theorem State.putFm_flp (s : State) (n : Nat) (u : FmRegs) : (s.putFm n u).flp = s.flp := rfl
@[simp] theorem State.putFm_fhp (s : State) (n : Nat) (u : FmRegs) : (s.putFm n u).fhp = s.fhp := rfl
@[simp] theorem State.putFm_bq (s : State) (n : Nat) (u : FmRegs) : (s.putFm n u).bq = s.bq := rfl
@[simp] theorem State.putFm_hil (s : State) (n : Nat) (u : FmRegs) : (s.putFm n u).hil = s.hil := rfl
@[simp] theorem State.putFm_fm (s : State) (n : Nat) (u : FmRegs) : (s.putFm n u).fm = s.fm.set n u := rfl
@[simp] theorem State.putFm_dsb (s : State) (n : Nat) (u : FmRegs) : (s.putFm n u).dsb = s.dsb := rfl
@[simp] theorem State.putFm_mux (s : State) (n : Nat) (u : FmRegs) : (s.putFm n u).mux = s.mux := rfl
@[simp] theorem State.putFm_bs (s : State) (n : Nat) (u : FmRegs) : (s.putFm n u).bs = s.bs := rfl
@[simp] theorem State.putFm_agc (s : State) (n : Nat) (u : FmRegs) : (s.putFm n u).agc = s.agc := rfl
@[simp] theorem State.putFm_add (s : State) (n : Nat) (u : FmRegs) : (s.putFm n u).add = s.add := rfl
@[simp] theorem State.putFm_tilt (s : State) (n : Nat) (u : FmRegs) : (s.putFm n u).tilt = s.tilt := rfl
@[simp] theorem State.putFm_dly (s : State) (n : Nat) (u : FmRegs) : (s.putFm n u).dly = s.dly := rfl
@[simp] theorem State.putFm_input (s : State) (n : Nat) (u : FmRegs) : (s.putFm n u).input = s.input := rfl
@[simp] theorem State.putFm_rsp (s : State) (n : Nat) (u : FmRegs) : (s.putFm n u).rsp = s.rsp := rfl

/-! Replacing a DSB instance. -/

@[simp] theorem State.putDsb_par (s : State) (n : Nat) (u : DsbRegs) : (s.putDsb n u).par = s.par := rfl
@[simp] theorem State.putDsb_fault (s : State) (n : Nat) (u : DsbRegs) : (s.putDsb n u).fault = s.fault := rfl
@[simp] theorem State.putDsb_cmdcnt (s : State) (n : Nat) (u : DsbRegs) : (s.putDsb n u).cmdcnt = s.cmdcnt := rfl
@[simp] theorem State.putDsb_osc (s : State) (n : Nat) (u : DsbRegs) : (s.putDsb n u).osc = s.osc := rfl
@[simp] theorem State.putDsb_pre (s : State) (n : Nat) (u : DsbRegs) : (s.putDsb n u).pre = s.pre := rfl
@[simp] theorem State.putDsb_flp (s : State) (n : Nat) (u : DsbRegs) : (s.putDsb n u).flp = s.flp := rfl
@[simp] theorem State.putDsb_fhp (s : State) (n : Nat) (u : DsbRegs) : (s.putDsb n u).fhp = s.fhp := rfl
@[simp] theorem State.putDsb_bq (s : State) (n : Nat) (u : DsbRegs) : (s.putDsb n u).bq = s.bq := rfl
@[simp] theorem State.putDsb_hil (s : State) (n : Nat) (u : DsbRegs) : (s.putDsb n u).hil = s.hil := rfl
@[simp] theorem State.putDsb_fm (s : State) (n : Nat) (u : DsbRegs) : (s.putDsb n u).fm = s.fm := rfl
@[simp] theorem State.putDsb_dsb (s : State) (n : Nat) (u : DsbRegs) : (s.putDsb n u).dsb = s.dsb.set n u := rfl
@[simp] theorem State.putDsb_mux (s : State) (n : Nat) (u : DsbRegs) : (s.putDsb n u).mux = s.mux := rfl
@[simp] theorem State.putDsb_bs (s : State) (n : Nat) (u : DsbRegs) : (s.putDsb n u).bs = s.bs := rfl
@[simp] theorem State.putDsb_agc (s : State) (n : Nat) (u : DsbRegs) : (s.putDsb n u).agc = s.agc := rfl
@[simp] theorem State.putDsb_add (s : State) (n : Nat) (u : DsbRegs) : (s.putDsb n u).add = s.add := rfl
@[simp] theorem State.putDsb_tilt (s : State) (n : Nat) (u : DsbRegs) : (s.putDsb n u).tilt = s.tilt := rfl
@[simp] theorem State.putDsb_dly (s : State) (n : Nat) (u : DsbRegs) : (s.putDsb n u).dly = s.dly := rfl
@[simp] theorem State.putDsb_input (s : State) (n : Nat) (u : DsbRegs) : (s.putDsb n u).input = s.input := rfl
@[simp] theorem State.putDsb_rsp (s : State) (n : Nat) (u : DsbRegs) : (s.putDsb n u).rsp = s.rsp := rfl

/-! Replacing a MUX instance. -/

@[simp] theorem State.putMux_par (s : State) (n : Nat) (u : MuxRegs) : (s.putMux n u).par = s.par := rfl
@[simp] theorem State.putMux_fault (s : State) (n : Nat) (u : MuxRegs) : (s.putMux n u).fault = s.fault := rfl
@[simp] theorem State.putMux_cmdcnt (s : State) (n : Nat) (u : MuxRegs) : (s.putMux n u).cmdcnt = s.cmdcnt := rfl
@[simp] theorem State.putMux_osc (s : State) (n : Nat) (u : MuxRegs) : (s.putMux n u).osc = s.osc := rfl
@[simp] theorem State.putMux_pre (s : State) (n : Nat) (u : MuxRegs) : (s.putMux n u).pre = s.pre := rfl
@[simp] theorem State.putMux_flp (s : State) (n : Nat) (u : MuxRegs) : (s.putMux n u).flp = s.flp := rfl
@[simp] theorem State.putMux_fhp (s : State) (n : Nat) (u : MuxRegs) : (s.putMux n u).fhp = s.fhp := rfl
@[simp] theorem State.putMux_bq (s : State) (n : Nat) (u : MuxRegs) : (s.putMux n u).bq = s.bq := rfl
@[simp] theorem State.putMux_hil (s : State) (n : Nat) (u : MuxRegs) : (s.putMux n u).hil = s.hil := rfl
@[simp] theorem State.putMux_fm (s : State) (n : Nat) (u : MuxRegs) : (s.putMux n u).fm = s.fm := rfl
@[simp] theorem State.putMux_dsb (s : State) (n : Nat) (u : MuxRegs) : (s.putMux n u).dsb = s.dsb := rfl
@[simp] theorem State.putMux_mux (s : State) (n : Nat) (u : MuxRegs) : (s.putMux n u).mux = s.mux.set n u := rfl
@[simp] theorem State.putMux_bs (s : State) (n : Nat) (u : MuxRegs) : (s.putMux n u).bs = s.bs := rfl
@[simp] theorem State.putMux_agc (s : State) (n : Nat) (u : MuxRegs) : (s.putMux n u).agc = s.agc := rfl
@[simp] theorem State.putMux_add (s : State) (n : Nat) (u : MuxRegs) : (s.putMux n u).add = s.add := rfl
@[simp] theorem State.putMux_tilt (s : State) (n : Nat) (u : MuxRegs) : (s.putMux n u).tilt = s.tilt := rfl
@[simp] theorem State.putMux_dly (s : State) (n : Nat) (u : MuxRegs) : (s.putMux n u).dly = s.dly := rfl
@[simp] theorem State.putMux_input (s : State) (n : Nat) (u : MuxRegs) : (s.putMux n u).input = s.input := rfl
@[simp] theorem State.putMux_rsp (s : State) (n : Nat) (u : MuxRegs) : (s.putMux n u).rsp = s.rsp := rfl

/-! Replacing a BS instance. -/

@[simp] theorem State.putBs_par (s : State) (n : Nat) (u : BsRegs) : (s.putBs n u).par = s.par := rfl
@[simp] theorem State.putBs_fault (s : State) (n : Nat) (u : BsRegs) : (s.putBs n u).fault = s.fault := rfl
@[simp] theorem State.putBs_cmdcnt (s : State) (n : Nat) (u : BsRegs) : (s.putBs n u).cmdcnt = s.cmdcnt := rfl
@[simp] theorem State.putBs_osc (s : State) (n : Nat) (u : BsRegs) : (s.putBs n u).osc = s.osc := rfl
@[simp] theorem State.putBs_pre (s : State) (n : Nat) (u : BsRegs) : (s.putBs n u).pre = s.pre := rfl
@[simp] theorem State.putBs_flp (s : State) (n : Nat) (u : BsRegs) : (s.putBs n u).flp = s.flp := rfl
@[simp] theorem State.putBs_fhp (s : State) (n : Nat) (u : BsRegs) : (s.putBs n u).fhp = s.fhp := rfl
@[simp] theorem State.putBs_bq (s : State) (n : Nat) (u : BsRegs) : (s.putBs n u).bq = s.bq := rfl
@[simp] theorem State.putBs_hil (s : State) (n : Nat) (u : BsRegs) : (s.putBs n u).hil = s.hil := rfl
@[simp] theorem State.putBs_fm (s : State) (n : Nat) (u : BsRegs) : (s.putBs n u).fm = s.fm := rfl
@[simp] theorem State.putBs_dsb (s : State) (n : Nat) (u : BsRegs) : (s.putBs n u).dsb = s.dsb := rfl
@[simp] theorem State.putBs_mux (s : State) (n : Nat) (u : BsRegs) : (s.putBs n u).mux = s.mux := rfl
@[simp] theorem State.putBs_bs (s : State) (n : Nat) (u : BsRegs) : (s.putBs n u).bs = s.bs.set n u := rfl
@[simp] theorem State.putBs_agc (s : State) (n : Nat) (u : BsRegs) : (s.putBs n u).agc = s.agc := rfl
@[simp] theorem State.putBs_add (s : State) (n : Nat) (u : BsRegs) : (s.putBs n u).add = s.add := rfl
@[simp] theorem State.putBs_tilt (s : State) (n : Nat) (u : BsRegs) : (s.putBs n u).tilt = s.tilt := rfl
@[simp] theorem State.putBs_dly (s : State) (n : Nat) (u : BsRegs) : (s.putBs n u).dly = s.dly := rfl
@[simp] theorem State.putBs_input (s : State) (n : Nat) (u : BsRegs) : (s.putBs n u).input = s.input := rfl
@[simp] theorem State.putBs_rsp (s : State) (n : Nat) (u : BsRegs) : (s.putBs n u).rsp = s.rsp := rfl

/-! Replacing a AGC instance. -/

@[simp] theorem State.putAgc_par (s : State) (n : Nat) (u : AgcRegs) : (s.putAgc n u).par = s.par := rfl
@[simp] theorem State.putAgc_fault (s : State) (n : Nat) (u : AgcRegs) : (s.putAgc n u).fault = s.fault := rfl
@[simp] theorem State.putAgc_cmdcnt (s : State) (n : Nat) (u : AgcRegs) : (s.putAgc n u).cmdcnt = s.cmdcnt := rfl
@[simp] theorem State.putAgc_osc (s : State) (n : Nat) (u : AgcRegs) : (s.putAgc n u).osc = s.osc := rfl
@[simp] theorem State.putAgc_pre (s : State) (n : Nat) (u : AgcRegs) : (s.putAgc n u).pre = s.pre := rfl
@[simp] theorem State.putAgc_flp (s : State) (n : Nat) (u : AgcRegs) : (s.putAgc n u).flp = s.flp := rfl
@[simp] theorem State.putAgc_fhp (s : State) (n : Nat) (u : AgcRegs) : (s.putAgc n u).fhp = s.fhp := rfl
@[simp] theorem State.putAgc_bq (s : State) (n : Nat) (u : AgcRegs) : (s.putAgc n u).bq = s.bq := rfl
@[simp] theorem State.putAgc_hil (s : State) (n : Nat) (u : AgcRegs) : (s.putAgc n u).hil = s.hil := rfl
@[simp] theorem State.putAgc_fm (s : State) (n : Nat) (u : AgcRegs) : (s.putAgc n u).fm = s.fm := rfl
@[simp] theorem State.putAgc_dsb (s : State) (n : Nat) (u : AgcRegs) : (s.putAgc n u).dsb = s.dsb := rfl
@[simp] theorem State.putAgc_mux (s : State) (n : Nat) (u : AgcRegs) : (s.putAgc n u).mux = s.mux := rfl
@[simp] theorem State.putAgc_bs (s : State) (n : Nat) (u : AgcRegs) : (s.putAgc n u).bs = s.bs := rfl
@[simp] theorem State.putAgc_agc (s : State) (n : Nat) (u : AgcRegs) : (s.putAgc n u).agc = s.agc.set n u := rfl
@[simp] theorem State.putAgc_add (s : State) (n : Nat) (u : AgcRegs) : (s.putAgc n u).add = s.add := rfl
@[simp] theorem State.putAgc_tilt (s : State) (n : Nat) (u : AgcRegs) : (s.putAgc n u).tilt = s.tilt := rfl
@[simp] theorem State.putAgc_dly (s : State) (n : Nat) (u : AgcRegs) : (s.putAgc n u).dly = s.dly := rfl
@[simp] theorem State.putAgc_input (s : State) (n : Nat) (u : AgcRegs) : (s.putAgc n u).input = s.input := rfl
@[simp] theorem State.putAgc_rsp (s : State) (n : Nat) (u : AgcRegs) : (s.putAgc n u).rsp = s.rsp := rfl

/-! Replacing a ADD instance. -/

@[simp] theorem State.putAdd_par (s : State) (n : Nat) (u : AddRegs) : (s.putAdd n u).par = s.par := rfl
@[simp] theorem State.putAdd_fault (s : State) (n : Nat) (u : AddRegs) : (s.putAdd n u).fault = s.fault := rfl
@[simp] theorem State.putAdd_cmdcnt (s : State) (n : Nat) (u : AddRegs) : (s.putAdd n u).cmdcnt = s.cmdcnt := rfl
@[simp] theorem State.putAdd_osc (s : State) (n : Nat) (u : AddRegs) : (s.putAdd n u).osc = s.osc := rfl
@[simp] theorem State.putAdd_pre (s : State) (n : Nat) (u : AddRegs) : (s.putAdd n u).pre = s.pre := rfl
@[simp] theorem State.putAdd_flp (s : State) (n : Nat) (u : AddRegs) : (s.putAdd n u).flp = s.flp := rfl
@[simp] theorem State.putAdd_fhp (s : State) (n : Nat) (u : AddRegs) : (s.putAdd n u).fhp = s.fhp := rfl
@[simp] theorem State.putAdd_bq (s : State) (n : Nat) (u : AddRegs) : (s.putAdd n u).bq = s.bq := rfl
@[simp] theorem State.putAdd_hil (s : State) (n : Nat) (u : AddRegs) : (s.putAdd n u).hil = s.hil := rfl
@[simp] theorem State.putAdd_fm (s : State) (n : Nat) (u : AddRegs) : (s.putAdd n u).fm = s.fm := rfl
@[simp] theorem State.putAdd_dsb (s : State) (n : Nat) (u : AddRegs) : (s.putAdd n u).dsb = s.dsb := rfl
@[simp] theorem State.putAdd_mux (s : State) (n : Nat) (u : AddRegs) : (s.putAdd n u).mux = s.mux := rfl
@[simp] theorem State.putAdd_bs (s : State) (n : Nat) (u : AddRegs) : (s.putAdd n u).bs = s.bs := rfl
@[simp] theorem State.putAdd_agc (s : State) (n : Nat) (u : AddRegs) : (s.putAdd n u).agc = s.agc := rfl
@[simp] theorem State.putAdd_add (s : State) (n : Nat) (u : AddRegs) : (s.putAdd n u).add = s.add.set n u := rfl
@[simp] theorem State.putAdd_tilt (s : State) (n : Nat) (u : AddRegs) : (s.putAdd n u).tilt = s.tilt := rfl
@[simp] theorem State.putAdd_dly (s : State) (n : Nat) (u : AddRegs) : (s.putAdd n u).dly = s.dly := rfl
@[simp] theorem State.putAdd_input (s : State) (n : Nat) (u : AddRegs) : (s.putAdd n u).input = s.input := rfl
@[simp] theorem State.putAdd_rsp (s : State) (n : Nat) (u : AddRegs) : (s.putAdd n u).rsp = s.rsp := rfl

/-! Replacing a TILT instance. -/

@[simp] theorem State.putTilt_par (s : State) (n : Nat) (u : TiltRegs) : (s.putTilt n u).par = s.par := rfl
@[simp] theorem State.putTilt_fault (s : State) (n : Nat) (u : TiltRegs) : (s.putTilt n u).fault = s.fault := rfl
@[simp] theorem State.putTilt_cmdcnt (s : State) (n : Nat) (u : TiltRegs) : (s.putTilt n u).cmdcnt = s.cmdcnt := rfl
@[simp] theorem State.putTilt_osc (s : State) (n : Nat) (u : TiltRegs) : (s.putTilt n u).osc = s.osc := rfl
@[simp] theorem State.putTilt_pre (s : State) (n : Nat) (u : TiltRegs) : (s.putTilt n u).pre = s.pre := rfl
@[simp] theorem State.putTilt_flp (s : State) (n : Nat) (u : TiltRegs) : (s.putTilt n u).flp = s.flp := rfl
@[simp] theorem State.putTilt_fhp (s : State) (n : Nat) (u : TiltRegs) : (s.putTilt n u).fhp = s.fhp := rfl
@[simp] theorem State.putTilt_bq (s : State) (n : Nat) (u : TiltRegs) : (s.putTilt n u).bq = s.bq := rfl
@[simp] theorem State.putTilt_hil (s : State) (n : Nat) (u : TiltRegs) : (s.putTilt n u).hil = s.hil := rfl
@[simp] theorem State.putTilt_fm (s : State) (n : Nat) (u : TiltRegs) : (s.putTilt n u).fm = s.fm := rfl
@[simp] theorem State.putTilt_dsb (s : State) (n : Nat) (u : TiltRegs) : (s.putTilt n u).dsb = s.dsb := rfl
@[simp] theorem State.putTilt_mux (s : State) (n : Nat) (u : TiltRegs) : (s.putTilt n u).mux = s.mux := rfl
@[simp] theorem State.putTilt_bs (s : State) (n : Nat) (u : TiltRegs) : (s.putTilt n u).bs = s.bs := rfl
@[simp] theorem State.putTilt_agc (s : State) (n : Nat) (u : TiltRegs) : (s.putTilt n u).agc = s.agc := rfl
@[simp] theorem State.putTilt_add (s : State) (n : Nat) (u : TiltRegs) : (s.putTilt n u).add = s.add := rfl
@[simp] theorem State.putTilt_tilt (s : State) (n : Nat) (u : TiltRegs) : (s.putTilt n u).tilt = s.tilt.set n u := rfl
@[simp] theorem State.putTilt_dly (s : State) (n : Nat) (u : TiltRegs) : (s.putTilt n u).dly = s.dly := rfl
@[simp] theorem State.putTilt_input (s : State) (n : Nat) (u : TiltRegs) : (s.putTilt n u).input = s.input := rfl
@[simp] theorem State.putTilt_rsp (s : State) (n : Nat) (u : TiltRegs) : (s.putTilt n u).rsp = s.rsp := rfl

/-! Replacing a DLY instance. -/

@[simp] theorem State.putDly_par (s : State) (n : Nat) (u : DlyRegs) : (s.putDly n u).par = s.par := rfl
@[simp] theorem State.putDly_fault (s : State) (n : Nat) (u : DlyRegs) : (s.putDly n u).fault = s.fault := rfl
@[simp] theorem State.putDly_cmdcnt (s : State) (n : Nat) (u : DlyRegs) : (s.putDly n u).cmdcnt = s.cmdcnt := rfl
@[simp] theorem State.putDly_osc (s : State) (n : Nat) (u : DlyRegs) : (s.putDly n u).osc = s.osc := rfl
@[simp] theorem State.putDly_pre (s : State) (n : Nat) (u : DlyRegs) : (s.putDly n u).pre = s.pre := rfl
@[simp] theorem State.putDly_flp (s : State) (n : Nat) (u : DlyRegs) : (s.putDly n u).flp = s.flp := rfl
@[simp] theorem State.putDly_fhp (s : State) (n : Nat) (u : DlyRegs) : (s.putDly n u).fhp = s.fhp := rfl
@[simp] theorem State.putDly_bq (s : State) (n : Nat) (u : DlyRegs) : (s.putDly n u).bq = s.bq := rfl
@[simp] theorem State.putDly_hil (s : State) (n : Nat) (u : DlyRegs) : (s.putDly n u).hil = s.hil := rfl
@[simp] theorem State.putDly_fm (s : State) (n : Nat) (u : DlyRegs) : (s.putDly n u).fm = s.fm := rfl
@[simp] theorem State.putDly_dsb (s : State) (n : Nat) (u : DlyRegs) : (s.putDly n u).dsb = s.dsb := rfl
@[simp] theorem State.putDly_mux (s : State) (n : Nat) (u : DlyRegs) : (s.putDly n u).mux = s.mux := rfl
@[simp] theorem State.putDly_bs (s : State) (n : Nat) (u : DlyRegs) : (s.putDly n u).bs = s.bs := rfl
@[simp] theorem State.putDly_agc (s : State) (n : Nat) (u : DlyRegs) : (s.putDly n u).agc = s.agc := rfl
@[simp] theorem State.putDly_add (s : State) (n : Nat) (u : DlyRegs) : (s.putDly n u).add = s.add := rfl
@[simp] theorem State.putDly_tilt (s : State) (n : Nat) (u : DlyRegs) : (s.putDly n u).tilt = s.tilt := rfl
@[simp] theorem State.putDly_dly (s : State) (n : Nat) (u : DlyRegs) : (s.putDly n u).dly = s.dly.set n u := rfl
@[simp] theorem State.putDly_input (s : State) (n : Nat) (u : DlyRegs) : (s.putDly n u).input = s.input := rfl
@[simp] theorem State.putDly_rsp (s : State) (n : Nat) (u : DlyRegs) : (s.putDly n u).rsp = s.rsp := rfl

/-! A completed command. -/

@[simp] theorem State.completed_par (s : State) (r0 r1 : Word) : (s.completed r0 r1).par = s.par := rfl
@[simp] theorem State.completed_fault (s : State) (r0 r1 : Word) : (s.completed r0 r1).fault = s.fault := rfl
@[simp] theorem State.completed_cmdcnt (s : State) (r0 r1 : Word) : (s.completed r0 r1).cmdcnt = s.cmdcnt + 1 := rfl
@[simp] theorem State.completed_osc (s : State) (r0 r1 : Word) : (s.completed r0 r1).osc = s.osc := rfl
@[simp] theorem State.completed_pre (s : State) (r0 r1 : Word) : (s.completed r0 r1).pre = s.pre := rfl
@[simp] theorem State.completed_flp (s : State) (r0 r1 : Word) : (s.completed r0 r1).flp = s.flp := rfl
@[simp] theorem State.completed_fhp (s : State) (r0 r1 : Word) : (s.completed r0 r1).fhp = s.fhp := rfl
@[simp] theorem State.completed_bq (s : State) (r0 r1 : Word) : (s.completed r0 r1).bq = s.bq := rfl
@[simp] theorem State.completed_hil (s : State) (r0 r1 : Word) : (s.completed r0 r1).hil = s.hil := rfl
@[simp] theorem State.completed_fm (s : State) (r0 r1 : Word) : (s.completed r0 r1).fm = s.fm := rfl
@[simp] theorem State.completed_dsb (s : State) (r0 r1 : Word) : (s.completed r0 r1).dsb = s.dsb := rfl
@[simp] theorem State.completed_mux (s : State) (r0 r1 : Word) : (s.completed r0 r1).mux = s.mux := rfl
@[simp] theorem State.completed_bs (s : State) (r0 r1 : Word) : (s.completed r0 r1).bs = s.bs := rfl
@[simp] theorem State.completed_agc (s : State) (r0 r1 : Word) : (s.completed r0 r1).agc = s.agc := rfl
@[simp] theorem State.completed_add (s : State) (r0 r1 : Word) : (s.completed r0 r1).add = s.add := rfl
@[simp] theorem State.completed_tilt (s : State) (r0 r1 : Word) : (s.completed r0 r1).tilt = s.tilt := rfl
@[simp] theorem State.completed_dly (s : State) (r0 r1 : Word) : (s.completed r0 r1).dly = s.dly := rfl
@[simp] theorem State.completed_input (s : State) (r0 r1 : Word) : (s.completed r0 r1).input = s.input := rfl
@[simp] theorem State.completed_rsp (s : State) (r0 r1 : Word) : (s.completed r0 r1).rsp = some ⟨.ok, r0, r1⟩ := rfl

/-! An error. -/

@[simp] theorem State.raised_par (s : State) (e : ErrorCode) : (s.raised e).par = s.par := rfl
@[simp] theorem State.raised_fault (s : State) (e : ErrorCode) : (s.raised e).fault = faultAfter s.fault e := rfl
@[simp] theorem State.raised_cmdcnt (s : State) (e : ErrorCode) : (s.raised e).cmdcnt = s.cmdcnt + 1 := rfl
@[simp] theorem State.raised_osc (s : State) (e : ErrorCode) : (s.raised e).osc = s.osc := rfl
@[simp] theorem State.raised_pre (s : State) (e : ErrorCode) : (s.raised e).pre = s.pre := rfl
@[simp] theorem State.raised_flp (s : State) (e : ErrorCode) : (s.raised e).flp = s.flp := rfl
@[simp] theorem State.raised_fhp (s : State) (e : ErrorCode) : (s.raised e).fhp = s.fhp := rfl
@[simp] theorem State.raised_bq (s : State) (e : ErrorCode) : (s.raised e).bq = s.bq := rfl
@[simp] theorem State.raised_hil (s : State) (e : ErrorCode) : (s.raised e).hil = s.hil := rfl
@[simp] theorem State.raised_fm (s : State) (e : ErrorCode) : (s.raised e).fm = s.fm := rfl
@[simp] theorem State.raised_dsb (s : State) (e : ErrorCode) : (s.raised e).dsb = s.dsb := rfl
@[simp] theorem State.raised_mux (s : State) (e : ErrorCode) : (s.raised e).mux = s.mux := rfl
@[simp] theorem State.raised_bs (s : State) (e : ErrorCode) : (s.raised e).bs = s.bs := rfl
@[simp] theorem State.raised_agc (s : State) (e : ErrorCode) : (s.raised e).agc = s.agc := rfl
@[simp] theorem State.raised_add (s : State) (e : ErrorCode) : (s.raised e).add = s.add := rfl
@[simp] theorem State.raised_tilt (s : State) (e : ErrorCode) : (s.raised e).tilt = s.tilt := rfl
@[simp] theorem State.raised_dly (s : State) (e : ErrorCode) : (s.raised e).dly = s.dly := rfl
@[simp] theorem State.raised_input (s : State) (e : ErrorCode) : (s.raised e).input = s.input := rfl
@[simp] theorem State.raised_rsp (s : State) (e : ErrorCode) : (s.raised e).rsp = some ⟨e, 0, 0⟩ := rfl

/-! Reset. -/

@[simp] theorem State.resetRegs_par (s : State) : s.resetRegs.par = s.par := rfl
@[simp] theorem State.resetRegs_fault (s : State) : s.resetRegs.fault = 0 := rfl
@[simp] theorem State.resetRegs_cmdcnt (s : State) : s.resetRegs.cmdcnt = 0 := rfl
@[simp] theorem State.resetRegs_osc (s : State) : s.resetRegs.osc = List.replicate s.osc.length OscRegs.reset := rfl
@[simp] theorem State.resetRegs_pre (s : State) : s.resetRegs.pre = List.replicate s.pre.length PreRegs.reset := rfl
@[simp] theorem State.resetRegs_flp (s : State) : s.resetRegs.flp = List.replicate s.flp.length (FirRegs.reset s.par.firTaps) := rfl
@[simp] theorem State.resetRegs_fhp (s : State) : s.resetRegs.fhp = List.replicate s.fhp.length (FirRegs.reset s.par.firTaps) := rfl
@[simp] theorem State.resetRegs_bq (s : State) : s.resetRegs.bq = List.replicate s.bq.length BqRegs.reset := rfl
@[simp] theorem State.resetRegs_hil (s : State) : s.resetRegs.hil = List.replicate s.hil.length HilRegs.reset := rfl
@[simp] theorem State.resetRegs_fm (s : State) : s.resetRegs.fm = List.replicate s.fm.length FmRegs.reset := rfl
@[simp] theorem State.resetRegs_dsb (s : State) : s.resetRegs.dsb = List.replicate s.dsb.length DsbRegs.reset := rfl
@[simp] theorem State.resetRegs_mux (s : State) : s.resetRegs.mux = List.replicate s.mux.length MuxRegs.reset := rfl
@[simp] theorem State.resetRegs_bs (s : State) : s.resetRegs.bs = List.replicate s.bs.length BsRegs.reset := rfl
@[simp] theorem State.resetRegs_agc (s : State) : s.resetRegs.agc = List.replicate s.agc.length AgcRegs.reset := rfl
@[simp] theorem State.resetRegs_add (s : State) : s.resetRegs.add = List.replicate s.add.length AddRegs.reset := rfl
@[simp] theorem State.resetRegs_tilt (s : State) : s.resetRegs.tilt = List.replicate s.tilt.length TiltRegs.reset := rfl
@[simp] theorem State.resetRegs_dly (s : State) : s.resetRegs.dly = List.replicate s.dly.length (DlyRegs.reset s.par.dlyCap) := rfl
@[simp] theorem State.resetRegs_input (s : State) : s.resetRegs.input = s.input := rfl
@[simp] theorem State.resetRegs_rsp (s : State) : s.resetRegs.rsp = s.rsp := rfl

@[simp] theorem State.portReset_par (s : State) : s.portReset.par = s.resetRegs.par := rfl
@[simp] theorem State.portReset_fault (s : State) : s.portReset.fault = s.resetRegs.fault := rfl
@[simp] theorem State.portReset_cmdcnt (s : State) : s.portReset.cmdcnt = s.resetRegs.cmdcnt := rfl
@[simp] theorem State.portReset_osc (s : State) : s.portReset.osc = s.resetRegs.osc := rfl
@[simp] theorem State.portReset_pre (s : State) : s.portReset.pre = s.resetRegs.pre := rfl
@[simp] theorem State.portReset_flp (s : State) : s.portReset.flp = s.resetRegs.flp := rfl
@[simp] theorem State.portReset_fhp (s : State) : s.portReset.fhp = s.resetRegs.fhp := rfl
@[simp] theorem State.portReset_bq (s : State) : s.portReset.bq = s.resetRegs.bq := rfl
@[simp] theorem State.portReset_hil (s : State) : s.portReset.hil = s.resetRegs.hil := rfl
@[simp] theorem State.portReset_fm (s : State) : s.portReset.fm = s.resetRegs.fm := rfl
@[simp] theorem State.portReset_dsb (s : State) : s.portReset.dsb = s.resetRegs.dsb := rfl
@[simp] theorem State.portReset_mux (s : State) : s.portReset.mux = s.resetRegs.mux := rfl
@[simp] theorem State.portReset_bs (s : State) : s.portReset.bs = s.resetRegs.bs := rfl
@[simp] theorem State.portReset_agc (s : State) : s.portReset.agc = s.resetRegs.agc := rfl
@[simp] theorem State.portReset_add (s : State) : s.portReset.add = s.resetRegs.add := rfl
@[simp] theorem State.portReset_tilt (s : State) : s.portReset.tilt = s.resetRegs.tilt := rfl
@[simp] theorem State.portReset_dly (s : State) : s.portReset.dly = s.resetRegs.dly := rfl
@[simp] theorem State.portReset_input (s : State) : s.portReset.input = s.resetRegs.input := rfl
@[simp] theorem State.portReset_rsp (s : State) : s.portReset.rsp = none := rfl

/-! Taking the host's next event. -/

@[simp] theorem State.withInput_par (s : State) (l : List HostEvent) : (s.withInput l).par = s.par := rfl
@[simp] theorem State.withInput_fault (s : State) (l : List HostEvent) : (s.withInput l).fault = s.fault := rfl
@[simp] theorem State.withInput_cmdcnt (s : State) (l : List HostEvent) : (s.withInput l).cmdcnt = s.cmdcnt := rfl
@[simp] theorem State.withInput_osc (s : State) (l : List HostEvent) : (s.withInput l).osc = s.osc := rfl
@[simp] theorem State.withInput_pre (s : State) (l : List HostEvent) : (s.withInput l).pre = s.pre := rfl
@[simp] theorem State.withInput_flp (s : State) (l : List HostEvent) : (s.withInput l).flp = s.flp := rfl
@[simp] theorem State.withInput_fhp (s : State) (l : List HostEvent) : (s.withInput l).fhp = s.fhp := rfl
@[simp] theorem State.withInput_bq (s : State) (l : List HostEvent) : (s.withInput l).bq = s.bq := rfl
@[simp] theorem State.withInput_hil (s : State) (l : List HostEvent) : (s.withInput l).hil = s.hil := rfl
@[simp] theorem State.withInput_fm (s : State) (l : List HostEvent) : (s.withInput l).fm = s.fm := rfl
@[simp] theorem State.withInput_dsb (s : State) (l : List HostEvent) : (s.withInput l).dsb = s.dsb := rfl
@[simp] theorem State.withInput_mux (s : State) (l : List HostEvent) : (s.withInput l).mux = s.mux := rfl
@[simp] theorem State.withInput_bs (s : State) (l : List HostEvent) : (s.withInput l).bs = s.bs := rfl
@[simp] theorem State.withInput_agc (s : State) (l : List HostEvent) : (s.withInput l).agc = s.agc := rfl
@[simp] theorem State.withInput_add (s : State) (l : List HostEvent) : (s.withInput l).add = s.add := rfl
@[simp] theorem State.withInput_tilt (s : State) (l : List HostEvent) : (s.withInput l).tilt = s.tilt := rfl
@[simp] theorem State.withInput_dly (s : State) (l : List HostEvent) : (s.withInput l).dly = s.dly := rfl
@[simp] theorem State.withInput_input (s : State) (l : List HostEvent) : (s.withInput l).input = l := rfl
@[simp] theorem State.withInput_rsp (s : State) (l : List HostEvent) : (s.withInput l).rsp = s.rsp := rfl

@[simp] theorem State.withInput_withInput (s : State) (l m : List HostEvent) :
    (s.withInput l).withInput m = s.withInput m := rfl

@[simp] theorem State.present_input (s : State) (p : Packet) :
    (s.present p).input = .command p :: s.input := rfl

/-! Writing a configuration register changes one unit's list only. -/

@[simp] theorem State.writeReg_par (s : State) (u : UnitId) (inst idx : Nat) (v : Word) :
    (s.writeReg u inst idx v).par = s.par := by
  cases u <;> rfl

@[simp] theorem State.writeReg_fault (s : State) (u : UnitId) (inst idx : Nat) (v : Word) :
    (s.writeReg u inst idx v).fault = s.fault := by
  cases u <;> rfl

@[simp] theorem State.writeReg_cmdcnt (s : State) (u : UnitId) (inst idx : Nat) (v : Word) :
    (s.writeReg u inst idx v).cmdcnt = s.cmdcnt := by
  cases u <;> rfl

@[simp] theorem State.writeReg_input (s : State) (u : UnitId) (inst idx : Nat) (v : Word) :
    (s.writeReg u inst idx v).input = s.input := by
  cases u <;> rfl

@[simp] theorem State.writeReg_rsp (s : State) (u : UnitId) (inst idx : Nat) (v : Word) :
    (s.writeReg u inst idx v).rsp = s.rsp := by
  cases u <;> rfl

end Sys2Proof.Machine
end

