-- ==== Sys2Proof/Laws/Ops.lean ====
section
/-! SUPPORT. What each shared operation over the state can lead to, said once: the provers cite these
and do not unfold the operations. -/

namespace Sys2Proof.Machine

@[simp] theorem finish_next {s t : State} {r0 r1 : Word} :
    finish s r0 r1 = .next t ↔ t = s.completed r0 r1 := by
  simp [finish, eq_comm]

@[simp] theorem raise_next {s t : State} {e : ErrorCode} :
    raise e s = .next t ↔ t = s.raised e := by
  simp [raise, eq_comm]

/-! The instance check (R294). -/

theorem withInstance_of_none {α : Type} {units : List α} {inst : Nat} {s : State} {k : α → Result}
    (h : units[inst]? = none) : withInstance units inst s k = .next (s.raised .badInstance) := by
  simp [withInstance, h, raise]

theorem withInstance_of_some {α : Type} {units : List α} {inst : Nat} {s : State} {k : α → Result}
    {u : α} (h : units[inst]? = some u) : withInstance units inst s k = k u := by
  simp [withInstance, h]

theorem withInstance_next {α : Type} {units : List α} {inst : Nat} {s t : State} {k : α → Result}
    (h : withInstance units inst s k = .next t) :
    (units[inst]? = none ∧ t = s.raised .badInstance) ∨ ∃ u, units[inst]? = some u ∧ k u = .next t := by
  cases hu : units[inst]? with
  | none => rw [withInstance_of_none hu] at h; exact .inl ⟨rfl, by simpa using h.symm⟩
  | some u => rw [withInstance_of_some hu] at h; exact .inr ⟨u, rfl, h⟩

/-! An operation (R294, R296). -/

theorem operate_of_none {α : Type} {units : List α} {inited : α → Bool} {inst : Nat} {s : State}
    {k : α → Result} (h : units[inst]? = none) :
    operate units inited inst s k = .next (s.raised .badInstance) :=
  withInstance_of_none h

theorem operate_of_not_inited {α : Type} {units : List α} {inited : α → Bool} {inst : Nat}
    {s : State} {k : α → Result} {u : α} (h : units[inst]? = some u) (hu : inited u = false) :
    operate units inited inst s k = .next (s.raised .notInit) := by
  simp [operate, withInstance_of_some h, hu, raise]

theorem operate_of_inited {α : Type} {units : List α} {inited : α → Bool} {inst : Nat}
    {s : State} {k : α → Result} {u : α} (h : units[inst]? = some u) (hu : inited u = true) :
    operate units inited inst s k = k u := by
  simp [operate, withInstance_of_some h, hu]

/-- An operation that answers a next state raised one of the two common errors, or ran on a
constructed instance. -/
theorem operate_next {α : Type} {units : List α} {inited : α → Bool} {inst : Nat} {s t : State}
    {k : α → Result} (h : operate units inited inst s k = .next t) :
    (∃ e, e ≠ .ok ∧ t = s.raised e) ∨
      ∃ u, units[inst]? = some u ∧ inited u = true ∧ k u = .next t := by
  obtain ⟨-, rfl⟩ | ⟨u, hu, hk⟩ := withInstance_next h
  · exact .inl ⟨_, by simp, rfl⟩
  · cases hi : inited u with
    | false => exact .inl ⟨.notInit, by simp, by simpa [hi] using hk⟩
    | true => exact .inr ⟨u, hu, hi, by simpa [hi] using hk⟩

/-! A select register (R296). -/

theorem withSelected_of_inited {α : Type} {units : List α} {inited : α → Bool} {sel : Word}
    {s : State} {k : α → Result} {u : α} (h : units[sel.toNat]? = some u) (hu : inited u = true) :
    withSelected units inited sel s k = k u := by
  simp [withSelected, h, hu]

theorem withSelected_of_not_inited {α : Type} {units : List α} {inited : α → Bool} {sel : Word}
    {s : State} {k : α → Result} {u : α} (h : units[sel.toNat]? = some u) (hu : inited u = false) :
    withSelected units inited sel s k = .next (s.raised .notInit) := by
  simp [withSelected, h, hu, raise]

theorem withSelected_next {α : Type} {units : List α} {inited : α → Bool} {sel : Word} {s t : State}
    {k : α → Result} (h : withSelected units inited sel s k = .next t) :
    (∃ e, e ≠ .ok ∧ t = s.raised e) ∨
      ∃ u, units[sel.toNat]? = some u ∧ inited u = true ∧ k u = .next t := by
  unfold withSelected at h
  cases hu : units[sel.toNat]? with
  | none => simp [hu] at h
  | some u =>
    cases hi : inited u with
    | false => exact .inl ⟨.notInit, by simp, by simpa [hu, hi] using h⟩
    | true => exact .inr ⟨u, rfl, hi, by simpa [hu, hi] using h⟩

/-! A construction (R297). -/

theorem construct_of_some {α : Type} {units : List α} {inst : Nat} {s : State}
    {init : α → Option α} {put : α → State} {u u' : α} (h : units[inst]? = some u)
    (hi : init u = some u') :
    construct units inst s init put = .next ((put u').completed 0 0) := by
  simp [construct, withInstance_of_some h, hi, finish]

theorem construct_of_failed {α : Type} {units : List α} {inst : Nat} {s : State}
    {init : α → Option α} {put : α → State} {u : α} (h : units[inst]? = some u)
    (hi : init u = none) :
    construct units inst s init put = .next (s.raised .configError) := by
  simp [construct, withInstance_of_some h, hi, raise]

theorem construct_next {α : Type} {units : List α} {inst : Nat} {s t : State}
    {init : α → Option α} {put : α → State} (h : construct units inst s init put = .next t) :
    (∃ e, e ≠ .ok ∧ t = s.raised e) ∨
      ∃ u u', units[inst]? = some u ∧ init u = some u' ∧ t = (put u').completed 0 0 := by
  obtain ⟨-, rfl⟩ | ⟨u, hu, hk⟩ := withInstance_next h
  · exact .inl ⟨_, by simp, rfl⟩
  · cases hi : init u with
    | none => exact .inl ⟨.configError, by simp, by simpa [hi] using hk⟩
    | some u' => exact .inr ⟨u, u', hu, hi, by simpa [hi] using hk⟩

/-- A construction always answers a next state. -/
theorem construct_answers {α : Type} {units : List α} {inst : Nat} {s : State}
    {init : α → Option α} {put : α → State} : ∃ t, construct units inst s init put = .next t := by
  cases hu : units[inst]? with
  | none => exact ⟨_, withInstance_of_none hu⟩
  | some u =>
    cases hi : init u with
    | none => exact ⟨_, construct_of_failed hu hi⟩
    | some u' => exact ⟨_, construct_of_some hu hi⟩

/-! The register accesses (R82). -/

/-- `RegRead`: an error, or the word at a mapped address. -/
theorem regRead_cases (s : State) (u : UnitId) (inst idx : Nat) :
    (∃ e, e ≠ .ok ∧ regRead s u inst idx = .error e) ∨
      ∃ c v, s.reg u inst idx = some (c, v) ∧ regRead s u inst idx = .ok v := by
  unfold regRead
  split
  · exact .inl ⟨_, by simp, rfl⟩
  · split
    · exact .inl ⟨_, by simp, rfl⟩
    · rename_i c v h
      exact .inr ⟨c, v, h, rfl⟩

/-- `RegWrite`: an error, or the state with a CFG register written. -/
theorem regWrite_cases (s : State) (u : UnitId) (inst idx : Nat) (v : Word) :
    (∃ e, e ≠ .ok ∧ regWrite s u inst idx v = .error e) ∨
      ∃ w, s.reg u inst idx = some (.cfg, w) ∧
        regWrite s u inst idx v = .ok (s.writeReg u inst idx v) := by
  unfold regWrite
  split
  · exact .inl ⟨_, by simp, rfl⟩
  · split
    · exact .inl ⟨_, by simp, rfl⟩
    · rename_i c w h
      split
      · rename_i hc
        exact .inr ⟨w, by rw [h, hc], rfl⟩
      · exact .inl ⟨_, by simp, rfl⟩

theorem readCommand_next {u : UnitId} {inst idx : Nat} {s t : State}
    (h : readCommand u inst idx s = .next t) :
    (∃ e, e ≠ .ok ∧ t = s.raised e) ∨
      ∃ c v, s.reg u inst idx = some (c, v) ∧ t = s.completed v 0 := by
  unfold readCommand at h
  obtain ⟨e, he, hr⟩ | ⟨c, v, hv, hr⟩ := regRead_cases s u inst idx
  · exact .inl ⟨e, he, by simpa [hr] using h⟩
  · exact .inr ⟨c, v, hv, by simpa [hr] using h⟩

theorem writeCommand_next {u : UnitId} {inst idx : Nat} {v : Word} {s t : State}
    (h : writeCommand u inst idx v s = .next t) :
    (∃ e, e ≠ .ok ∧ t = s.raised e) ∨
      ∃ w, s.reg u inst idx = some (.cfg, w) ∧ t = (s.writeReg u inst idx v).completed 0 0 := by
  unfold writeCommand at h
  obtain ⟨e, he, hr⟩ | ⟨w, hw, hr⟩ := regWrite_cases s u inst idx v
  · exact .inl ⟨e, he, by simpa [hr] using h⟩
  · exact .inr ⟨w, hw, by simpa [hr] using h⟩

theorem readCommand_answers (u : UnitId) (inst idx : Nat) (s : State) :
    ∃ t, readCommand u inst idx s = .next t := by
  unfold readCommand
  split <;> exact ⟨_, rfl⟩

theorem writeCommand_answers (u : UnitId) (inst idx : Nat) (v : Word) (s : State) :
    ∃ t, writeCommand u inst idx v s = .next t := by
  unfold writeCommand
  split <;> exact ⟨_, rfl⟩

end Sys2Proof.Machine
end

