-- ==== Sys2Proof/Laws/Instr.lean ====
section
/-! SUPPORT. What each command can lead to, said once: if it answers a next state, then an error was
raised from the state before it, or it completed as its rule says. -/

namespace Sys2Proof.Machine

/-! Operations. -/

theorem execOscSetf_next {inst : Nat} {a : Word} {s t : State} (h : execOscSetf inst a s = .next t) :
    (∃ e, e ≠ .ok ∧ t = s.raised e) ∨
      ∃ u, s.osc[inst]? = some u ∧ u.inited = true ∧
        t = (s.putOsc inst { u with pinc := oscIncrement a u.srate }).completed 0 0 := by
  obtain h | ⟨u, hu, hi, hk⟩ := operate_next h
  · exact .inl h
  · exact .inr ⟨u, hu, hi, by simpa using hk⟩

theorem execOscAdv_next {inst : Nat} {s t : State} (h : execOscAdv inst s = .next t) :
    (∃ e, e ≠ .ok ∧ t = s.raised e) ∨
      ∃ u, s.osc[inst]? = some u ∧ u.inited = true ∧
        t = (s.putOsc inst u.advance).completed 0 0 := by
  obtain h | ⟨u, hu, hi, hk⟩ := operate_next h
  · exact .inl h
  · exact .inr ⟨u, hu, hi, by simpa using hk⟩

theorem execOscSin_next {inst : Nat} {s t : State} (h : execOscSin inst s = .next t) :
    (∃ e, e ≠ .ok ∧ t = s.raised e) ∨
      ∃ u, s.osc[inst]? = some u ∧ u.inited = true ∧
        t = (s.putOsc inst u.advance).completed (Config.fsin u.phase) 0 := by
  obtain h | ⟨u, hu, hi, hk⟩ := operate_next h
  · exact .inl h
  · exact .inr ⟨u, hu, hi, by simpa using hk⟩

theorem execOscCos_next {inst : Nat} {s t : State} (h : execOscCos inst s = .next t) :
    (∃ e, e ≠ .ok ∧ t = s.raised e) ∨
      ∃ u, s.osc[inst]? = some u ∧ u.inited = true ∧
        t = (s.putOsc inst u.advance).completed (Config.fcos u.phase) 0 := by
  obtain h | ⟨u, hu, hi, hk⟩ := operate_next h
  · exact .inl h
  · exact .inr ⟨u, hu, hi, by simpa using hk⟩

theorem execOscSinh_next {inst : Nat} {k : Nat} {s t : State} (h : execOscSinh inst k s = .next t) :
    (∃ e, e ≠ .ok ∧ t = s.raised e) ∨
      ∃ u, s.osc[inst]? = some u ∧ u.inited = true ∧
        t = (s).completed (Config.fsin (harmonicArg u.phase k)) 0 := by
  obtain h | ⟨u, hu, hi, hk⟩ := operate_next h
  · exact .inl h
  · exact .inr ⟨u, hu, hi, by simpa using hk⟩

theorem execOscCosh_next {inst : Nat} {k : Nat} {s t : State} (h : execOscCosh inst k s = .next t) :
    (∃ e, e ≠ .ok ∧ t = s.raised e) ∨
      ∃ u, s.osc[inst]? = some u ∧ u.inited = true ∧
        t = (s).completed (Config.fcos (harmonicArg u.phase k)) 0 := by
  obtain h | ⟨u, hu, hi, hk⟩ := operate_next h
  · exact .inl h
  · exact .inr ⟨u, hu, hi, by simpa using hk⟩

theorem execPreStep_next {inst : Nat} {a : Word} {s t : State} (h : execPreStep inst a s = .next t) :
    (∃ e, e ≠ .ok ∧ t = s.raised e) ∨
      ∃ u, s.pre[inst]? = some u ∧ u.inited = true ∧
        t = (s.putPre inst { u with xprev := a }).completed (fmul (fsub a (fmul u.alpha u.xprev)) u.gain) 0 := by
  obtain h | ⟨u, hu, hi, hk⟩ := operate_next h
  · exact .inl h
  · exact .inr ⟨u, hu, hi, by simpa using hk⟩

theorem execTiltStep_next {inst : Nat} {a : Word} {s t : State} (h : execTiltStep inst a s = .next t) :
    (∃ e, e ≠ .ok ∧ t = s.raised e) ∨
      ∃ u, s.tilt[inst]? = some u ∧ u.inited = true ∧
        t = (s.putTilt inst { u with xprev := a, yprev := fadd (fmul u.alpha u.yprev) (fsub a u.xprev) }).completed (fadd (fmul u.alpha u.yprev) (fsub a u.xprev)) 0 := by
  obtain h | ⟨u, hu, hi, hk⟩ := operate_next h
  · exact .inl h
  · exact .inr ⟨u, hu, hi, by simpa using hk⟩

theorem execFlpStep_next {inst : Nat} {a : Word} {s t : State} (h : execFlpStep inst a s = .next t) :
    (∃ e, e ≠ .ok ∧ t = s.raised e) ∨
      ∃ u, s.flp[inst]? = some u ∧ u.inited = true ∧
        t = (s.putFlp inst (u.step s.par.firTaps a).1).completed (u.step s.par.firTaps a).2 0 := by
  obtain h | ⟨u, hu, hi, hk⟩ := operate_next h
  · exact .inl h
  · exact .inr ⟨u, hu, hi, by simpa using hk⟩

theorem execFhpStep_next {inst : Nat} {a : Word} {s t : State} (h : execFhpStep inst a s = .next t) :
    (∃ e, e ≠ .ok ∧ t = s.raised e) ∨
      ∃ u, s.fhp[inst]? = some u ∧ u.inited = true ∧
        t = (s.putFhp inst (u.step s.par.firTaps a).1).completed (u.step s.par.firTaps a).2 0 := by
  obtain h | ⟨u, hu, hi, hk⟩ := operate_next h
  · exact .inl h
  · exact .inr ⟨u, hu, hi, by simpa using hk⟩

theorem execBqStep_next {inst : Nat} {a : Word} {s t : State} (h : execBqStep inst a s = .next t) :
    (∃ e, e ≠ .ok ∧ t = s.raised e) ∨
      ∃ u, s.bq[inst]? = some u ∧ u.inited = true ∧
        t = (s.putBq inst { u with x2 := u.x1, x1 := a, y2 := u.y1, y1 := u.output a }).completed (u.output a) 0 := by
  obtain h | ⟨u, hu, hi, hk⟩ := operate_next h
  · exact .inl h
  · exact .inr ⟨u, hu, hi, by simpa using hk⟩

theorem execHilStep_next {inst : Nat} {a : Word} {s t : State} (h : execHilStep inst a s = .next t) :
    (∃ e, e ≠ .ok ∧ t = s.raised e) ∨
      ∃ u, s.hil[inst]? = some u ∧ u.inited = true ∧
        t = (s.putHil inst (u.step s.par.hilCoef a).regs).completed (u.step s.par.hilCoef a).i (u.step s.par.hilCoef a).q := by
  obtain h | ⟨u, hu, hi, hk⟩ := operate_next h
  · exact .inl h
  · exact .inr ⟨u, hu, hi, by simpa using hk⟩

theorem execDlySetd_next {inst : Nat} {a : Word} {s t : State} (h : execDlySetd inst a s = .next t) :
    (∃ e, e ≠ .ok ∧ t = s.raised e) ∨
      ∃ u, s.dly[inst]? = some u ∧ u.inited = true ∧
        t = (s.putDly inst (u.withDelay s.par.dlyCap (clampDelay a s.par.dlyCap))).completed (BitVec.ofNat 32 (clampDelay a s.par.dlyCap)) 0 := by
  obtain h | ⟨u, hu, hi, hk⟩ := operate_next h
  · exact .inl h
  · exact .inr ⟨u, hu, hi, by simpa using hk⟩

theorem execDlyPushpop_next {inst : Nat} {a : Word} {s t : State} (h : execDlyPushpop inst a s = .next t) :
    (∃ e, e ≠ .ok ∧ t = s.raised e) ∨
      ∃ u, s.dly[inst]? = some u ∧ u.inited = true ∧
        t = (s.putDly inst (u.pushPop s.par.dlyCap a).1).completed (u.pushPop s.par.dlyCap a).2 0 := by
  obtain h | ⟨u, hu, hi, hk⟩ := operate_next h
  · exact .inl h
  · exact .inr ⟨u, hu, hi, by simpa using hk⟩

theorem execBsMeas_next {inst : Nat} {a : Word} {s t : State} (h : execBsMeas inst a s = .next t) :
    (∃ e, e ≠ .ok ∧ t = s.raised e) ∨
      ∃ u, s.bs[inst]? = some u ∧ u.inited = true ∧
        t = (s.putBs inst (u.measure a).1).completed (u.measure a).2 0 := by
  obtain h | ⟨u, hu, hi, hk⟩ := operate_next h
  · exact .inl h
  · exact .inr ⟨u, hu, hi, by simpa using hk⟩

theorem execBsD2dbr_next {inst : Nat} {a : Word} {s t : State} (h : execBsD2dbr inst a s = .next t) :
    (∃ e, e ≠ .ok ∧ t = s.raised e) ∨
      ∃ u, s.bs[inst]? = some u ∧ u.inited = true ∧
        t = (s).completed (u.devToDbr a) 0 := by
  obtain h | ⟨u, hu, hi, hk⟩ := operate_next h
  · exact .inl h
  · exact .inr ⟨u, hu, hi, by simpa using hk⟩

theorem execBsDbr2d_next {inst : Nat} {a : Word} {s t : State} (h : execBsDbr2d inst a s = .next t) :
    (∃ e, e ≠ .ok ∧ t = s.raised e) ∨
      ∃ u, s.bs[inst]? = some u ∧ u.inited = true ∧
        t = (s).completed (u.dbrToDev a) 0 := by
  obtain h | ⟨u, hu, hi, hk⟩ := operate_next h
  · exact .inl h
  · exact .inr ⟨u, hu, hi, by simpa using hk⟩

theorem execBsRatio_next {inst : Nat} {a : Word} {s t : State} (h : execBsRatio inst a s = .next t) :
    (∃ e, e ≠ .ok ∧ t = s.raised e) ∨
      ∃ u, s.bs[inst]? = some u ∧ u.inited = true ∧
        t = (s).completed (u.ratio a) 0 := by
  obtain h | ⟨u, hu, hi, hk⟩ := operate_next h
  · exact .inl h
  · exact .inr ⟨u, hu, hi, by simpa using hk⟩

theorem execAgcProc_next {inst : Nat} {a : Word} {s t : State} (h : execAgcProc inst a s = .next t) :
    (∃ e, e ≠ .ok ∧ t = s.raised e) ∨
      ∃ u, s.agc[inst]? = some u ∧ u.inited = true ∧
        t = (s.putAgc inst (u.process a)).completed (u.process a).gain 0 := by
  obtain h | ⟨u, hu, hi, hk⟩ := operate_next h
  · exact .inl h
  · exact .inr ⟨u, hu, hi, by simpa using hk⟩

theorem execAddClr_next {inst : Nat} {s t : State} (h : execAddClr inst s = .next t) :
    (∃ e, e ≠ .ok ∧ t = s.raised e) ∨
      ∃ u, s.add[inst]? = some u ∧ u.inited = true ∧
        t = (s.putAdd inst { u with sum := zero }).completed 0 0 := by
  obtain h | ⟨u, hu, hi, hk⟩ := operate_next h
  · exact .inl h
  · exact .inr ⟨u, hu, hi, by simpa using hk⟩

theorem execAddOut_next {inst : Nat} {s t : State} (h : execAddOut inst s = .next t) :
    (∃ e, e ≠ .ok ∧ t = s.raised e) ∨
      ∃ u, s.add[inst]? = some u ∧ u.inited = true ∧
        t = (s).completed u.sum 0 := by
  obtain h | ⟨u, hu, hi, hk⟩ := operate_next h
  · exact .inl h
  · exact .inr ⟨u, hu, hi, by simpa using hk⟩

/-! Constructions. -/

theorem execOscInit_next {inst : Nat} {a b : Word} {s t : State} (h : execOscInit inst a b s = .next t) :
    (∃ e, e ≠ .ok ∧ t = s.raised e) ∨
      ∃ u, s.osc[inst]? = some u ∧ oscConfigOk a b = true ∧
        t = (s.putOsc inst ({ phase := zero, pinc := oscIncrement a b, srate := b, inited := true })).completed 0 0 := by
  obtain h | ⟨u, u', hu, hi, ht⟩ := construct_next h
  · exact .inl h
  · split at hi
    · rename_i hc
      cases hi
      exact .inr ⟨u, hu, hc, ht⟩
    · cases hi

theorem execPreInit_next {inst : Nat} {s t : State} (h : execPreInit inst s = .next t) :
    (∃ e, e ≠ .ok ∧ t = s.raised e) ∨
      ∃ u u', s.pre[inst]? = some u ∧ u.constructed = some u' ∧
        t = (s.putPre inst (u')).completed 0 0 := by
  obtain h | ⟨u, u', hu, hi, ht⟩ := construct_next h
  · exact .inl h
  · exact .inr ⟨u, u', hu, hi, ht⟩

theorem execTiltInit_next {inst : Nat} {s t : State} (h : execTiltInit inst s = .next t) :
    (∃ e, e ≠ .ok ∧ t = s.raised e) ∨
      ∃ u u', s.tilt[inst]? = some u ∧ u.constructed = some u' ∧
        t = (s.putTilt inst (u')).completed 0 0 := by
  obtain h | ⟨u, u', hu, hi, ht⟩ := construct_next h
  · exact .inl h
  · exact .inr ⟨u, u', hu, hi, ht⟩

theorem execFlpInit_next {inst : Nat} {s t : State} (h : execFlpInit inst s = .next t) :
    (∃ e, e ≠ .ok ∧ t = s.raised e) ∨
      ∃ u h, s.flp[inst]? = some u ∧ firKernel s.par.firTaps u.cutoff u.srate = some h ∧
        t = (s.putFlp inst (u.withKernel s.par.firTaps h)).completed 0 0 := by
  obtain h | ⟨u, u', hu, hi, ht⟩ := construct_next h
  · exact .inl h
  · obtain ⟨k, hk, rfl⟩ := Option.map_eq_some_iff.mp hi
    exact .inr ⟨u, k, hu, hk, ht⟩

theorem execFhpInit_next {inst : Nat} {s t : State} (h : execFhpInit inst s = .next t) :
    (∃ e, e ≠ .ok ∧ t = s.raised e) ∨
      ∃ u h, s.fhp[inst]? = some u ∧ firKernel s.par.firTaps u.cutoff u.srate = some h ∧
        t = (s.putFhp inst (u.withKernel s.par.firTaps (invertKernel s.par.firTaps h))).completed 0 0 := by
  obtain h | ⟨u, u', hu, hi, ht⟩ := construct_next h
  · exact .inl h
  · obtain ⟨k, hk, rfl⟩ := Option.map_eq_some_iff.mp hi
    exact .inr ⟨u, k, hu, hk, ht⟩

theorem execBqInit_next {inst : Nat} {s t : State} (h : execBqInit inst s = .next t) :
    (∃ e, e ≠ .ok ∧ t = s.raised e) ∨
      ∃ u u', s.bq[inst]? = some u ∧ u.constructed = some u' ∧
        t = (s.putBq inst (u')).completed 0 0 := by
  obtain h | ⟨u, u', hu, hi, ht⟩ := construct_next h
  · exact .inl h
  · exact .inr ⟨u, u', hu, hi, ht⟩

theorem execHilInit_next {inst : Nat} {s t : State} (h : execHilInit inst s = .next t) :
    (∃ e, e ≠ .ok ∧ t = s.raised e) ∨
      ∃ u, s.hil[inst]? = some u ∧
        t = (s.putHil inst (u.constructed)).completed 0 0 := by
  obtain h | ⟨u, u', hu, hi, ht⟩ := construct_next h
  · exact .inl h
  · cases hi
    exact .inr ⟨u, hu, ht⟩

theorem execDlyInit_next {inst : Nat} {s t : State} (h : execDlyInit inst s = .next t) :
    (∃ e, e ≠ .ok ∧ t = s.raised e) ∨
      ∃ u, s.dly[inst]? = some u ∧
        t = (s.putDly inst (u.constructed s.par.dlyCap)).completed 0 0 := by
  obtain h | ⟨u, u', hu, hi, ht⟩ := construct_next h
  · exact .inl h
  · cases hi
    exact .inr ⟨u, hu, ht⟩

theorem execFmInit_next {inst : Nat} {s t : State} (h : execFmInit inst s = .next t) :
    (∃ e, e ≠ .ok ∧ t = s.raised e) ∨
      ∃ u u', s.fm[inst]? = some u ∧ u.constructed s.osc.length = some u' ∧
        t = (s.putFm inst (u')).completed 0 0 := by
  obtain h | ⟨u, u', hu, hi, ht⟩ := construct_next h
  · exact .inl h
  · exact .inr ⟨u, u', hu, hi, ht⟩

theorem execDsbInit_next {inst : Nat} {s t : State} (h : execDsbInit inst s = .next t) :
    (∃ e, e ≠ .ok ∧ t = s.raised e) ∨
      ∃ u, s.dsb[inst]? = some u ∧ u.configOk s.osc.length = true ∧
        t = (s.putDsb inst ({ u with inited := true })).completed 0 0 := by
  obtain h | ⟨u, u', hu, hi, ht⟩ := construct_next h
  · exact .inl h
  · split at hi
    · rename_i hc
      cases hi
      exact .inr ⟨u, hu, hc, ht⟩
    · cases hi

theorem execMuxInit_next {inst : Nat} {s t : State} (h : execMuxInit inst s = .next t) :
    (∃ e, e ≠ .ok ∧ t = s.raised e) ∨
      ∃ u, s.mux[inst]? = some u ∧ u.configOk s.osc.length s.hil.length s.dly.length = true ∧
        t = (s.putMux inst ({ u with inited := true })).completed 0 0 := by
  obtain h | ⟨u, u', hu, hi, ht⟩ := construct_next h
  · exact .inl h
  · split at hi
    · rename_i hc
      cases hi
      exact .inr ⟨u, hu, hc, ht⟩
    · cases hi

theorem execBsInit_next {inst : Nat} {s t : State} (h : execBsInit inst s = .next t) :
    (∃ e, e ≠ .ok ∧ t = s.raised e) ∨
      ∃ u u', s.bs[inst]? = some u ∧ u.constructed = some u' ∧
        t = (s.putBs inst (u')).completed 0 0 := by
  obtain h | ⟨u, u', hu, hi, ht⟩ := construct_next h
  · exact .inl h
  · exact .inr ⟨u, u', hu, hi, ht⟩

theorem execAgcInit_next {inst : Nat} {s t : State} (h : execAgcInit inst s = .next t) :
    (∃ e, e ≠ .ok ∧ t = s.raised e) ∨
      ∃ u u', s.agc[inst]? = some u ∧ u.constructed = some u' ∧
        t = (s.putAgc inst (u')).completed 0 0 := by
  obtain h | ⟨u, u', hu, hi, ht⟩ := construct_next h
  · exact .inl h
  · exact .inr ⟨u, u', hu, hi, ht⟩

theorem execAddInit_next {inst : Nat} {s t : State} (h : execAddInit inst s = .next t) :
    (∃ e, e ≠ .ok ∧ t = s.raised e) ∨
      ∃ u u', s.add[inst]? = some u ∧ u.constructed s.osc.length = some u' ∧
        t = (s.putAdd inst (u')).completed 0 0 := by
  obtain h | ⟨u, u', hu, hi, ht⟩ := construct_next h
  · exact .inl h
  · exact .inr ⟨u, u', hu, hi, ht⟩

/-! SYS. -/

theorem execSysRst_next {inst : Nat} {s t : State} (h : execSysRst inst s = .next t) :
    (∃ e, e ≠ .ok ∧ t = s.raised e) ∨
      (inst = 0 ∧ t = { s.resetRegs with rsp := some ⟨.ok, 0, 0⟩ }) := by
  unfold execSysRst at h
  split at h
  · exact .inl ⟨.badInstance, by simp, by simpa using h⟩
  · rename_i hi
    exact .inr ⟨by omega, by simpa using h.symm⟩

theorem execSysNop_next {inst : Nat} {s t : State} (h : execSysNop inst s = .next t) :
    (∃ e, e ≠ .ok ∧ t = s.raised e) ∨ (inst = 0 ∧ t = s.completed 0 0) := by
  unfold execSysNop at h
  split at h
  · exact .inl ⟨.badInstance, by simp, by simpa using h⟩
  · rename_i hi
    exact .inr ⟨by omega, by simpa using h⟩

/-! Commands with a select register. -/

theorem execFmMod_next {inst : Nat} {a : Word} {s t : State} (h : execFmMod inst a s = .next t) :
    (∃ e, e ≠ .ok ∧ t = s.raised e) ∨
      ∃ u, s.fm[inst]? = some u ∧ u.inited = true ∧
        ((u.shared = 0 ∧ t = (s.putFm inst { u with phase := u.nextPhase a }).completed
            (Config.fsin (u.nextPhase a)) 0) ∨
          (u.shared ≠ 0 ∧ ∃ o, s.osc[u.oscsel.toNat]? = some o ∧ o.inited = true ∧
            t = (s.putOsc u.oscsel.toNat
              { o with pinc := oscIncrement (u.frequency a) o.srate }).completed
                (Config.fsin o.phase) 0)) := by
  obtain h | ⟨u, hu, hi, hk⟩ := operate_next h
  · exact .inl h
  · by_cases hs : u.shared = 0
    · exact .inr ⟨u, hu, hi, .inl ⟨hs, by simpa [hs] using hk⟩⟩
    · simp only [hs, if_false] at hk
      obtain h | ⟨o, ho, hoi, hk⟩ := withSelected_next hk
      · exact .inl h
      · exact .inr ⟨u, hu, hi, .inr ⟨hs, o, ho, hoi, by simpa using hk⟩⟩

theorem execDsbEnc_next {inst : Nat} {a : Word} {s t : State} (h : execDsbEnc inst a s = .next t) :
    (∃ e, e ≠ .ok ∧ t = s.raised e) ∨
      ∃ u o, s.dsb[inst]? = some u ∧ u.inited = true ∧ s.osc[u.oscsel.toNat]? = some o ∧
        o.inited = true ∧
        t = s.completed (subcarrierTerm s.par a o.phase u.harm.toNat (u.polar != 0)) 0 := by
  obtain h | ⟨u, hu, hi, hk⟩ := operate_next h
  · exact .inl h
  · obtain h | ⟨o, ho, hoi, hk⟩ := withSelected_next hk
    · exact .inl h
    · exact .inr ⟨u, o, hu, hi, ho, hoi, by simpa using hk⟩

/-- The state a completed `MUX.ENC` leaves: the SSB path stepped in mode 2, the oscillator advanced
with ADV. -/
theorem execMuxEnc_next {inst : Nat} {adv : Bool} {a b : Word} {s t : State}
    (h : execMuxEnc inst adv a b s = .next t) :
    (∃ e, e ≠ .ok ∧ t = s.raised e) ∨
      ∃ u o, s.mux[inst]? = some u ∧ u.inited = true ∧ s.osc[u.oscsel.toNat]? = some o ∧
        o.inited = true ∧
        ((u.mode.toNat = 0 ∧
            t = (advanceIf adv u.oscsel o s).completed (u.mono (midOf a b)) 0) ∨
          (u.mode.toNat = 1 ∧ t = (advanceIf adv u.oscsel o s).completed
            (u.dsbSc s.par (midOf a b) (sideOf a b) o.phase) 0) ∨
          (u.mode.toNat = 3 ∧ t = (advanceIf adv u.oscsel o s).completed
            (u.polarOut s.par (midOf a b) (sideOf a b) o.phase) 0) ∨
          (u.mode.toNat = 2 ∧ ∃ h d, s.hil[u.hilsel.toNat]? = some h ∧ h.inited = true ∧
            s.dly[u.dlysel.toNat]? = some d ∧ d.inited = true ∧
            t = (advanceIf adv u.oscsel o
              ((s.putHil u.hilsel.toNat (h.step s.par.hilCoef (sideOf a b)).regs).putDly
                u.dlysel.toNat (d.pushPop s.par.dlyCap (midOf a b)).1)).completed
              (u.ssb s.par (h.step s.par.hilCoef (sideOf a b)).i
                (h.step s.par.hilCoef (sideOf a b)).q (d.pushPop s.par.dlyCap (midOf a b)).2
                o.phase) 0)) := by
  obtain h | ⟨u, hu, hi, hk⟩ := operate_next h
  · exact .inl h
  obtain h | ⟨o, ho, hoi, hk⟩ := withSelected_next hk
  · exact .inl h
  dsimp only at hk
  split at hk
  · rename_i hm
    exact .inr ⟨u, o, hu, hi, ho, hoi, .inl ⟨hm, by simpa using hk⟩⟩
  · rename_i hm
    exact .inr ⟨u, o, hu, hi, ho, hoi, .inr (.inl ⟨hm, by simpa using hk⟩)⟩
  · rename_i hm
    obtain h | ⟨h, hh, hhi, hk⟩ := withSelected_next hk
    · exact .inl h
    obtain h | ⟨d, hd, hdi, hk⟩ := withSelected_next hk
    · exact .inl h
    exact .inr ⟨u, o, hu, hi, ho, hoi,
      .inr (.inr (.inr ⟨hm, h, d, hh, hhi, hd, hdi, by simpa using hk⟩))⟩
  · rename_i hm
    exact .inr ⟨u, o, hu, hi, ho, hoi, .inr (.inr (.inl ⟨hm, by simpa using hk⟩))⟩
  · cases hk

theorem execAddIn_next {inst : Nat} {ch : Fin 8} {a : Word} {s t : State}
    (h : execAddIn inst ch a s = .next t) :
    (∃ e, e ≠ .ok ∧ t = s.raised e) ∨
      ∃ u x, s.add[inst]? = some u ∧ u.inited = true ∧
        t = (s.putAdd inst { u with sum := fadd u.sum x }).completed (fadd u.sum x) 0 ∧
        ((carSel u.car[ch] = 0 ∧ x = fmul a u.vol[ch]) ∨
          ∃ o, s.osc[u.oscsel.toNat]? = some o ∧ o.inited = true ∧
            ((carSel u.car[ch] = 1 ∧ x = fmul (fmul a u.vol[ch])
                (Config.fsin (harmonicArg o.phase (carHarm u.car[ch])))) ∨
              (carSel u.car[ch] = 2 ∧ x = fmul (fmul a u.vol[ch])
                (Config.fcos (harmonicArg o.phase (carHarm u.car[ch])))))) := by
  obtain h | ⟨u, hu, hi, hk⟩ := operate_next h
  · exact .inl h
  dsimp only at hk
  split at hk
  · rename_i hc
    exact .inr ⟨u, _, hu, hi, by simpa [addTerm] using hk, .inl ⟨hc, rfl⟩⟩
  · rename_i hc
    obtain h | ⟨o, ho, hoi, hk⟩ := withSelected_next hk
    · exact .inl h
    exact .inr ⟨u, _, hu, hi, by simpa [addTerm] using hk, .inr ⟨o, ho, hoi, .inl ⟨hc, rfl⟩⟩⟩
  · rename_i hc
    obtain h | ⟨o, ho, hoi, hk⟩ := withSelected_next hk
    · exact .inl h
    exact .inr ⟨u, _, hu, hi, by simpa [addTerm] using hk, .inr ⟨o, ho, hoi, .inr ⟨hc, rfl⟩⟩⟩
  · cases hk

end Sys2Proof.Machine
end

