-- ==== Sys2Proof/Laws/Frame.lean ====
section
/-! SUPPORT. What every command keeps: a command that answers a next state raised an error, reset the
block, or completed over a state with the same parameters, counts, FAULT, CMDCNT and input. -/

namespace Sys2Proof.Machine

/-- What no completed command changes before it is counted. -/
structure Frame (s s' : State) : Prop where
  par : s'.par = s.par
  fault : s'.fault = s.fault
  cmdcnt : s'.cmdcnt = s.cmdcnt
  input : s'.input = s.input
  count : ∀ u, s'.count u = s.count u

theorem Frame.refl (s : State) : Frame s s := ⟨rfl, rfl, rfl, rfl, fun _ => rfl⟩

theorem Frame.trans {s s' s'' : State} (h : Frame s s') (h' : Frame s' s'') : Frame s s'' :=
  ⟨h'.par.trans h.par, h'.fault.trans h.fault, h'.cmdcnt.trans h.cmdcnt, h'.input.trans h.input,
    fun u => (h'.count u).trans (h.count u)⟩

theorem frame_putOsc (s : State) (n : Nat) (u : OscRegs) : Frame s (s.putOsc n u) :=
  ⟨rfl, rfl, rfl, rfl, fun v => by cases v <;> simp [State.count]⟩

theorem frame_putPre (s : State) (n : Nat) (u : PreRegs) : Frame s (s.putPre n u) :=
  ⟨rfl, rfl, rfl, rfl, fun v => by cases v <;> simp [State.count]⟩

theorem frame_putFlp (s : State) (n : Nat) (u : FirRegs) : Frame s (s.putFlp n u) :=
  ⟨rfl, rfl, rfl, rfl, fun v => by cases v <;> simp [State.count]⟩

theorem frame_putFhp (s : State) (n : Nat) (u : FirRegs) : Frame s (s.putFhp n u) :=
  ⟨rfl, rfl, rfl, rfl, fun v => by cases v <;> simp [State.count]⟩

theorem frame_putBq (s : State) (n : Nat) (u : BqRegs) : Frame s (s.putBq n u) :=
  ⟨rfl, rfl, rfl, rfl, fun v => by cases v <;> simp [State.count]⟩

theorem frame_putHil (s : State) (n : Nat) (u : HilRegs) : Frame s (s.putHil n u) :=
  ⟨rfl, rfl, rfl, rfl, fun v => by cases v <;> simp [State.count]⟩

theorem frame_putFm (s : State) (n : Nat) (u : FmRegs) : Frame s (s.putFm n u) :=
  ⟨rfl, rfl, rfl, rfl, fun v => by cases v <;> simp [State.count]⟩

theorem frame_putDsb (s : State) (n : Nat) (u : DsbRegs) : Frame s (s.putDsb n u) :=
  ⟨rfl, rfl, rfl, rfl, fun v => by cases v <;> simp [State.count]⟩

theorem frame_putMux (s : State) (n : Nat) (u : MuxRegs) : Frame s (s.putMux n u) :=
  ⟨rfl, rfl, rfl, rfl, fun v => by cases v <;> simp [State.count]⟩

theorem frame_putBs (s : State) (n : Nat) (u : BsRegs) : Frame s (s.putBs n u) :=
  ⟨rfl, rfl, rfl, rfl, fun v => by cases v <;> simp [State.count]⟩

theorem frame_putAgc (s : State) (n : Nat) (u : AgcRegs) : Frame s (s.putAgc n u) :=
  ⟨rfl, rfl, rfl, rfl, fun v => by cases v <;> simp [State.count]⟩

theorem frame_putAdd (s : State) (n : Nat) (u : AddRegs) : Frame s (s.putAdd n u) :=
  ⟨rfl, rfl, rfl, rfl, fun v => by cases v <;> simp [State.count]⟩

theorem frame_putTilt (s : State) (n : Nat) (u : TiltRegs) : Frame s (s.putTilt n u) :=
  ⟨rfl, rfl, rfl, rfl, fun v => by cases v <;> simp [State.count]⟩

theorem frame_putDly (s : State) (n : Nat) (u : DlyRegs) : Frame s (s.putDly n u) :=
  ⟨rfl, rfl, rfl, rfl, fun v => by cases v <;> simp [State.count]⟩

theorem frame_writeReg (s : State) (u : UnitId) (inst idx : Nat) (v : Word) :
    Frame s (s.writeReg u inst idx v) := by
  cases u <;> exact ⟨rfl, rfl, rfl, rfl, fun v => by cases v <;> simp [State.count, State.writeReg]⟩

theorem frame_advanceIf (adv : Bool) (sel : Word) (o : OscRegs) (s : State) :
    Frame s (advanceIf adv sel o s) := by
  cases adv
  · exact Frame.refl s
  · exact frame_putOsc _ _ _

/-- A command's outcome: an error, or a completion over a state with this frame. -/
def Ends (s t : State) : Prop :=
  (∃ e, e ≠ .ok ∧ t = s.raised e) ∨ ∃ s' r0 r1, Frame s s' ∧ t = s'.completed r0 r1

theorem ends_readCommand {u : UnitId} {inst idx : Nat} {s t : State}
    (h : readCommand u inst idx s = .next t) : Ends s t := by
  obtain h | ⟨_, v, -, rfl⟩ := readCommand_next h
  · exact .inl h
  · exact .inr ⟨s, v, 0, Frame.refl s, rfl⟩

theorem ends_writeCommand {u : UnitId} {inst idx : Nat} {v : Word} {s t : State}
    (h : writeCommand u inst idx v s = .next t) : Ends s t := by
  obtain h | ⟨_, -, rfl⟩ := writeCommand_next h
  · exact .inl h
  · exact .inr ⟨_, 0, 0, frame_writeReg s u inst idx v, rfl⟩

theorem ends_operate {α : Type} {units : List α} {inited : α → Bool} {inst : Nat} {s t : State}
    {k : α → Result} (h : operate units inited inst s k = .next t)
    (hk : ∀ u, k u = .next t → Ends s t) : Ends s t := by
  obtain h | ⟨u, -, -, h⟩ := operate_next h
  · exact .inl h
  · exact hk u h

theorem ends_construct {α : Type} {units : List α} {inst : Nat} {s t : State}
    {init : α → Option α} {put : α → State} (h : construct units inst s init put = .next t)
    (hp : ∀ u, Frame s (put u)) : Ends s t := by
  obtain h | ⟨_, u', -, -, rfl⟩ := construct_next h
  · exact .inl h
  · exact .inr ⟨_, 0, 0, hp u', rfl⟩

theorem ends_finish {s s' t : State} {r0 r1 : Word} (h : finish s' r0 r1 = .next t)
    (hf : Frame s s') : Ends s t :=
  .inr ⟨s', r0, r1, hf, finish_next.mp h⟩

/-- Every command but `SYS.RST` raises an error or completes; `SYS.RST` of instance 0 resets. -/
theorem exec_ends {i : Instr} {s t : State} (h : exec i s = .next t) :
    (i = .sysRst 0 ∧ t = { s.resetRegs with rsp := some ⟨.ok, 0, 0⟩ }) ∨ Ends s t := by
  cases i
  case sysRst =>
    obtain h | ⟨rfl, ht⟩ := execSysRst_next h
    · exact .inr (.inl h)
    · exact .inl ⟨rfl, ht⟩
  case sysRd =>
    exact .inr (ends_readCommand h)
  case sysWr =>
    exact .inr (ends_writeCommand h)
  case sysNop =>
    obtain h | ⟨-, ht⟩ := execSysNop_next h
    · exact .inr (.inl h)
    · exact .inr (.inr ⟨s, 0, 0, Frame.refl s, ht⟩)
  case oscInit =>
    exact .inr (ends_construct h fun _ => frame_putOsc s _ _)
  case oscRd =>
    exact .inr (ends_readCommand h)
  case oscWr =>
    exact .inr (ends_writeCommand h)
  case oscSetf =>
    exact .inr (ends_operate h fun _ hk => ends_finish hk (frame_putOsc s _ _))
  case oscSin =>
    exact .inr (ends_operate h fun _ hk => ends_finish hk (frame_putOsc s _ _))
  case oscCos =>
    exact .inr (ends_operate h fun _ hk => ends_finish hk (frame_putOsc s _ _))
  case oscSinh =>
    exact .inr (ends_operate h fun _ hk => ends_finish hk (Frame.refl s))
  case oscCosh =>
    exact .inr (ends_operate h fun _ hk => ends_finish hk (Frame.refl s))
  case oscAdv =>
    exact .inr (ends_operate h fun _ hk => ends_finish hk (frame_putOsc s _ _))
  case preInit =>
    exact .inr (ends_construct h fun _ => frame_putPre s _ _)
  case preRd =>
    exact .inr (ends_readCommand h)
  case preWr =>
    exact .inr (ends_writeCommand h)
  case preStep =>
    exact .inr (ends_operate h fun _ hk => ends_finish hk (frame_putPre s _ _))
  case flpInit =>
    exact .inr (ends_construct h fun _ => frame_putFlp s _ _)
  case flpRd =>
    exact .inr (ends_readCommand h)
  case flpWr =>
    exact .inr (ends_writeCommand h)
  case flpStep =>
    exact .inr (ends_operate h fun _ hk => ends_finish hk (frame_putFlp s _ _))
  case fhpInit =>
    exact .inr (ends_construct h fun _ => frame_putFhp s _ _)
  case fhpRd =>
    exact .inr (ends_readCommand h)
  case fhpWr =>
    exact .inr (ends_writeCommand h)
  case fhpStep =>
    exact .inr (ends_operate h fun _ hk => ends_finish hk (frame_putFhp s _ _))
  case bqInit =>
    exact .inr (ends_construct h fun _ => frame_putBq s _ _)
  case bqRd =>
    exact .inr (ends_readCommand h)
  case bqWr =>
    exact .inr (ends_writeCommand h)
  case bqStep =>
    exact .inr (ends_operate h fun _ hk => ends_finish hk (frame_putBq s _ _))
  case hilInit =>
    obtain h | ⟨_, -, rfl⟩ := execHilInit_next h
    · exact .inr (.inl h)
    · exact .inr (.inr ⟨_, _, _, frame_putHil s _ _, rfl⟩)
  case hilRd =>
    exact .inr (ends_readCommand h)
  case hilWr =>
    exact .inr (ends_writeCommand h)
  case hilStep =>
    exact .inr (ends_operate h fun _ hk => ends_finish hk (frame_putHil s _ _))
  case fmInit =>
    exact .inr (ends_construct h fun _ => frame_putFm s _ _)
  case fmRd =>
    exact .inr (ends_readCommand h)
  case fmWr =>
    exact .inr (ends_writeCommand h)
  case fmMod =>
    obtain h | ⟨u, -, -, h⟩ := execFmMod_next h
    · exact .inr (.inl h)
    · obtain ⟨-, rfl⟩ | ⟨-, o, -, -, rfl⟩ := h
      · exact .inr (.inr ⟨_, _, _, frame_putFm s _ _, rfl⟩)
      · exact .inr (.inr ⟨_, _, _, frame_putOsc s _ _, rfl⟩)
  case dsbInit =>
    exact .inr (ends_construct h fun _ => frame_putDsb s _ _)
  case dsbRd =>
    exact .inr (ends_readCommand h)
  case dsbWr =>
    exact .inr (ends_writeCommand h)
  case dsbEnc =>
    obtain h | ⟨u, o, -, -, -, -, rfl⟩ := execDsbEnc_next h
    · exact .inr (.inl h)
    · exact .inr (.inr ⟨_, _, _, Frame.refl s, rfl⟩)
  case muxInit =>
    exact .inr (ends_construct h fun _ => frame_putMux s _ _)
  case muxRd =>
    exact .inr (ends_readCommand h)
  case muxWr =>
    exact .inr (ends_writeCommand h)
  case muxEnc =>
    obtain h | ⟨u, o, -, -, -, -, h⟩ := execMuxEnc_next h
    · exact .inr (.inl h)
    · obtain ⟨-, rfl⟩ | ⟨-, rfl⟩ | ⟨-, rfl⟩ | ⟨-, _, _, -, -, -, -, rfl⟩ := h
      · exact .inr (.inr ⟨_, _, _, frame_advanceIf _ _ _ _, rfl⟩)
      · exact .inr (.inr ⟨_, _, _, frame_advanceIf _ _ _ _, rfl⟩)
      · exact .inr (.inr ⟨_, _, _, frame_advanceIf _ _ _ _, rfl⟩)
      · exact .inr (.inr ⟨_, _, _, ((frame_putHil s _ _).trans (frame_putDly _ _ _)).trans
          (frame_advanceIf _ _ _ _), rfl⟩)
  case bsInit =>
    exact .inr (ends_construct h fun _ => frame_putBs s _ _)
  case bsRd =>
    exact .inr (ends_readCommand h)
  case bsWr =>
    exact .inr (ends_writeCommand h)
  case bsMeas =>
    exact .inr (ends_operate h fun _ hk => ends_finish hk (frame_putBs s _ _))
  case bsD2dbr =>
    exact .inr (ends_operate h fun _ hk => ends_finish hk (Frame.refl s))
  case bsDbr2d =>
    exact .inr (ends_operate h fun _ hk => ends_finish hk (Frame.refl s))
  case bsRatio =>
    exact .inr (ends_operate h fun _ hk => ends_finish hk (Frame.refl s))
  case agcInit =>
    exact .inr (ends_construct h fun _ => frame_putAgc s _ _)
  case agcRd =>
    exact .inr (ends_readCommand h)
  case agcWr =>
    exact .inr (ends_writeCommand h)
  case agcProc =>
    exact .inr (ends_operate h fun _ hk => ends_finish hk (frame_putAgc s _ _))
  case addInit =>
    exact .inr (ends_construct h fun _ => frame_putAdd s _ _)
  case addRd =>
    exact .inr (ends_readCommand h)
  case addWr =>
    exact .inr (ends_writeCommand h)
  case addClr =>
    exact .inr (ends_operate h fun _ hk => ends_finish hk (frame_putAdd s _ _))
  case addIn =>
    obtain h | ⟨u, _, -, -, rfl, -⟩ := execAddIn_next h
    · exact .inr (.inl h)
    · exact .inr (.inr ⟨_, _, _, frame_putAdd s _ _, rfl⟩)
  case addOut =>
    exact .inr (ends_operate h fun _ hk => ends_finish hk (Frame.refl s))
  case tiltInit =>
    exact .inr (ends_construct h fun _ => frame_putTilt s _ _)
  case tiltRd =>
    exact .inr (ends_readCommand h)
  case tiltWr =>
    exact .inr (ends_writeCommand h)
  case tiltStep =>
    exact .inr (ends_operate h fun _ hk => ends_finish hk (frame_putTilt s _ _))
  case dlyInit =>
    obtain h | ⟨_, -, rfl⟩ := execDlyInit_next h
    · exact .inr (.inl h)
    · exact .inr (.inr ⟨_, _, _, frame_putDly s _ _, rfl⟩)
  case dlyRd =>
    exact .inr (ends_readCommand h)
  case dlyWr =>
    exact .inr (ends_writeCommand h)
  case dlySetd =>
    exact .inr (ends_operate h fun _ hk => ends_finish hk (frame_putDly s _ _))
  case dlyPushpop =>
    exact .inr (ends_operate h fun _ hk => ends_finish hk (frame_putDly s _ _))

end Sys2Proof.Machine
end

