-- ==== Sys2Proof/Laws/PerInstr.lean ====
section
/-! SUPPORT. Per command: the word of a well-formed command carries its unit and its instance in the
fields R101 gives them. -/

namespace Sys2Proof.Laws.EncodedFields

/-- UNIT and INST of the encoded command word are the command's. -/
def Statement (i : Instr) : Prop :=
  i.wf = true → (fieldsOf (encode i).cmd).unit = i.unit.num ∧ (fieldsOf (encode i).cmd).inst = i.inst

/-- What every case comes to: the fields fit. -/
theorem of_fits {u f i x g : Nat} (hu : u < 16) (hf : f < 16) (hi : i < 16) (hx : x < 4096)
    (hg : g < 256) :
    (fieldsOf (commandWord u f i x g)).unit = u ∧ (fieldsOf (commandWord u f i x g)).inst = i := by
  simp [fieldsOf_commandWord hu hf hi hx hg]

/-- Two checks of `Instr.wf`. -/
theorem both {p q : Prop} [Decidable p] [Decidable q] (h : (decide p && decide q) = true) : p ∧ q := by
  simpa using h

theorem sysRst (inst : Nat) : Statement (.sysRst inst) := by
  intro h
  exact of_fits (by omega) (by omega) (of_decide_eq_true h) (by omega) (by omega)

theorem sysRd (inst idx : Nat) : Statement (.sysRd inst idx) := by
  intro h
  obtain ⟨hi, hx⟩ := both h
  exact of_fits (by omega) (by omega) hi hx (by omega)

theorem sysWr (inst idx : Nat) (a : Word) : Statement (.sysWr inst idx a) := by
  intro h
  obtain ⟨hi, hx⟩ := both h
  exact of_fits (by omega) (by omega) hi hx (by omega)

theorem sysNop (inst : Nat) : Statement (.sysNop inst) := by
  intro h
  exact of_fits (by omega) (by omega) (of_decide_eq_true h) (by omega) (by omega)

theorem oscInit (inst : Nat) (a b : Word) : Statement (.oscInit inst a b) := by
  intro h
  exact of_fits (by omega) (by omega) (of_decide_eq_true h) (by omega) (by omega)

theorem oscRd (inst idx : Nat) : Statement (.oscRd inst idx) := by
  intro h
  obtain ⟨hi, hx⟩ := both h
  exact of_fits (by omega) (by omega) hi hx (by omega)

theorem oscWr (inst idx : Nat) (a : Word) : Statement (.oscWr inst idx a) := by
  intro h
  obtain ⟨hi, hx⟩ := both h
  exact of_fits (by omega) (by omega) hi hx (by omega)

theorem oscSetf (inst : Nat) (a : Word) : Statement (.oscSetf inst a) := by
  intro h
  exact of_fits (by omega) (by omega) (of_decide_eq_true h) (by omega) (by omega)

theorem oscSin (inst : Nat) : Statement (.oscSin inst) := by
  intro h
  exact of_fits (by omega) (by omega) (of_decide_eq_true h) (by omega) (by omega)

theorem oscCos (inst : Nat) : Statement (.oscCos inst) := by
  intro h
  exact of_fits (by omega) (by omega) (of_decide_eq_true h) (by omega) (by omega)

theorem oscSinh (inst k : Nat) : Statement (.oscSinh inst k) := by
  intro h
  obtain ⟨hi, hk⟩ := both h
  exact of_fits (by omega) (by omega) hi (by omega) (by omega)

theorem oscCosh (inst k : Nat) : Statement (.oscCosh inst k) := by
  intro h
  obtain ⟨hi, hk⟩ := both h
  exact of_fits (by omega) (by omega) hi (by omega) (by omega)

theorem oscAdv (inst : Nat) : Statement (.oscAdv inst) := by
  intro h
  exact of_fits (by omega) (by omega) (of_decide_eq_true h) (by omega) (by omega)

theorem preInit (inst : Nat) : Statement (.preInit inst) := by
  intro h
  exact of_fits (by omega) (by omega) (of_decide_eq_true h) (by omega) (by omega)

theorem preRd (inst idx : Nat) : Statement (.preRd inst idx) := by
  intro h
  obtain ⟨hi, hx⟩ := both h
  exact of_fits (by omega) (by omega) hi hx (by omega)

theorem preWr (inst idx : Nat) (a : Word) : Statement (.preWr inst idx a) := by
  intro h
  obtain ⟨hi, hx⟩ := both h
  exact of_fits (by omega) (by omega) hi hx (by omega)

theorem preStep (inst : Nat) (a : Word) : Statement (.preStep inst a) := by
  intro h
  exact of_fits (by omega) (by omega) (of_decide_eq_true h) (by omega) (by omega)

theorem flpInit (inst : Nat) : Statement (.flpInit inst) := by
  intro h
  exact of_fits (by omega) (by omega) (of_decide_eq_true h) (by omega) (by omega)

theorem flpRd (inst idx : Nat) : Statement (.flpRd inst idx) := by
  intro h
  obtain ⟨hi, hx⟩ := both h
  exact of_fits (by omega) (by omega) hi hx (by omega)

theorem flpWr (inst idx : Nat) (a : Word) : Statement (.flpWr inst idx a) := by
  intro h
  obtain ⟨hi, hx⟩ := both h
  exact of_fits (by omega) (by omega) hi hx (by omega)

theorem flpStep (inst : Nat) (a : Word) : Statement (.flpStep inst a) := by
  intro h
  exact of_fits (by omega) (by omega) (of_decide_eq_true h) (by omega) (by omega)

theorem fhpInit (inst : Nat) : Statement (.fhpInit inst) := by
  intro h
  exact of_fits (by omega) (by omega) (of_decide_eq_true h) (by omega) (by omega)

theorem fhpRd (inst idx : Nat) : Statement (.fhpRd inst idx) := by
  intro h
  obtain ⟨hi, hx⟩ := both h
  exact of_fits (by omega) (by omega) hi hx (by omega)

theorem fhpWr (inst idx : Nat) (a : Word) : Statement (.fhpWr inst idx a) := by
  intro h
  obtain ⟨hi, hx⟩ := both h
  exact of_fits (by omega) (by omega) hi hx (by omega)

theorem fhpStep (inst : Nat) (a : Word) : Statement (.fhpStep inst a) := by
  intro h
  exact of_fits (by omega) (by omega) (of_decide_eq_true h) (by omega) (by omega)

theorem bqInit (inst : Nat) : Statement (.bqInit inst) := by
  intro h
  exact of_fits (by omega) (by omega) (of_decide_eq_true h) (by omega) (by omega)

theorem bqRd (inst idx : Nat) : Statement (.bqRd inst idx) := by
  intro h
  obtain ⟨hi, hx⟩ := both h
  exact of_fits (by omega) (by omega) hi hx (by omega)

theorem bqWr (inst idx : Nat) (a : Word) : Statement (.bqWr inst idx a) := by
  intro h
  obtain ⟨hi, hx⟩ := both h
  exact of_fits (by omega) (by omega) hi hx (by omega)

theorem bqStep (inst : Nat) (a : Word) : Statement (.bqStep inst a) := by
  intro h
  exact of_fits (by omega) (by omega) (of_decide_eq_true h) (by omega) (by omega)

theorem hilInit (inst : Nat) : Statement (.hilInit inst) := by
  intro h
  exact of_fits (by omega) (by omega) (of_decide_eq_true h) (by omega) (by omega)

theorem hilRd (inst idx : Nat) : Statement (.hilRd inst idx) := by
  intro h
  obtain ⟨hi, hx⟩ := both h
  exact of_fits (by omega) (by omega) hi hx (by omega)

theorem hilWr (inst idx : Nat) (a : Word) : Statement (.hilWr inst idx a) := by
  intro h
  obtain ⟨hi, hx⟩ := both h
  exact of_fits (by omega) (by omega) hi hx (by omega)

theorem hilStep (inst : Nat) (a : Word) : Statement (.hilStep inst a) := by
  intro h
  exact of_fits (by omega) (by omega) (of_decide_eq_true h) (by omega) (by omega)

theorem fmInit (inst : Nat) : Statement (.fmInit inst) := by
  intro h
  exact of_fits (by omega) (by omega) (of_decide_eq_true h) (by omega) (by omega)

theorem fmRd (inst idx : Nat) : Statement (.fmRd inst idx) := by
  intro h
  obtain ⟨hi, hx⟩ := both h
  exact of_fits (by omega) (by omega) hi hx (by omega)

theorem fmWr (inst idx : Nat) (a : Word) : Statement (.fmWr inst idx a) := by
  intro h
  obtain ⟨hi, hx⟩ := both h
  exact of_fits (by omega) (by omega) hi hx (by omega)

theorem fmMod (inst : Nat) (a : Word) : Statement (.fmMod inst a) := by
  intro h
  exact of_fits (by omega) (by omega) (of_decide_eq_true h) (by omega) (by omega)

theorem dsbInit (inst : Nat) : Statement (.dsbInit inst) := by
  intro h
  exact of_fits (by omega) (by omega) (of_decide_eq_true h) (by omega) (by omega)

theorem dsbRd (inst idx : Nat) : Statement (.dsbRd inst idx) := by
  intro h
  obtain ⟨hi, hx⟩ := both h
  exact of_fits (by omega) (by omega) hi hx (by omega)

theorem dsbWr (inst idx : Nat) (a : Word) : Statement (.dsbWr inst idx a) := by
  intro h
  obtain ⟨hi, hx⟩ := both h
  exact of_fits (by omega) (by omega) hi hx (by omega)

theorem dsbEnc (inst : Nat) (a : Word) : Statement (.dsbEnc inst a) := by
  intro h
  exact of_fits (by omega) (by omega) (of_decide_eq_true h) (by omega) (by omega)

theorem muxInit (inst : Nat) : Statement (.muxInit inst) := by
  intro h
  exact of_fits (by omega) (by omega) (of_decide_eq_true h) (by omega) (by omega)

theorem muxRd (inst idx : Nat) : Statement (.muxRd inst idx) := by
  intro h
  obtain ⟨hi, hx⟩ := both h
  exact of_fits (by omega) (by omega) hi hx (by omega)

theorem muxWr (inst idx : Nat) (a : Word) : Statement (.muxWr inst idx a) := by
  intro h
  obtain ⟨hi, hx⟩ := both h
  exact of_fits (by omega) (by omega) hi hx (by omega)

theorem muxEnc (inst : Nat) (adv : Bool) (a b : Word) : Statement (.muxEnc inst adv a b) := by
  intro h
  exact of_fits (by omega) (by omega) (of_decide_eq_true h) (by omega) (lt_of_lt_of_le (Bool.toNat_lt adv) (by omega))

theorem bsInit (inst : Nat) : Statement (.bsInit inst) := by
  intro h
  exact of_fits (by omega) (by omega) (of_decide_eq_true h) (by omega) (by omega)

theorem bsRd (inst idx : Nat) : Statement (.bsRd inst idx) := by
  intro h
  obtain ⟨hi, hx⟩ := both h
  exact of_fits (by omega) (by omega) hi hx (by omega)

theorem bsWr (inst idx : Nat) (a : Word) : Statement (.bsWr inst idx a) := by
  intro h
  obtain ⟨hi, hx⟩ := both h
  exact of_fits (by omega) (by omega) hi hx (by omega)

theorem bsMeas (inst : Nat) (a : Word) : Statement (.bsMeas inst a) := by
  intro h
  exact of_fits (by omega) (by omega) (of_decide_eq_true h) (by omega) (by omega)

theorem bsD2dbr (inst : Nat) (a : Word) : Statement (.bsD2dbr inst a) := by
  intro h
  exact of_fits (by omega) (by omega) (of_decide_eq_true h) (by omega) (by omega)

theorem bsDbr2d (inst : Nat) (a : Word) : Statement (.bsDbr2d inst a) := by
  intro h
  exact of_fits (by omega) (by omega) (of_decide_eq_true h) (by omega) (by omega)

theorem bsRatio (inst : Nat) (a : Word) : Statement (.bsRatio inst a) := by
  intro h
  exact of_fits (by omega) (by omega) (of_decide_eq_true h) (by omega) (by omega)

theorem agcInit (inst : Nat) : Statement (.agcInit inst) := by
  intro h
  exact of_fits (by omega) (by omega) (of_decide_eq_true h) (by omega) (by omega)

theorem agcRd (inst idx : Nat) : Statement (.agcRd inst idx) := by
  intro h
  obtain ⟨hi, hx⟩ := both h
  exact of_fits (by omega) (by omega) hi hx (by omega)

theorem agcWr (inst idx : Nat) (a : Word) : Statement (.agcWr inst idx a) := by
  intro h
  obtain ⟨hi, hx⟩ := both h
  exact of_fits (by omega) (by omega) hi hx (by omega)

theorem agcProc (inst : Nat) (a : Word) : Statement (.agcProc inst a) := by
  intro h
  exact of_fits (by omega) (by omega) (of_decide_eq_true h) (by omega) (by omega)

theorem addInit (inst : Nat) : Statement (.addInit inst) := by
  intro h
  exact of_fits (by omega) (by omega) (of_decide_eq_true h) (by omega) (by omega)

theorem addRd (inst idx : Nat) : Statement (.addRd inst idx) := by
  intro h
  obtain ⟨hi, hx⟩ := both h
  exact of_fits (by omega) (by omega) hi hx (by omega)

theorem addWr (inst idx : Nat) (a : Word) : Statement (.addWr inst idx a) := by
  intro h
  obtain ⟨hi, hx⟩ := both h
  exact of_fits (by omega) (by omega) hi hx (by omega)

theorem addClr (inst : Nat) : Statement (.addClr inst) := by
  intro h
  exact of_fits (by omega) (by omega) (of_decide_eq_true h) (by omega) (by omega)

theorem addIn (inst : Nat) (ch : Fin 8) (a : Word) : Statement (.addIn inst ch a) := by
  intro h
  exact of_fits (by omega) (by omega) (of_decide_eq_true h) (by omega) (by omega)

theorem addOut (inst : Nat) : Statement (.addOut inst) := by
  intro h
  exact of_fits (by omega) (by omega) (of_decide_eq_true h) (by omega) (by omega)

theorem tiltInit (inst : Nat) : Statement (.tiltInit inst) := by
  intro h
  exact of_fits (by omega) (by omega) (of_decide_eq_true h) (by omega) (by omega)

theorem tiltRd (inst idx : Nat) : Statement (.tiltRd inst idx) := by
  intro h
  obtain ⟨hi, hx⟩ := both h
  exact of_fits (by omega) (by omega) hi hx (by omega)

theorem tiltWr (inst idx : Nat) (a : Word) : Statement (.tiltWr inst idx a) := by
  intro h
  obtain ⟨hi, hx⟩ := both h
  exact of_fits (by omega) (by omega) hi hx (by omega)

theorem tiltStep (inst : Nat) (a : Word) : Statement (.tiltStep inst a) := by
  intro h
  exact of_fits (by omega) (by omega) (of_decide_eq_true h) (by omega) (by omega)

theorem dlyInit (inst : Nat) : Statement (.dlyInit inst) := by
  intro h
  exact of_fits (by omega) (by omega) (of_decide_eq_true h) (by omega) (by omega)

theorem dlyRd (inst idx : Nat) : Statement (.dlyRd inst idx) := by
  intro h
  obtain ⟨hi, hx⟩ := both h
  exact of_fits (by omega) (by omega) hi hx (by omega)

theorem dlyWr (inst idx : Nat) (a : Word) : Statement (.dlyWr inst idx a) := by
  intro h
  obtain ⟨hi, hx⟩ := both h
  exact of_fits (by omega) (by omega) hi hx (by omega)

theorem dlySetd (inst : Nat) (a : Word) : Statement (.dlySetd inst a) := by
  intro h
  exact of_fits (by omega) (by omega) (of_decide_eq_true h) (by omega) (by omega)

theorem dlyPushpop (inst : Nat) (a : Word) : Statement (.dlyPushpop inst a) := by
  intro h
  exact of_fits (by omega) (by omega) (of_decide_eq_true h) (by omega) (by omega)

end Sys2Proof.Laws.EncodedFields
end

