-- ==== Sys2Proof/Laws/RegisterMap.lean ====
section
/-! SUPPORT. What a write of a configuration register does to the register map of its instance (R82),
once per unit, and the ranges in which indices are mapped (R80). -/

namespace Sys2Proof.Machine

/-- A write to a CFG register: that register holds the word, INITED reads 0, no other changes. -/
theorem PreRegs.reg_write {u : PreRegs} {idx : Nat} {v : Word} (a : Word)
    (h : u.reg idx = some (.cfg, v)) :
    (u.write idx a).reg idx = some (.cfg, a) ∧ (u.write idx a).reg 0x0FF = some (.ro, 0) ∧
      ∀ j, j ≠ idx → j ≠ 0x0FF → (u.write idx a).reg j = u.reg j := by
  unfold PreRegs.reg at h
  split at h
  all_goals first
    | (simp at h; done)
    | refine ⟨rfl, rfl, fun j h1 h2 => ?_⟩
      unfold PreRegs.reg PreRegs.write
      split <;> first | rfl | exact absurd rfl h1 | exact absurd rfl h2

/-- A write to a CFG register: that register holds the word, INITED reads 0, no other changes. -/
theorem FirRegs.reg_write {u : FirRegs} {idx : Nat} {v : Word} (a : Word)
    (h : u.reg idx = some (.cfg, v)) :
    (u.write idx a).reg idx = some (.cfg, a) ∧ (u.write idx a).reg 0x0FF = some (.ro, 0) ∧
      ∀ j, j ≠ idx → j ≠ 0x0FF → (u.write idx a).reg j = u.reg j := by
  unfold FirRegs.reg at h
  split at h
  case h_5 => exact absurd h (by simp [arrayReg])
  all_goals first
    | (simp at h; done)
    | refine ⟨rfl, rfl, fun j h1 h2 => ?_⟩
      unfold FirRegs.reg FirRegs.write
      split <;> first | rfl | exact absurd rfl h1 | exact absurd rfl h2

/-- A write to a CFG register: that register holds the word, INITED reads 0, no other changes. -/
theorem BqRegs.reg_write {u : BqRegs} {idx : Nat} {v : Word} (a : Word)
    (h : u.reg idx = some (.cfg, v)) :
    (u.write idx a).reg idx = some (.cfg, a) ∧ (u.write idx a).reg 0x0FF = some (.ro, 0) ∧
      ∀ j, j ≠ idx → j ≠ 0x0FF → (u.write idx a).reg j = u.reg j := by
  unfold BqRegs.reg at h
  split at h
  all_goals first
    | (simp at h; done)
    | refine ⟨rfl, rfl, fun j h1 h2 => ?_⟩
      unfold BqRegs.reg BqRegs.write
      split <;> first | rfl | exact absurd rfl h1 | exact absurd rfl h2

/-- A write to a CFG register: that register holds the word, INITED reads 0, no other changes. -/
theorem FmRegs.reg_write {u : FmRegs} {idx : Nat} {v : Word} (a : Word)
    (h : u.reg idx = some (.cfg, v)) :
    (u.write idx a).reg idx = some (.cfg, a) ∧ (u.write idx a).reg 0x0FF = some (.ro, 0) ∧
      ∀ j, j ≠ idx → j ≠ 0x0FF → (u.write idx a).reg j = u.reg j := by
  unfold FmRegs.reg at h
  split at h
  all_goals first
    | (simp at h; done)
    | refine ⟨rfl, rfl, fun j h1 h2 => ?_⟩
      unfold FmRegs.reg FmRegs.write
      split <;> first | rfl | exact absurd rfl h1 | exact absurd rfl h2

/-- A write to a CFG register: that register holds the word, INITED reads 0, no other changes. -/
theorem DsbRegs.reg_write {u : DsbRegs} {idx : Nat} {v : Word} (a : Word)
    (h : u.reg idx = some (.cfg, v)) :
    (u.write idx a).reg idx = some (.cfg, a) ∧ (u.write idx a).reg 0x0FF = some (.ro, 0) ∧
      ∀ j, j ≠ idx → j ≠ 0x0FF → (u.write idx a).reg j = u.reg j := by
  unfold DsbRegs.reg at h
  split at h
  all_goals first
    | (simp at h; done)
    | refine ⟨rfl, rfl, fun j h1 h2 => ?_⟩
      unfold DsbRegs.reg DsbRegs.write
      split <;> first | rfl | exact absurd rfl h1 | exact absurd rfl h2

/-- A write to a CFG register: that register holds the word, INITED reads 0, no other changes. -/
theorem MuxRegs.reg_write {u : MuxRegs} {idx : Nat} {v : Word} (a : Word)
    (h : u.reg idx = some (.cfg, v)) :
    (u.write idx a).reg idx = some (.cfg, a) ∧ (u.write idx a).reg 0x0FF = some (.ro, 0) ∧
      ∀ j, j ≠ idx → j ≠ 0x0FF → (u.write idx a).reg j = u.reg j := by
  unfold MuxRegs.reg at h
  split at h
  all_goals first
    | (simp at h; done)
    | refine ⟨rfl, rfl, fun j h1 h2 => ?_⟩
      unfold MuxRegs.reg MuxRegs.write
      split <;> first | rfl | exact absurd rfl h1 | exact absurd rfl h2

/-- A write to a CFG register: that register holds the word, INITED reads 0, no other changes. -/
theorem BsRegs.reg_write {u : BsRegs} {idx : Nat} {v : Word} (a : Word)
    (h : u.reg idx = some (.cfg, v)) :
    (u.write idx a).reg idx = some (.cfg, a) ∧ (u.write idx a).reg 0x0FF = some (.ro, 0) ∧
      ∀ j, j ≠ idx → j ≠ 0x0FF → (u.write idx a).reg j = u.reg j := by
  unfold BsRegs.reg at h
  split at h
  all_goals first
    | (simp at h; done)
    | refine ⟨rfl, rfl, fun j h1 h2 => ?_⟩
      unfold BsRegs.reg BsRegs.write
      split <;> first | rfl | exact absurd rfl h1 | exact absurd rfl h2

/-- A write to a CFG register: that register holds the word, INITED reads 0, no other changes. -/
theorem AgcRegs.reg_write {u : AgcRegs} {idx : Nat} {v : Word} (a : Word)
    (h : u.reg idx = some (.cfg, v)) :
    (u.write idx a).reg idx = some (.cfg, a) ∧ (u.write idx a).reg 0x0FF = some (.ro, 0) ∧
      ∀ j, j ≠ idx → j ≠ 0x0FF → (u.write idx a).reg j = u.reg j := by
  unfold AgcRegs.reg at h
  split at h
  all_goals first
    | (simp at h; done)
    | refine ⟨rfl, rfl, fun j h1 h2 => ?_⟩
      unfold AgcRegs.reg AgcRegs.write
      split <;> first | rfl | exact absurd rfl h1 | exact absurd rfl h2

/-- A write to a CFG register: that register holds the word, INITED reads 0, no other changes. -/
theorem TiltRegs.reg_write {u : TiltRegs} {idx : Nat} {v : Word} (a : Word)
    (h : u.reg idx = some (.cfg, v)) :
    (u.write idx a).reg idx = some (.cfg, a) ∧ (u.write idx a).reg 0x0FF = some (.ro, 0) ∧
      ∀ j, j ≠ idx → j ≠ 0x0FF → (u.write idx a).reg j = u.reg j := by
  unfold TiltRegs.reg at h
  split at h
  all_goals first
    | (simp at h; done)
    | refine ⟨rfl, rfl, fun j h1 h2 => ?_⟩
      unfold TiltRegs.reg TiltRegs.write
      split <;> first | rfl | exact absurd rfl h1 | exact absurd rfl h2

/-- An array register in its range, and outside it. -/
theorem arrayReg_of_lt {cls : RegClass} {base idx : Nat} {l : List Word} (h : base ≤ idx)
    (h' : idx - base < l.length) : arrayReg cls base l idx = some (cls, l[idx - base]) := by
  simp [arrayReg, h, h']

theorem arrayReg_of_not_mapped {cls : RegClass} {base idx : Nat} {l : List Word}
    (h : idx < base ∨ base + l.length ≤ idx) : arrayReg cls base l idx = none := by
  unfold arrayReg
  split
  · rw [List.getElem?_eq_none (by omega)]
    rfl
  · rfl

theorem arrayReg_eq_some {cls c : RegClass} {base idx : Nat} {l : List Word} {v : Word}
    (h : arrayReg cls base l idx = some (c, v)) :
    c = cls ∧ base ≤ idx ∧ l[idx - base]? = some v := by
  unfold arrayReg at h
  split at h
  · rename_i hb
    cases hl : l[idx - base]? with
    | none => simp [hl] at h
    | some w => simp_all
  · cases h

/-- The map of ADD by ranges: OSCSEL, VOL, CAR, SUM, INITED. -/
theorem AddRegs.reg_eq (u : AddRegs) (idx : Nat) : u.reg idx =
    if idx = 0 then some (.cfg, u.oscsel) else if idx = 0x040 then some (.st, u.sum)
    else if idx = 0x0FF then some (.ro, initedWord u.inited)
    else if 0x010 ≤ idx ∧ idx < 0x018 then some (.cfg, elem u.vol.toList (idx - 0x010))
    else if 0x020 ≤ idx ∧ idx < 0x028 then some (.cfg, elem u.car.toList (idx - 0x020))
    else none := by
  unfold AddRegs.reg
  split
  · rfl
  · rfl
  · rfl
  · rename_i h0 h1 h2
    rw [if_neg h0, if_neg h1, if_neg h2]
    split
    · rename_i h
      rw [arrayReg_of_lt h.1 (by simp; omega)]
      simp [elem, show idx - 16 < 8 by omega]
    · rw [arrayReg_of_not_mapped (by simp; omega)]
      split
      · rename_i h
        rw [arrayReg_of_lt h.1 (by simp; omega)]
        simp [elem, show idx - 32 < 8 by omega]
      · rw [arrayReg_of_not_mapped (by simp; omega)]
        rfl

/-- A write to a CFG register: that register holds the word, INITED reads 0, no other changes. -/
theorem AddRegs.reg_write {u : AddRegs} {idx : Nat} {v : Word} (a : Word)
    (h : u.reg idx = some (.cfg, v)) :
    (u.write idx a).reg idx = some (.cfg, a) ∧ (u.write idx a).reg 0x0FF = some (.ro, 0) ∧
      ∀ j, j ≠ idx → j ≠ 0x0FF → (u.write idx a).reg j = u.reg j := by
  rw [AddRegs.reg_eq] at h
  by_cases h0 : idx = 0
  · subst h0
    refine ⟨rfl, rfl, fun j h1 h2 => ?_⟩
    show AddRegs.reg { u with oscsel := a, inited := false } j = u.reg j
    rw [AddRegs.reg_eq, AddRegs.reg_eq, if_neg h1, if_neg h1, if_neg h2, if_neg h2]
  by_cases hv : 0x010 ≤ idx ∧ idx < 0x018
  · have hw : u.write idx a = { u with vol := u.vol.set (idx - 0x010) a, inited := false } := by
      unfold AddRegs.write
      split
      · exact absurd rfl h0
      · rw [dif_pos hv]
    rw [hw]
    refine ⟨?_, rfl, fun j h1 h2 => ?_⟩
    · simp [AddRegs.reg_eq, show idx ≠ 0x040 by omega, show idx ≠ 0x0FF by omega, h0, hv, elem]
    · simp only [AddRegs.reg_eq, h2, if_false]
      by_cases hj : 0x010 ≤ j ∧ j < 0x018
      · simp [hj, elem, show idx - 16 ≠ j - 16 by omega]
      · simp [hj]
  by_cases hc : 0x020 ≤ idx ∧ idx < 0x028
  · have hw : u.write idx a = { u with car := u.car.set (idx - 0x020) a, inited := false } := by
      unfold AddRegs.write
      split
      · exact absurd rfl h0
      · rw [dif_neg hv, dif_pos hc]
    rw [hw]
    refine ⟨?_, rfl, fun j h1 h2 => ?_⟩
    · simp [AddRegs.reg_eq, show idx ≠ 0x040 by omega, show idx ≠ 0x0FF by omega, h0, hv, hc, elem]
    · simp only [AddRegs.reg_eq, h2, if_false]
      by_cases hj : 0x020 ≤ j ∧ j < 0x028
      · simp [hj, elem, show idx - 32 ≠ j - 32 by omega]
      · simp [hj]
  · simp [h0, hv, hc] at h
    split at h <;> simp at h

end Sys2Proof.Machine
end

