-- ==== Sys2Proof/Laws/Safety.lean ====
section
/-! SUPPORT. How the outcome shapes of the claims, `Operates` and `Constructs`, follow from the shared
operations; what several commands in a row lead to; and the select registers of a good state. -/

namespace Sys2Proof.Machine

/-- A meaning that is one `operate`, whose body completes, ends as `Operates` says. -/
theorem operates_of {α : Type} {units : List α} {inited : α → Bool} {inst : Nat} {i : Instr}
    {s : State} {done : α → State} {k : α → Result} (h : exec i s = operate units inited inst s k)
    (hk : ∀ u, units[inst]? = some u → inited u = true → k u = .next (done u)) :
    Operates units inited inst i s done :=
  ⟨fun hn => by rw [h, operate_of_none hn], fun u hu =>
    ⟨fun hi => by rw [h, operate_of_not_inited hu hi],
      fun hi => by rw [h, operate_of_inited hu hi, hk u hu hi]⟩⟩

/-- A meaning that is one `construct` ends as `Constructs` says. -/
theorem constructs_of {α : Type} {units : List α} {inst : Nat} {i : Instr} {s : State}
    {ok : α → Prop} {done : α → State} {init : α → Option α} {put : α → State}
    (h : exec i s = construct units inst s init put) (hno : ∀ u, ¬ok u → init u = none)
    (hyes : ∀ u, ok u → ∃ u', init u = some u' ∧ (put u').completed 0 0 = done u) :
    Constructs units inst i s ok done := by
  refine ⟨fun hn => by rw [h]; exact withInstance_of_none hn, fun u hu =>
    ⟨fun hi => by rw [h, construct_of_failed hu (hno u hi)], fun hi => ?_⟩⟩
  obtain ⟨u', hu', hd⟩ := hyes u hi
  rw [h, construct_of_some hu hu', hd]

@[simp] theorem execAll_nil (s : State) : execAll [] s = .next s := rfl

theorem execAll_cons {i : Instr} {is : List Instr} {s t : State} (h : exec i s = .next t) :
    execAll (i :: is) s = execAll is t := by
  simp [execAll, h]

/-- Two sequences in a row are one. -/
theorem execAll_append {is js : List Instr} {s t : State} (h : execAll is s = .next t) :
    execAll (is ++ js) s = execAll js t := by
  induction is generalizing s with
  | nil => cases h; rfl
  | cons i is ih =>
    cases hi : exec i s with
    | next s' =>
      rw [execAll_cons hi] at h
      rw [List.cons_append, execAll_cons hi, ih h]
    | fault f => simp [execAll, hi] at h
    | refused r => simp [execAll, hi] at h

end Sys2Proof.Machine
end

