-- ==== Sys2Proof/Tests/Slice0.lean ====
section
/-! SUPPORT. The tests: ill-formed terms are refused, words written out from the spec's encoding decode
to their commands, vectors of `95_test_vectors.md` that hold for every `Numerics` (no [N] mark) run
as it says, and for every statement a state and operands that meet its hypotheses. -/

open Sys2Proof Sys2Proof.Machine

namespace Sys2Proof.Tests

-- One theorem at a time: many at once exhaust the threads the check may open.
set_option Elab.async false

/-! Well-formedness: INST is 4 bits, IDX 12 bits, the harmonic 8 bits (R101, R105). -/

/-- Every command refuses instance 16. -/
def badInstances : List Instr :=
  [.sysRst 16, .sysRd 16 0, .sysWr 16 0 0, .sysNop 16, .oscInit 16 0 0, .oscRd 16 0,
   .oscWr 16 0 0, .oscSetf 16 0, .oscSin 16, .oscCos 16, .oscSinh 16 0, .oscCosh 16 0,
   .oscAdv 16, .preInit 16, .preRd 16 0, .preWr 16 0 0, .preStep 16 0, .flpInit 16,
   .flpRd 16 0, .flpWr 16 0 0, .flpStep 16 0, .fhpInit 16, .fhpRd 16 0, .fhpWr 16 0 0,
   .fhpStep 16 0, .bqInit 16, .bqRd 16 0, .bqWr 16 0 0, .bqStep 16 0, .hilInit 16, .hilRd 16 0,
   .hilWr 16 0 0, .hilStep 16 0, .fmInit 16, .fmRd 16 0, .fmWr 16 0 0, .fmMod 16 0,
   .dsbInit 16, .dsbRd 16 0, .dsbWr 16 0 0, .dsbEnc 16 0, .muxInit 16, .muxRd 16 0,
   .muxWr 16 0 0, .muxEnc 16 false 0 0, .bsInit 16, .bsRd 16 0, .bsWr 16 0 0, .bsMeas 16 0,
   .bsD2dbr 16 0, .bsDbr2d 16 0, .bsRatio 16 0, .agcInit 16, .agcRd 16 0, .agcWr 16 0 0,
   .agcProc 16 0, .addInit 16, .addRd 16 0, .addWr 16 0 0, .addClr 16, .addIn 16 0 0,
   .addOut 16, .tiltInit 16, .tiltRd 16 0, .tiltWr 16 0 0, .tiltStep 16 0, .dlyInit 16,
   .dlyRd 16 0, .dlyWr 16 0 0, .dlySetd 16 0, .dlyPushpop 16 0]

theorem test_wf_refuses_instance_16 : badInstances.all (fun i => !i.wf) = true := by decide

/-- `RD` and `WR` of every unit refuse index 4096. -/
def badIndices : List Instr :=
  [.sysRd 15 4096, .sysWr 15 4096 0, .oscRd 15 4096, .oscWr 15 4096 0, .preRd 15 4096,
   .preWr 15 4096 0, .flpRd 15 4096, .flpWr 15 4096 0, .fhpRd 15 4096, .fhpWr 15 4096 0,
   .bqRd 15 4096, .bqWr 15 4096 0, .hilRd 15 4096, .hilWr 15 4096 0, .fmRd 15 4096,
   .fmWr 15 4096 0, .dsbRd 15 4096, .dsbWr 15 4096 0, .muxRd 15 4096, .muxWr 15 4096 0,
   .bsRd 15 4096, .bsWr 15 4096 0, .agcRd 15 4096, .agcWr 15 4096 0, .addRd 15 4096,
   .addWr 15 4096 0, .tiltRd 15 4096, .tiltWr 15 4096 0, .dlyRd 15 4096, .dlyWr 15 4096 0]

theorem test_wf_refuses_index_4096 : badIndices.all (fun i => !i.wf) = true := by decide

theorem test_wf_refuses_harmonic_256 :
    (Instr.oscSinh 0 256).wf = false ∧ (Instr.oscCosh 15 256).wf = false := by decide

theorem test_wf_accepts_the_greatest_operands :
    (Instr.preRd 15 4095).wf = true ∧ (Instr.oscSinh 15 255).wf = true ∧
      (Instr.addIn 15 7 0xFFFFFFFF#32).wf = true := by decide

/-! Decoding: one word for every command, written from the fields of R101 (UNIT, FUNC, INST, IDX,
FLAGS), with the rest of the packet 0x11111111 and 0x22222222. -/

/-- The command of a word with operand words 0x11111111 and 0x22222222. -/
def read (cmd : Word) : Option Instr :=
  match decode ⟨cmd, 0x11111111#32, 0x22222222#32⟩ with
  | .ok i => some i
  | .error _ => none

theorem test_decode_sys :
    read 0x00000000#32 = some (.sysRst 0) ∧
      read 0x013ABC00#32 = some (.sysRd 3 0xABC) ∧
      read 0x02612300#32 = some (.sysWr 6 0x123 0x11111111#32) ∧
      read 0x03900000#32 = some (.sysNop 9) := by decide

theorem test_decode_osc :
    read 0x10100000#32 = some (.oscInit 1 0x11111111#32 0x22222222#32) ∧
      read 0x114ABC00#32 = some (.oscRd 4 0xABC) ∧
      read 0x12712300#32 = some (.oscWr 7 0x123 0x11111111#32) ∧
      read 0x13A00000#32 = some (.oscSetf 10 0x11111111#32) ∧
      read 0x14D00000#32 = some (.oscSin 13) ∧
      read 0x15000000#32 = some (.oscCos 0) ∧
      read 0x1630A500#32 = some (.oscSinh 3 0xA5) ∧
      read 0x17605A00#32 = some (.oscCosh 6 0x5A) ∧
      read 0x18900000#32 = some (.oscAdv 9) := by decide

theorem test_decode_pre :
    read 0x20200000#32 = some (.preInit 2) ∧
      read 0x215ABC00#32 = some (.preRd 5 0xABC) ∧
      read 0x22812300#32 = some (.preWr 8 0x123 0x11111111#32) ∧
      read 0x23B00000#32 = some (.preStep 11 0x11111111#32) := by decide

theorem test_decode_flp :
    read 0x30300000#32 = some (.flpInit 3) ∧
      read 0x316ABC00#32 = some (.flpRd 6 0xABC) ∧
      read 0x32912300#32 = some (.flpWr 9 0x123 0x11111111#32) ∧
      read 0x33C00000#32 = some (.flpStep 12 0x11111111#32) := by decide

theorem test_decode_fhp :
    read 0x40400000#32 = some (.fhpInit 4) ∧
      read 0x417ABC00#32 = some (.fhpRd 7 0xABC) ∧
      read 0x42A12300#32 = some (.fhpWr 10 0x123 0x11111111#32) ∧
      read 0x43D00000#32 = some (.fhpStep 13 0x11111111#32) := by decide

theorem test_decode_bq :
    read 0x50500000#32 = some (.bqInit 5) ∧
      read 0x518ABC00#32 = some (.bqRd 8 0xABC) ∧
      read 0x52B12300#32 = some (.bqWr 11 0x123 0x11111111#32) ∧
      read 0x53E00000#32 = some (.bqStep 14 0x11111111#32) := by decide

theorem test_decode_hil :
    read 0x60600000#32 = some (.hilInit 6) ∧
      read 0x619ABC00#32 = some (.hilRd 9 0xABC) ∧
      read 0x62C12300#32 = some (.hilWr 12 0x123 0x11111111#32) ∧
      read 0x63F00000#32 = some (.hilStep 15 0x11111111#32) := by decide

theorem test_decode_fm :
    read 0x70700000#32 = some (.fmInit 7) ∧
      read 0x71AABC00#32 = some (.fmRd 10 0xABC) ∧
      read 0x72D12300#32 = some (.fmWr 13 0x123 0x11111111#32) ∧
      read 0x73000000#32 = some (.fmMod 0 0x11111111#32) := by decide

theorem test_decode_dsb :
    read 0x80800000#32 = some (.dsbInit 8) ∧
      read 0x81BABC00#32 = some (.dsbRd 11 0xABC) ∧
      read 0x82E12300#32 = some (.dsbWr 14 0x123 0x11111111#32) ∧
      read 0x83100000#32 = some (.dsbEnc 1 0x11111111#32) := by decide

theorem test_decode_mux :
    read 0x90900000#32 = some (.muxInit 9) ∧
      read 0x91CABC00#32 = some (.muxRd 12 0xABC) ∧
      read 0x92F12300#32 = some (.muxWr 15 0x123 0x11111111#32) ∧
      read 0x93200001#32 = some (.muxEnc 2 true 0x11111111#32 0x22222222#32) := by decide

theorem test_decode_bs :
    read 0xA0A00000#32 = some (.bsInit 10) ∧
      read 0xA1DABC00#32 = some (.bsRd 13 0xABC) ∧
      read 0xA2012300#32 = some (.bsWr 0 0x123 0x11111111#32) ∧
      read 0xA3300000#32 = some (.bsMeas 3 0x11111111#32) ∧
      read 0xA4600000#32 = some (.bsD2dbr 6 0x11111111#32) ∧
      read 0xA5900000#32 = some (.bsDbr2d 9 0x11111111#32) ∧
      read 0xA6C00000#32 = some (.bsRatio 12 0x11111111#32) := by decide

theorem test_decode_agc :
    read 0xB0B00000#32 = some (.agcInit 11) ∧
      read 0xB1EABC00#32 = some (.agcRd 14 0xABC) ∧
      read 0xB2112300#32 = some (.agcWr 1 0x123 0x11111111#32) ∧
      read 0xB3400000#32 = some (.agcProc 4 0x11111111#32) := by decide

theorem test_decode_add :
    read 0xC0C00000#32 = some (.addInit 12) ∧
      read 0xC1FABC00#32 = some (.addRd 15 0xABC) ∧
      read 0xC2212300#32 = some (.addWr 2 0x123 0x11111111#32) ∧
      read 0xC3500000#32 = some (.addClr 5) ∧
      read 0xC4800600#32 = some (.addIn 8 6 0x11111111#32) ∧
      read 0xC5B00000#32 = some (.addOut 11) := by decide

theorem test_decode_tilt :
    read 0xD0D00000#32 = some (.tiltInit 13) ∧
      read 0xD10ABC00#32 = some (.tiltRd 0 0xABC) ∧
      read 0xD2312300#32 = some (.tiltWr 3 0x123 0x11111111#32) ∧
      read 0xD3600000#32 = some (.tiltStep 6 0x11111111#32) := by decide

theorem test_decode_dly :
    read 0xE0E00000#32 = some (.dlyInit 14) ∧
      read 0xE11ABC00#32 = some (.dlyRd 1 0xABC) ∧
      read 0xE2412300#32 = some (.dlyWr 4 0x123 0x11111111#32) ∧
      read 0xE3700000#32 = some (.dlySetd 7 0x11111111#32) ∧
      read 0xE4A00000#32 = some (.dlyPushpop 10 0x11111111#32) := by decide

/-! Words that are illegal (V5b to V5g, V5i), and the greatest immediates. -/

theorem test_decode_refuses :
    read 0x23000300#32 = none ∧ read 0xF0000000#32 = none ∧ read 0x19000000#32 = none ∧
      read 0x93000002#32 = none ∧ read 0x16010200#32 = none ∧ read 0xC4000800#32 = none ∧
      read 0x04000000#32 = none ∧ read 0x01000001#32 = none ∧ read 0x18000100#32 = none := by decide

theorem test_decode_greatest_immediates :
    read 0x1730FF00#32 = some (.oscCosh 3 255) ∧ read 0xC4000700#32 = some (.addIn 0 7 0x11111111#32) ∧
      read 0x31FFFF00#32 = some (.flpRd 15 0xFFF) := by decide

/-- A table row's bits: the command word alone, and the command word with A above it. -/
theorem test_decode_table_word :
    decodeTableWord 32 0x93000001 = some (.muxEnc 0 true 0 0) ∧
      decodeTableWord 96 0x40800000_3F800000_10000000 = some (.oscInit 0 0x3F800000#32 0x40800000#32) := by
  decide

/-! One step on a small state: `bench` has one or two instances of every unit, constructed, with the
parameters FIR_TAPS = 5, DLY_CAP = 4 and a ROM of the signs R190 asks for. -/

/-- A ROM that meets R190: -1 at even taps below 47, a zero at odd ones, 1 at even ones above. -/
def rom : List Word :=
  (List.range 95).map fun k => if k % 2 = 1 then zero else if 47 < k then one else fneg one

def oscOn : OscRegs :=
  { phase := 0x3F1F2C8D#32, pinc := 0x3F1F2C8D#32, srate := 0x483B8000#32, inited := true }

def preOn : PreRegs :=
  { PreRegs.reset with alpha := half, gain := two, xprev := one, inited := true }

/-- COEF = 0.25, 0.5, 0.25, 0, 0 (V33). -/
def firOn : FirRegs :=
  { FirRegs.reset 5 with coef := [0x3E800000#32, half, 0x3E800000#32, 0, 0], inited := true }

/-- The section of V35. -/
def bqOn : BqRegs :=
  { BqRegs.reset with b0 := half, b1 := half, a1 := 0xBF000000#32, x1 := one, y1 := half, inited := true }

def hilOn : HilRegs := { HilRegs.reset with wpos := 94, hist := one :: List.replicate 94 0, inited := true }

/-- The modulator of V23, in owned mode. -/
def fmOn : FmRegs :=
  { FmRegs.reset with
    center := one, deviation := 0x40800000#32, srate := 0x40800000#32, inited := true }

def fmShared : FmRegs :=
  { FmRegs.reset with
    center := 0x4782DC00#32, deviation := 0x45BB8000#32, shared := 1, inited := true }

def dsbOn : DsbRegs := { DsbRegs.reset with harm := 2, inited := true }

def muxOn (mode : Word) : MuxRegs :=
  { MuxRegs.reset with
    harm := 2, mode := mode, monovol := 0x3EE66666#32, pilotvol := 0x3DB851EC#32
    stereovol := 0x3EE66666#32, inited := true }

/-- The meter of P3 after three commands. -/
def bsOn : BsRegs :=
  { BsRegs.reset with
    srate := 0x3D800000#32, refdev := 0x46800000#32, floor := 0xC2C80000#32, eps := 0x3089705F#32
    acc := 0x4E400000#32, count := 3, inited := true }

/-- The estimator of V61. -/
def agcOn : AgcRegs :=
  { AgcRegs.reset with
    target := half, mingain := 0x3E800000#32, maxgain := 0x40800000#32, eps := 0x35800000#32
    attackC := half, releaseC := 0x3F400000#32, rmsC := half, gain := one, inited := true }

def addOn : AddRegs :=
  { AddRegs.reset with vol := Vector.replicate 8 two, car := (Vector.replicate 8 0).set 2 0x301
                       sum := one, inited := true }

/-- The filter of V30. -/
def tiltOn : TiltRegs :=
  { TiltRegs.reset with alpha := 0x3F7FF547#32, xprev := one, yprev := one, inited := true }

def dlyOn : DlyRegs :=
  { wpos := 1, rpos := 2, delay := 3, buf := [1, 2, 3, 4], inited := true }

def bench : State where
  par := { firTaps := 5, dlyCap := 4, polarDc := Config.polarDc, ssbQGain := Config.ssbQGain, hilCoef := rom }
  fault := 0
  cmdcnt := 5
  osc := [oscOn, OscRegs.reset]
  pre := [preOn, PreRegs.reset]
  flp := [firOn, FirRegs.reset 5]
  fhp := [firOn, FirRegs.reset 5]
  bq := [bqOn, BqRegs.reset]
  hil := [hilOn]
  fm := [fmOn, fmShared]
  dsb := [dsbOn]
  mux := [muxOn 1, muxOn 2]
  bs := [bsOn, BsRegs.reset]
  agc := [agcOn]
  add := [addOn]
  tilt := [tiltOn, TiltRegs.reset]
  dly := [dlyOn]
  input := []
  rsp := none

/-- A field of the next state. -/
def out {α : Type} (r : Result) (f : State → α) : Option α :=
  match r with
  | .next t => some (f t)
  | .fault _ => none
  | .refused _ => none

/-- The response and one register of the next state. -/
def look (i : Instr) (s : State) (u : UnitId) (inst idx : Nat) :
    Option (Option Response × Option (RegClass × Word)) :=
  out (exec i s) fun t => (t.rsp, t.reg u inst idx)

/-! SYS (V5j to V5q). -/

theorem test_sysRd : look (.sysRd 0 0) bench .sys 0 2 =
    some (some ⟨.ok, 0x464D3935#32, 0⟩, some (.ro, 6)) := by decide

theorem test_sysNop : look (.sysNop 0) bench .sys 0 2 = some (some ⟨.ok, 0, 0⟩, some (.ro, 6)) := by
  decide

theorem test_sysWr : look (.sysWr 0 1 0) bench .sys 0 1 =
    some (some ⟨.badIndex, 0, 0⟩, some (.ro, 8)) := by decide

theorem test_sysRst : look (.sysRst 0) bench .sys 0 2 = some (some ⟨.ok, 0, 0⟩, some (.ro, 0)) := by
  decide

theorem test_sysRst_clears_inited :
    look (.sysRst 0) bench .pre 0 0x0FF = some (some ⟨.ok, 0, 0⟩, some (.ro, 0)) := by decide

/-! OSC (V8, V9, V12, V13, V15, V5o). -/

theorem test_oscInit : look (.oscInit 0 0x46947000#32 0x483B8000#32) bench .osc 0 0x021 =
    some (some ⟨.ok, 0, 0⟩, some (.st, 0x3F1F2C8D#32)) := by decide +kernel

theorem test_oscInit_bad_rate : look (.oscInit 1 one zero) bench .osc 1 0x0FF =
    some (some ⟨.configError, 0, 0⟩, some (.ro, 0)) := by decide

theorem test_oscSetf : look (.oscSetf 0 0x473B8000#32) bench .osc 0 0x021 =
    some (some ⟨.ok, 0, 0⟩, some (.st, 0x3FC90FDB#32)) := by decide +kernel

/-- `bench` with the phase and increment of an oscillator. -/
def turning (phase pinc : Word) : State :=
  { bench with osc := [{ oscOn with phase := phase, pinc := pinc }] }

theorem test_oscAdv_wraps : look (.oscAdv 0) (turning 0x4096CBE4#32 0x3FC90FDB#32) .osc 0 0x020 =
    some (some ⟨.ok, 0, 0⟩, some (.st, 0)) := by decide +kernel

theorem test_oscAdv_out_of_range : look (.oscAdv 0) (turning 0x3FC90FDC#32 0x40FB53D2#32) .osc 0 0x020 =
    some (some ⟨.ok, 0, 0⟩, some (.st, 0x40490FDA#32)) := by decide +kernel

theorem advance_oscOn : oscOn.advance = { oscOn with phase := 0x3F9F2C8D#32 } := by decide +kernel

theorem test_oscSin : (exec (.oscSin 0) bench) =
    .next ((bench.putOsc 0 { oscOn with phase := 0x3F9F2C8D#32 }).completed
      (Config.fsin 0x3F1F2C8D#32) 0) := by
  rw [← show oscOn.advance = _ from advance_oscOn]
  rfl

theorem test_oscCos : (exec (.oscCos 0) bench) =
    .next ((bench.putOsc 0 { oscOn with phase := 0x3F9F2C8D#32 }).completed
      (Config.fcos 0x3F1F2C8D#32) 0) := by
  rw [← show oscOn.advance = _ from advance_oscOn]
  rfl

theorem test_oscSinh : exec (.oscSinh 0 2) bench =
    .next (bench.completed (Config.fsin 0x3F9F2C8D#32) 0) := by
  rw [← show harmonicArg 0x3F1F2C8D#32 2 = 0x3F9F2C8D#32 by decide +kernel]
  rfl

theorem test_oscCosh : exec (.oscCosh 0 3) bench =
    .next (bench.completed (Config.fcos 0x3FEEC2D4#32) 0) := by
  rw [← show harmonicArg 0x3F1F2C8D#32 3 = 0x3FEEC2D4#32 by decide +kernel]
  rfl

theorem test_oscRd : look (.oscRd 0 0x022) bench .osc 0 0x0FF =
    some (some ⟨.ok, 0x483B8000#32, 0⟩, some (.ro, 1)) := by decide

theorem test_oscWr : look (.oscWr 0 0x020 one) bench .osc 0 0x020 =
    some (some ⟨.badIndex, 0, 0⟩, some (.st, 0x3F1F2C8D#32)) := by decide

/-! PRE and TILT (V5n, V29, V30, V31, V31a). -/

theorem test_preInit_bad_rate :
    look (.preInit 1) { bench with pre := [preOn, { PreRegs.reset with srate := 0xBF800000#32 }] }
      .pre 1 0x0FF = some (some ⟨.configError, 0, 0⟩, some (.ro, 0)) := by decide

theorem test_preStep : look (.preStep 0 0) bench .pre 0 0x020 =
    some (some ⟨.ok, 0xBF800000#32, 0⟩, some (.st, 0)) := by decide +kernel

theorem test_preWr : look (.preWr 0 0 0x389D4952#32) bench .pre 0 0x0FF =
    some (some ⟨.ok, 0, 0⟩, some (.ro, 0)) := by decide

theorem test_preRd : look (.preRd 0 0x020) bench .pre 0 0x010 =
    some (some ⟨.ok, one, 0⟩, some (.drv, half)) := by decide

theorem test_tiltInit :
    look (.tiltInit 1)
        { bench with tilt := [tiltOn, { TiltRegs.reset with cutoff := 0x40A00000#32, srate := 0x483B8000#32 }] }
        .tilt 1 0x010 = some (some ⟨.ok, 0, 0⟩, some (.drv, 0x3F7FF547#32)) := by decide +kernel

theorem test_tiltStep : look (.tiltStep 0 one) bench .tilt 0 0x021 =
    some (some ⟨.ok, 0x3F7FF547#32, 0⟩, some (.st, 0x3F7FF547#32)) := by decide +kernel

theorem test_tiltRd : look (.tiltRd 0 0x021) bench .tilt 0 0x022 = some (some ⟨.ok, one, 0⟩, none) := by
  decide

theorem test_tiltWr : look (.tiltWr 0 0x010 one) bench .tilt 0 0x010 =
    some (some ⟨.badIndex, 0, 0⟩, some (.drv, 0x3F7FF547#32)) := by decide

/-! FLP and FHP (V33, V34, R167, R168). -/

theorem test_flpStep : look (.flpStep 0 one) bench .flp 0 0x020 =
    some (some ⟨.ok, 0x3E800000#32, 0⟩, some (.st, 1)) := by decide +kernel

theorem test_flpStep_wraps :
    look (.flpStep 0 zero) { bench with flp := [{ firOn with hist := [0, 0, 0, one, 0], wpos := 4 }] }
      .flp 0 0x020 = some (some ⟨.ok, half, 0⟩, some (.st, 0)) := by decide +kernel

theorem test_flpInit_at_half_rate :
    look (.flpInit 1)
        { bench with flp := [firOn, { FirRegs.reset 5 with cutoff := 0x47BB8000#32, srate := 0x483B8000#32 }] }
        .flp 1 0x0FF = some (some ⟨.configError, 0, 0⟩, some (.ro, 0)) := by decide +kernel

theorem test_fhpInit_zero_cutoff :
    look (.fhpInit 1) { bench with fhp := [firOn, { FirRegs.reset 5 with srate := 0x483B8000#32 }] }
      .fhp 1 0x0FF = some (some ⟨.configError, 0, 0⟩, some (.ro, 0)) := by decide

/-- The inversion of R167 on the kernel of R166's example. -/
theorem test_fhp_inversion :
    invertKernel 5 [0x25A6D1F0#32, 0x3E1AAEDC#32, 0x3F32A892#32, 0x3E1AAEDA#32, 0x25A6D1F0#32] =
      [0xA5A6D1F0#32, 0xBE1AAEDC#32, 0x3E9AAEDC#32, 0xBE1AAEDA#32, 0xA5A6D1F0#32] := by decide +kernel

/-- The third step of R169's example. -/
theorem test_fhpStep :
    look (.fhpStep 0 one)
        { bench with fhp := [{ firOn with
            coef := [0xBE800000#32, half, 0xBE800000#32, 0, 0], hist := [one, one, 0, 0, 0], wpos := 2 }] }
        .fhp 0 0x802 = some (some ⟨.ok, zero, 0⟩, some (.st, one)) := by decide +kernel

theorem test_flpRd : look (.flpRd 0 0x401) bench .flp 0 0x405 = some (some ⟨.ok, half, 0⟩, none) := by
  decide

theorem test_flpWr : look (.flpWr 0 0 one) bench .flp 0 0x000 =
    some (some ⟨.ok, 0, 0⟩, some (.cfg, one)) := by decide

theorem test_fhpRd : look (.fhpRd 0 0x405) bench .sys 0 1 =
    some (some ⟨.badIndex, 0, 0⟩, some (.ro, 8)) := by decide

theorem test_fhpWr : look (.fhpWr 0 1 one) bench .fhp 0 0x0FF =
    some (some ⟨.ok, 0, 0⟩, some (.ro, 0)) := by decide

/-! BQ, HIL, DLY (V35, V36, V38, V39, P5, R197). -/

theorem test_bqInit : look (.bqInit 0) bench .bq 0 0x020 = some (some ⟨.ok, 0, 0⟩, some (.st, 0)) := by
  decide

/-- The second step of V35. -/
theorem test_bqStep : look (.bqStep 0 one) bench .bq 0 0x023 =
    some (some ⟨.ok, 0x3FA00000#32, 0⟩, some (.st, half)) := by decide +kernel

theorem test_bqRd : look (.bqRd 0 4) bench .bq 0 5 = some (some ⟨.ok, 0, 0⟩, none) := by decide

theorem test_bqWr : look (.bqWr 1 4 0x7FC00000#32) bench .bq 1 4 =
    some (some ⟨.ok, 0, 0⟩, some (.cfg, 0x7FC00000#32)) := by decide

theorem test_hilInit : look (.hilInit 0) bench .hil 0 0x800 =
    some (some ⟨.ok, 0, 0⟩, some (.st, 0)) := by decide

/-- One step after an impulse that stands 94 samples back: Q is the last tap (V36). -/
theorem test_hilStep :
    look (.hilStep 0 zero)
        { bench with hil := [{ hilOn with hist := List.replicate 94 0 ++ [one], wpos := 93 }] }
        .hil 0 0x020 = some (some ⟨.ok, zero, one⟩, some (.st, 94)) := by decide +kernel

theorem test_hilRd : look (.hilRd 0 0x42F) bench .hil 0 0x45F = some (some ⟨.ok, zero, 0⟩, none) := by
  decide

theorem test_hilWr : look (.hilWr 0 0x020 0) bench .hil 0 0x020 =
    some (some ⟨.badIndex, 0, 0⟩, some (.st, 94)) := by decide

theorem test_dlyInit : look (.dlyInit 0) bench .dly 0 0x803 =
    some (some ⟨.ok, 0, 0⟩, some (.st, 0)) := by decide

/-- R197's example, and the clamp of V38 at the capacity 4. -/
theorem test_dlySetd :
    look (.dlySetd 0 0xFFFFFFFF#32) bench .dly 0 0x021 = some (some ⟨.ok, 0, 0⟩, some (.st, 1)) ∧
      look (.dlySetd 0 0x7FFFFFFF#32) bench .dly 0 0x021 = some (some ⟨.ok, 3, 0⟩, some (.st, 2)) := by
  decide

theorem test_dlyPushpop : look (.dlyPushpop 0 9) bench .dly 0 0x801 =
    some (some ⟨.ok, 3, 0⟩, some (.st, 9)) := by decide

theorem test_dlyPushpop_cursors :
    out (exec (.dlyPushpop 0 9) { bench with dly := [{ dlyOn with wpos := 3 }] })
      (fun t => (t.reg .dly 0 0x020, t.reg .dly 0 0x021)) = some (some (.st, 0), some (.st, 3)) := by decide

theorem test_dlyRd : look (.dlyRd 0 0x803) bench .dly 0 0x804 = some (some ⟨.ok, 4, 0⟩, none) := by decide

theorem test_dlyWr : look (.dlyWr 0 0x022 5) bench .dly 0 0x0FF =
    some (some ⟨.badIndex, 0, 0⟩, some (.ro, 1)) := by decide

/-! FM (V23, V24, V25, R140). -/

theorem test_fmInit : look (.fmInit 0) { bench with fm := [{ fmOn with phase := one }] } .fm 0 0x020 =
    some (some ⟨.ok, 0, 0⟩, some (.st, 0)) := by decide

theorem test_fmMod_owned : exec (.fmMod 0 0xBF000000#32) bench =
    .next ((bench.putFm 0 { fmOn with phase := 0x4096CBE4#32 }).completed
      (Config.fsin 0x4096CBE4#32) 0) := by
  rw [← show fmOn.nextPhase 0xBF000000#32 = 0x4096CBE4#32 by decide +kernel]
  rfl

theorem test_fmMod_shared : exec (.fmMod 1 half) bench =
    .next ((bench.putOsc 0 { oscOn with pinc := 0x40129B8F#32 }).completed
      (Config.fsin 0x3F1F2C8D#32) 0) := by
  rw [← show oscIncrement (fmShared.frequency half) 0x483B8000#32 = 0x40129B8F#32 by decide +kernel]
  rfl

theorem test_fmRd : look (.fmRd 1 3) bench .fm 1 5 = some (some ⟨.ok, 1, 0⟩, none) := by decide

theorem test_fmWr : look (.fmWr 0 2 zero) bench .fm 0 0x0FF = some (some ⟨.ok, 0, 0⟩, some (.ro, 0)) := by
  decide

/-! DSB and MUX (V45, V47a, R206, R207, R209). -/

theorem test_dsbInit : look (.dsbInit 0) { bench with dsb := [{ dsbOn with harm := 256 }] } .dsb 0 0x0FF =
    some (some ⟨.configError, 0, 0⟩, some (.ro, 1)) := by decide

theorem test_dsbEnc : exec (.dsbEnc 0 half) bench =
    .next (bench.completed (fmul half (Config.fsin 0x3F9F2C8D#32)) 0) := by
  rw [← show harmonicArg 0x3F1F2C8D#32 2 = 0x3F9F2C8D#32 by decide +kernel]
  rfl

theorem test_dsbRd : look (.dsbRd 0 1) bench .dsb 0 3 = some (some ⟨.ok, 2, 0⟩, none) := by decide

theorem test_dsbWr : look (.dsbWr 0 2 1) bench .dsb 0 2 = some (some ⟨.ok, 0, 0⟩, some (.cfg, 1)) := by
  decide

theorem test_muxInit : look (.muxInit 0) bench .mux 0 0x0FF = some (some ⟨.ok, 0, 0⟩, some (.ro, 1)) := by
  decide

theorem test_muxInit_bad_mode : look (.muxInit 0) { bench with mux := [muxOn 4] } .sys 0 1 =
    some (some ⟨.configError, 0, 0⟩, some (.ro, 16)) := by decide

theorem test_muxEnc_mono : look (.muxEnc 0 true one zero) { bench with mux := [muxOn 0] } .osc 0 0x020 =
    some (some ⟨.ok, 0x3E666666#32, 0⟩, some (.st, 0x3F9F2C8D#32)) := by decide +kernel

/-- In SSB mode the delay line is stepped and the phase, without ADV, is not. -/
theorem test_muxEnc_ssb :
    out (exec (.muxEnc 1 false one zero) bench)
        (fun t => (t.reg .dly 0 0x801, t.reg .hil 0 0x020, t.reg .osc 0 0x020)) =
      some (some (.st, half), some (.st, 0), some (.st, 0x3F1F2C8D#32)) := by decide +kernel

theorem test_muxRd : look (.muxRd 0 8) bench .mux 0 9 = some (some ⟨.ok, 0, 0⟩, none) := by decide

theorem test_muxWr : look (.muxWr 0 2 7) bench .mux 0 2 = some (some ⟨.ok, 0, 0⟩, some (.cfg, 7)) := by decide

/-! BS (V48, P3, R231). -/

theorem test_bsInit : look (.bsInit 0) bench .bs 0 0x021 = some (some ⟨.ok, 0, 0⟩, some (.st, 0)) := by
  decide

/-- The fourth measure of P3: the window ends, the mean square seeds the next. -/
theorem test_bsMeas_window :
    out (exec (.bsMeas 0 0x46800000#32) bench) (fun t => (t.reg .bs 0 0x020, t.reg .bs 0 0x021)) =
      some (some (.st, 0x4D800000#32), some (.st, 1)) := by decide +kernel

theorem test_bsMeas_silence :
    look (.bsMeas 0 zero) { bench with bs := [{ bsOn with acc := 0, count := 0 }] } .bs 0 0x021 =
      some (some ⟨.ok, 0xC2C80000#32, 0⟩, some (.st, 1)) := by decide +kernel

theorem test_bsD2dbr : look (.bsD2dbr 0 0x80000000#32) bench .bs 0 0x021 =
    some (some ⟨.ok, 0xC2C80000#32, 0⟩, some (.st, 3)) := by decide

theorem test_bsDbr2d : exec (.bsDbr2d 0 zero) bench =
    .next (bench.completed
      (fmul 0x46800000#32 (Config.fexp2 (fdiv zero (fmul twenty (Config.flog10 two))))) 0) := by rfl

theorem test_bsRatio : look (.bsRatio 0 0xBF800000#32) bench .bs 0 0x004 =
    some (some ⟨.ok, one, 0⟩, some (.cfg, 0)) := by decide +kernel

theorem test_bsRd : look (.bsRd 0 0x021) bench .bs 0 5 = some (some ⟨.ok, 3, 0⟩, none) := by decide

theorem test_bsWr : look (.bsWr 0 0x021 0) bench .bs 0 0x021 =
    some (some ⟨.badIndex, 0, 0⟩, some (.st, 3)) := by decide

/-! AGC (V61 to V63). -/

theorem test_agcInit_bad_range :
    look (.agcInit 0) { bench with agc := [{ agcOn with mingain := two, maxgain := one }] } .sys 0 1 =
      some (some ⟨.configError, 0, 0⟩, some (.ro, 16)) := by decide

theorem test_agcProc : look (.agcProc 0 one) bench .agc 0 0x021 =
    some (some ⟨.ok, 0x3F8D4135#32, 0⟩, some (.st, 0x3EB504F3#32)) := by decide +kernel

theorem test_agcProc_silence : look (.agcProc 0 zero) bench .agc 0 0x020 =
    some (some ⟨.ok, 0x3FE00000#32, 0⟩, some (.st, 0x3FE00000#32)) := by decide +kernel

theorem test_agcRd : look (.agcRd 0 0x011) bench .agc 0 0x013 =
    some (some ⟨.ok, 0x3F400000#32, 0⟩, none) := by decide

theorem test_agcWr : look (.agcWr 0 7 one) bench .agc 0 7 =
    some (some ⟨.ok, 0, 0⟩, some (.cfg, one)) := by decide

/-! ADD (V65, V66, R262). -/

theorem test_addInit_bad_carrier :
    look (.addInit 0) { bench with add := [{ addOn with car := addOn.car.set 1 0x00010001#32 }] } .sys 0 1 =
      some (some ⟨.configError, 0, 0⟩, some (.ro, 16)) := by decide

theorem test_addInit : look (.addInit 0) bench .add 0 0x040 = some (some ⟨.ok, 0, 0⟩, some (.st, 0)) := by
  decide

theorem test_addClr : look (.addClr 0) bench .add 0 0x040 = some (some ⟨.ok, 0, 0⟩, some (.st, 0)) := by
  decide

theorem test_addIn : look (.addIn 0 0 half) bench .add 0 0x040 =
    some (some ⟨.ok, two, 0⟩, some (.st, two)) := by decide +kernel

theorem test_addIn_carrier : exec (.addIn 0 2 half) bench =
    .next ((bench.putAdd 0 { addOn with sum := fadd one (fmul 0x3F800000#32 (Config.fsin 0x3FEEC2D4#32)) }).completed
      (fadd one (fmul 0x3F800000#32 (Config.fsin 0x3FEEC2D4#32))) 0) := by
  rw [← show harmonicArg 0x3F1F2C8D#32 3 = 0x3FEEC2D4#32 by decide +kernel,
    ← show fmul half addOn.vol[(2 : Fin 8)] = 0x3F800000#32 by decide +kernel]
  rfl

theorem test_addOut : look (.addOut 0) bench .add 0 0x022 =
    some (some ⟨.ok, one, 0⟩, some (.cfg, 0x301#32)) := by decide

theorem test_addRd : look (.addRd 0 0x017) bench .add 0 0x018 = some (some ⟨.ok, two, 0⟩, none) := by decide

theorem test_addWr : look (.addWr 0 0x027 7) bench .add 0 0x027 =
    some (some ⟨.ok, 0, 0⟩, some (.cfg, 7)) := by decide

/-! The step: a packet from the host, a reset, and the word the table numbers. -/

theorem test_step_command :
    out (step (bench.present ⟨0x03000000#32, 0, 0⟩)) (fun t => (t.rsp, t.cmdcnt, t.input)) =
      some (some ⟨.ok, 0, 0⟩, 6, []) := by decide

theorem test_step_illegal :
    out (step (bench.present ⟨0x23000300#32, one, 0⟩)) (fun t => (t.rsp, t.fault, t.cmdcnt)) =
      some (some ⟨.illegalCmd, 0, 0⟩, 2, 6) := by decide

theorem test_step_rst :
    out (step { bench with input := [.rst, .command ⟨0, 0, 0⟩], fault := 0x3E#32 })
        (fun t => (t.rsp, t.fault, t.reg .osc 0 0x020, t.input.length)) =
      some (none, 0, some (.st, 0), 1) := by decide

theorem test_step_fetches_the_table_word :
    out (step (State.reset.withFetchWord 32 0x01000000)) (fun t => (t.rsp, t.cmdcnt)) =
      some (some ⟨.ok, 0x464D3935#32, 0⟩, 1) := by decide

/-! The hypotheses of the statements, met. `good` is a state of the invariant in which every unit whose
construction uses no function of `Numerics` is constructed. -/

def tiltGood : TiltRegs :=
  { tiltOn with cutoff := 0x40A00000#32, srate := 0x483B8000#32 }

def good : State :=
  { bench with
    pre := [PreRegs.reset]
    flp := [FirRegs.reset 5]
    fhp := [FirRegs.reset 5]
    agc := [AgcRegs.reset]
    tilt := [tiltGood] }

theorem good_par : good.par.Legal where
  taps_odd := by decide
  taps_range := by decide
  cap_range := by decide
  rom_length := by decide
  rom_antisymmetric := by decide +kernel
  rom_odd_zero := by decide +kernel
  rom_finite := by decide +kernel
  rom_positive := by decide +kernel

theorem good_inv : good.Inv where
  par := good_par
  osc_count := by decide
  counts := fun u => by cases u <;> decide
  fault := by decide
  osc := List.forall_mem_cons.mpr ⟨fun _ => by decide +kernel,
    List.forall_mem_singleton.mpr fun h => absurd h (by decide)⟩
  pre := List.forall_mem_singleton.mpr fun h => absurd h (by decide)
  flp := List.forall_mem_singleton.mpr ⟨rfl, rfl, by decide, fun h => absurd h (by decide)⟩
  fhp := List.forall_mem_singleton.mpr ⟨rfl, rfl, by decide, fun h => absurd h (by decide)⟩
  bq := List.forall_mem_cons.mpr ⟨fun _ => by decide +kernel,
    List.forall_mem_singleton.mpr fun h => absurd h (by decide)⟩
  hil := List.forall_mem_singleton.mpr ⟨rfl, by decide⟩
  fm := List.forall_mem_cons.mpr ⟨fun _ => by decide +kernel,
    List.forall_mem_singleton.mpr fun _ => by decide +kernel⟩
  dsb := List.forall_mem_singleton.mpr fun _ => by decide +kernel
  mux := List.forall_mem_cons.mpr ⟨fun _ => by decide +kernel,
    List.forall_mem_singleton.mpr fun _ => by decide +kernel⟩
  bs := List.forall_mem_cons.mpr ⟨fun _ => by decide +kernel,
    List.forall_mem_singleton.mpr fun h => absurd h (by decide)⟩
  agc := List.forall_mem_singleton.mpr fun h => absurd h (by decide)
  add := List.forall_mem_singleton.mpr fun _ => by decide +kernel
  tilt := List.forall_mem_singleton.mpr fun _ => by decide +kernel
  dly := List.forall_mem_singleton.mpr ⟨rfl, by decide, by decide, by decide⟩

theorem witness_StepKeepsInv_NeverStops :
    good.Inv ∧ step (good.present ⟨0x03000000#32, 0, 0⟩) =
      .next ((good.completed 0 0)) := ⟨good_inv, rfl⟩

theorem witness_NeverMapped :
    good.Inv ∧ ∀ idx ∈ [0x100, 0x3FF, 0xC00, 0xFFF], good.reg .hil 0 idx = none ∧
      ((0x100 ≤ idx ∧ idx ≤ 0x3FF) ∨ (0xC00 ≤ idx ∧ idx ≤ 0xFFF)) := ⟨good_inv, by decide⟩

theorem witness_DecodeEncode :
    (Instr.oscSinh 15 255).wf = true ∧ (Instr.preWr 15 4095 one).wf = true ∧
      (Instr.muxEnc 15 true one two).wf = true := by decide

theorem witness_EncodeDecode : decode ⟨0x93F00001#32, one, two⟩ = .ok (.muxEnc 15 true one two) := by
  decide

theorem witness_DecodeMatchesOneRow :
    ∃ r ∈ opcodeRows, 0x1630A500#32 &&& r.mask = r.pattern ∧ r.mnemonic = "OSC.SINH" := by
  exact ⟨⟨"OSC.SINH", 0x16000000#32, 0xFF0F00FF#32⟩, by decide, by decide, rfl⟩

/-- The clause of OpcodeMap on pairs outside the table. -/
def outside (w : Word) : Bool :=
  decide ([4, 9, 4, 4, 4, 4, 4, 4, 4, 4, 7, 4, 6, 4, 5, 0].getD (bits w 31 28) 0 ≤ bits w 27 24)

/-- The least such FUNC of SYS, OSC and BS, FUNC 15, UNIT 15; and the greatest FUNC of OSC is not one. -/
theorem witness_OpcodeMap :
    [0x04000000#32, 0x19000000#32, 0xA7000000#32, 0xEF000000#32, 0xF0000000#32].all outside = true ∧
      outside 0x18000000#32 = false := by decide

theorem witness_StepRunsDecoded :
    (good.present ⟨0x18000000#32, one, two⟩).input = .command ⟨0x18000000#32, one, two⟩ :: [] ∧
      decode ⟨0x18000000#32, one, two⟩ = .ok (.oscAdv 0) := by decide

theorem witness_StepIllegal :
    (good.present ⟨0x18000100#32, 0, 0⟩).input = .command ⟨0x18000100#32, 0, 0⟩ :: [] ∧
      ∀ r ∈ opcodeRows, 0x18000100#32 &&& r.mask ≠ r.pattern := by decide

theorem witness_StepIdle : good.input = [] := rfl

/-- A command that ends with an error, and its response. -/
theorem witness_ErrorChangesNothing :
    exec (.preStep 0 one) good = .next (good.raised .notInit) ∧
      (good.raised .notInit).rsp = some ⟨.notInit, 0, 0⟩ := ⟨rfl, rfl⟩

theorem witness_CountsCommands_FaultSticky :
    step (good.present ⟨0x23000000#32, one, 0⟩) = .next (good.raised .notInit) ∧
      (∀ n, decode ⟨0x23000000#32, one, 0⟩ ≠ .ok (.sysRst n)) ∧
      decode ⟨0x00000000#32, one, 0⟩ = .ok (.sysRst 0) ∧
      ∃ t, step (good.present ⟨0x00000000#32, one, 0⟩) = .next t :=
  ⟨rfl, fun _ h => Instr.noConfusion (Except.ok.inj
      ((show decode ⟨0x23000000#32, one, 0⟩ = .ok (.preStep 0 one) by decide).symm.trans h)),
    by decide, _, rfl⟩

theorem witness_BadInstance :
    good.count (Instr.preStep 1 one).unit ≤ (Instr.preStep 1 one).inst ∧
      good.count (Instr.sysNop 1).unit ≤ (Instr.sysNop 1).inst := by decide

theorem witness_NotInit :
    (Instr.preStep 0 one).sort = .operation ∧ good.reg .pre 0 0x0FF = some (.ro, 0) := by decide

theorem witness_ReadCommand :
    good.reg .hil 0 0x45E = some (.rom, one) ∧ good.reg .sys 0 0 = some (.ro, 0x464D3935#32) := by decide

/-- One CFG register of each of the eleven units that have one. -/
theorem witness_WriteConfig :
    ∀ x ∈ [(UnitId.pre, 0), (.flp, 0), (.fhp, 1), (.bq, 4), (.fm, 4), (.dsb, 2), (.mux, 8), (.bs, 4),
        (.agc, 7), (.add, 0x027), (.tilt, 1)],
      ∃ v, good.reg x.1 0 x.2 = some (.cfg, v) := by
  intro x hx
  simp only [List.mem_cons, List.not_mem_nil, or_false] at hx
  rcases hx with rfl | rfl | rfl | rfl | rfl | rfl | rfl | rfl | rfl | rfl | rfl <;> exact ⟨_, rfl⟩

/-- Each clause of BadIndex: the first index past an array, a register of another class, and the units
without CFG registers. -/
theorem witness_BadIndex :
    0 < good.count .flp ∧ good.reg .flp 0 0x405 = none ∧
      good.reg .flp 0 0x404 = some (.drv, 0) ∧ RegClass.drv ≠ .cfg ∧
      0 < good.count .sys ∧ 0 < good.count .osc ∧ 0 < good.count .hil ∧ 0 < good.count .dly := by decide

theorem witness_AccessClasses :
    exec (.preStep 0 one) good = .next (good.raised .notInit) ∧
      good.reg .hil 0 0x45E = some (.rom, one) ∧ (∀ n, Instr.preStep 0 one ≠ .sysRst n) ∧
      good.reg .pre 0 0 = some (.cfg, 0) ∧ good.reg .pre 0 0x010 = some (.drv, 0) ∧
      (Instr.preStep 0 one).sort = .operation :=
  ⟨rfl, by decide, fun _ h => Instr.noConfusion h, by decide, by decide, rfl⟩

theorem witness_Ownership :
    exec (.oscAdv 0) good = .next ((good.putOsc 0 oscOn.advance).completed 0 0) ∧
      (∀ n, Instr.oscAdv 0 ≠ .sysRst n) ∧ UnitId.osc ≠ .sys ∧
      (UnitId.osc, 1) ∉ touches (.oscAdv 0) good :=
  ⟨rfl, fun _ h => Instr.noConfusion h, by decide, by decide⟩

theorem witness_PhaseWriters :
    exec (.oscSetf 0 one) good =
        .next ((good.putOsc 0 { oscOn with pinc := oscIncrement one oscOn.srate }).completed 0 0) ∧
      writesPhase (.oscSetf 0 one) = false ∧ writesPhase (.muxEnc 0 false one two) = false :=
  ⟨rfl, rfl, rfl⟩

theorem witness_ResetValues :
    { good with input := [.rst] }.input = .rst :: [] ∧ good.Inv ∧
      good.reg .hil 0 0x85E = some (.st, zero) ∧ good.reg .hil 0 0x85F = none :=
  ⟨rfl, good_inv, by decide, by decide⟩

/-- Both sides of the bound of overflow: the greatest finite word plus 2^103 is the tie that goes to
infinity (IEEE 754), and one unit in the last place less does not; a negative and a zero result. -/
theorem witness_ArithmeticNearest :
    (isFinite 0x7F7FFFFF#32 = true ∧ isFinite 0x73000000#32 = true ∧
      units 0x7F7FFFFF#32 + units 0x73000000#32 = 2 ^ 277 - 2 ^ 252 ∧
      fadd 0x7F7FFFFF#32 0x73000000#32 = 0x7F800000#32) ∧
    (isFinite 0x72FFFFFF#32 = true ∧ units 0x7F7FFFFF#32 + units 0x72FFFFFF#32 < 2 ^ 277 - 2 ^ 252 ∧
      fadd 0x7F7FFFFF#32 0x72FFFFFF#32 = 0x7F7FFFFF#32) ∧
    (units 0x80000001#32 < 0 ∧ units 0x80000000#32 + units 0x80000000#32 = 0 ∧
      fadd 0x80000000#32 0x80000000#32 = 0x80000000#32) ∧
    mag 0x7F7FFFFF#32 ≠ 0 ∧ 0 ≤ units 0x7F7FFFFF#32 := by
  decide +kernel

theorem witness_ArithmeticSpecial :
    isNaN 0x7F800001#32 = true ∧ isInf 0x7F800000#32 = true ∧ isInf 0xFF800000#32 = true ∧
      isNeg 0x7F800000#32 = isNeg 0x7F800000#32 ∧ isFinite 0x80000000#32 = true ∧
      mag 0x80000000#32 = 0 ∧ units 0x80000001#32 < 0 := by decide +kernel

theorem witness_HarmonicCoherence :
    good.osc[0]? = some oscOn ∧ oscOn.inited = true ∧ isFinite oscOn.phase = true ∧
      mag oscOn.phase < 0x7F000000 ∧ mag 0x7EFFFFFF#32 < 0x7F000000 := by decide

theorem witness_U2fExact : 16777215 < 2 ^ 24 := by decide

theorem witness_WrapRange : isFinite 0xFF800000#32 = false ∧ isFinite 0xFF7FFFFF#32 = true := by decide

/-- Both ends of the ranges, and a step of the oscillator. -/
theorem witness_PhaseInRange_WrapExact :
    exec (.oscAdv 0) good = .next ((good.putOsc 0 oscOn.advance).completed 0 0) ∧
      good.osc[0]? = some oscOn ∧ OscRange oscOn ∧ inPhaseRange oscOn.phase = true ∧
      inPhaseRange 0x40C90FDA#32 = true ∧ inPhaseRange zero = true ∧
      fge (fadd 0x40C90FDA#32 0x40C90FDA#32) twoPi = true ∧
      ∃ t, exec (.oscSetf 0 one) good = .next t :=
  ⟨rfl, rfl, (by decide +kernel : inPhaseRange oscOn.pinc = true), by decide +kernel,
    by decide +kernel, by decide +kernel, by decide +kernel, _, rfl⟩

theorem witness_FmPhaseInRange :
    (∀ u ∈ good.fm, u.inited = true → u.shared = 0 →
        inPhaseRange u.phase = true ∨ isNaN u.phase = true) ∧
      ∃ t, exec (.fmMod 0 one) good = .next t :=
  ⟨List.forall_mem_cons.mpr ⟨fun _ _ => .inl (by decide +kernel),
    List.forall_mem_singleton.mpr fun _ h => absurd h (by decide)⟩, _, rfl⟩

/-- The cases of `Operates` and `Constructs`: for each unit a constructed instance, and an instance that
does not exist; PRE, FLP, FHP and AGC are constructed in `bench`. -/
theorem witness_Operates :
    (good.osc[0]? = some oscOn ∧ oscOn.inited = true ∧ good.osc[2]? = none ∧
      good.osc[1]? = some OscRegs.reset ∧ OscRegs.reset.inited = false) ∧
    (bench.pre[0]? = some preOn ∧ preOn.inited = true) ∧
    (bench.flp[0]? = some firOn ∧ bench.fhp[0]? = some firOn ∧ firOn.inited = true) ∧
    (bench.bq[0]? = some bqOn ∧ bqOn.inited = true) ∧
    (bench.hil[0]? = some hilOn ∧ hilOn.inited = true) ∧
    (bench.bs[0]? = some bsOn ∧ bsOn.inited = true) ∧
    (bench.agc[0]? = some agcOn ∧ agcOn.inited = true) ∧
    (bench.add[0]? = some addOn ∧ addOn.inited = true) ∧
    (bench.tilt[0]? = some tiltOn ∧ tiltOn.inited = true) ∧
    (bench.dly[0]? = some dlyOn ∧ dlyOn.inited = true) := by decide

/-- Configurations that INIT accepts, where the checks compute no function of `Numerics`. -/
theorem witness_Constructs :
    oscConfigOk one one = true ∧ fmOn.configOk 2 = true ∧ fmShared.configOk 2 = true ∧
      dsbOn.configOk 2 = true ∧ (muxOn 0).configOk 2 1 1 = true ∧ (muxOn 1).configOk 2 1 1 = true ∧
      (muxOn 2).configOk 2 1 1 = true ∧ (muxOn 3).configOk 2 1 1 = true ∧ bqOn.configOk = true ∧
      bsOn.configOk = true ∧ tiltGood.configOk = true ∧ addOn.configOk 2 = true := by decide +kernel

/-- Configurations that PRE, FLP, FHP and AGC accept under values that a correctly rounded `Numerics`
has (or, for FEXP, any values in range): whether these INITs complete depends on `Numerics`. -/
theorem witness_PreInit (h : Config.fcos zero = one) :
    ({ PreRegs.reset with tau := 0x3851B717#32, srate := 0x483B8000#32 } : PreRegs).configOk = true := by
  have hw : fdiv (fmul twoPi (0 : Word)) 0x483B8000#32 = zero := by decide +kernel
  simp only [PreRegs.configOk, preGain, PreRegs.reset, hw, h]
  decide +kernel

theorem witness_FirInit (hs : Config.fsin 0x3FC90FDB#32 = one) (hs' : Config.fsin 0xBFC90FDB#32 = fneg one)
    (h0 : Config.fcos zero = one) (h1 : Config.fcos pi = fneg one) (h2 : Config.fcos twoPi = one)
    (h4 : Config.fcos 0x41490FDB#32 = one) : (firKernel 3 one 0x40800000#32).isSome = true := by
  have a1 : fmul (fmul twoPi (fdiv one 0x40800000#32)) (i2f (-1)) = 0xBFC90FDB#32 := by decide +kernel
  have a2 : fmul (fmul twoPi (fdiv one 0x40800000#32)) (i2f 1) = 0x3FC90FDB#32 := by decide +kernel
  have b0 : fmul twoPi (fdiv (u2f 0) (u2f 2)) = zero := by decide +kernel
  have b1 : fmul twoPi (fdiv (u2f 1) (u2f 2)) = pi := by decide +kernel
  have b2 : fmul twoPi (fdiv (u2f 2) (u2f 2)) = twoPi := by decide +kernel
  have c0 : fmul (fmul two twoPi) (fdiv (u2f 0) (u2f 2)) = zero := by decide +kernel
  have c1 : fmul (fmul two twoPi) (fdiv (u2f 1) (u2f 2)) = twoPi := by decide +kernel
  have c2 : fmul (fmul two twoPi) (fdiv (u2f 2) (u2f 2)) = 0x41490FDB#32 := by decide +kernel
  have hb : firBandOk one 0x40800000#32 = true := by decide +kernel
  simp only [firKernel, firWindowed, sincTerm, blackman, List.range, List.range.loop, List.map, hb,
    if_true, Nat.cast_ofNat, Nat.cast_zero, Nat.cast_one, Nat.reduceSub, Nat.reduceDiv, zero_sub, sub_self,
    Int.reduceSub, Int.reduceNeg, a1, a2, b0, b1, b2, c0, c1, c2, hs, hs', h0, h1, h2, h4]
  decide +kernel

theorem witness_AgcInit (h : ∀ x, Config.fexp x = half) :
    ({ agcOn with srate := one, attackT := one, releaseT := one, rmsT := one } : AgcRegs).configOk = true := by
  simp only [AgcRegs.configOk, agcCoef, h]
  decide +kernel

/-- FM.MOD in both modes, and the oscillator a select register names not constructed. -/
theorem witness_FmMod_DsbSc_MuxEnc_AdderIn :
    bench.fm[0]? = some fmOn ∧ fmOn.inited = true ∧ fmOn.shared = 0 ∧ bench.fm[1]? = some fmShared ∧
      fmShared.inited = true ∧ fmShared.shared ≠ 0 ∧ bench.osc[fmShared.oscsel.toNat]? = some oscOn ∧
      oscOn.inited = true ∧ bench.osc[(1 : Word).toNat]? = some OscRegs.reset ∧
      bench.dsb[0]? = some dsbOn ∧ dsbOn.inited = true ∧ bench.osc[dsbOn.oscsel.toNat]? = some oscOn ∧
      bench.mux[0]? = some (muxOn 1) ∧ (muxOn 1).inited = true ∧ (muxOn 0).mode = 0 ∧
      (muxOn 1).mode = 1 ∧ (muxOn 3).mode = 3 ∧ bench.osc[(muxOn 1).oscsel.toNat]? = some oscOn ∧
      bench.add[0]? = some addOn ∧ bits addOn.car[(0 : Fin 8)] 1 0 = 0 ∧
      bits addOn.car[(2 : Fin 8)] 1 0 = 1 ∧ bits 0x302#32 1 0 = 2 := by decide

theorem witness_FirConvolution :
    0 < bench.par.firTaps ∧ bench.par.firTaps ≤ 1023 ∧ [one] ≠ [] ∧ bench.flp[0]? = some firOn ∧
      bench.fhp[0]? = some firOn ∧ firOn.inited = true ∧
      firOn.hist = List.replicate bench.par.firTaps zero ∧ firOn.wpos = 0 := by decide

theorem witness_HilbertAlignment : 0 < bench.hil.length ∧ [one, two] ≠ [] := by decide

theorem witness_EffectiveDelay :
    2 ≤ bench.par.dlyCap ∧ bench.par.dlyCap ≤ 1024 ∧ bench.dly[0]? = some dlyOn ∧
      dlyOn.inited = true ∧ dlyOn.buf.length = bench.par.dlyCap ∧
      dlyOn.wpos.toNat < bench.par.dlyCap ∧ [one] ≠ [] := by decide

theorem witness_MuxEncSsb :
    bench.mux[1]? = some (muxOn 2) ∧ (muxOn 2).inited = true ∧ (muxOn 2).mode = 2 ∧
      bench.osc[(muxOn 2).oscsel.toNat]? = some oscOn ∧ oscOn.inited = true ∧
      bench.hil[(muxOn 2).hilsel.toNat]? = some hilOn ∧ hilOn.inited = true ∧
      bench.dly[(muxOn 2).dlysel.toNat]? = some dlyOn ∧ dlyOn.inited = true ∧
      (∃ t r, exec (.hilStep 0 one) bench = .next t ∧ t.rsp = some r) ∧
      ∃ t r, exec (.dlyPushpop 0 one) bench = .next t ∧ t.rsp = some r :=
  ⟨rfl, rfl, rfl, rfl, rfl, rfl, rfl, rfl, rfl, ⟨_, _, rfl, rfl⟩, ⟨_, _, rfl, rfl⟩⟩

theorem witness_MuxSilence :
    bench.mux[0]? = some (muxOn 1) ∧ (muxOn 1).inited = true ∧ (muxOn 1).mode = 1 ∧
      bench.osc[(muxOn 1).oscsel.toNat]? = some oscOn ∧ oscOn.inited = true ∧
      ([(muxOn 1).monovol, (muxOn 1).pilotvol, (muxOn 1).stereovol].all fun v =>
        isFinite v && fgt v zero) = true ∧
      ([one, fneg one].all fun w => fle (fneg one) w && fle w one) = true :=
  ⟨rfl, rfl, rfl, rfl, rfl, by decide +kernel, by decide +kernel⟩

theorem witness_BsAccumulator :
    (∃ t, step (bench.present ⟨0xA3000000#32, two, 0⟩) = .next t) ∧
      decode ⟨0xA3000000#32, two, 0⟩ = .ok (.bsMeas 0 two) ∧ isFinite two = true ∧
      bsOn.inited = true ∧
      (bench.bs.all fun u => fge u.acc zero && nonNegOrNaN u.acc &&
        (!u.inited || isFinite u.srate && fgt u.srate zero)) = true :=
  ⟨⟨_, rfl⟩, by decide, by decide, rfl, by decide +kernel⟩

/-- The greatest operand in `AgcRange`, the least word outside, and a constructed AGC at the bounds. -/
theorem witness_AgcFinite :
    (∃ t, step (bench.present ⟨0xB3000000#32, 0xDEFFFFFF#32, 0⟩) = .next t) ∧
      decode ⟨0xB3000000#32, 0xDEFFFFFF#32, 0⟩ = .ok (.agcProc 0 0xDEFFFFFF#32) ∧
      AgcRange 0xDEFFFFFF#32 = true ∧ AgcRange 0xDF000000#32 = false ∧
      (∀ u ∈ bench.agc, u.Settled) ∧
      ({ agcOn with rmsbuf := 0x7E800000#32, level := 0x5F000000#32 } : AgcRegs).Settled :=
  ⟨⟨_, rfl⟩, by decide, by decide, by decide,
    List.forall_mem_singleton.mpr fun _ => by decide +kernel, fun _ => by decide +kernel⟩

theorem agcOn_bounded : agcOn.Bounded := fun _ => by decide +kernel

theorem witness_AgcGainInRange :
    (∀ u ∈ bench.agc, u.Bounded) ∧
      ∃ t, step (bench.present ⟨0xB3000000#32, 0x7F800000#32, 0⟩) = .next t :=
  ⟨List.forall_mem_singleton.mpr agcOn_bounded, _, rfl⟩

end Sys2Proof.Tests
end

/-! The proof about phase wrapping (R14). Its one arithmetic fact: the remainder of two values of the
format is a value of the format, so the remainder by `TWO_PI` is rounded to itself. -/

namespace Sys2Proof.Machine

/-! Exact remainders. -/

/-- The remainder is a multiple of the smaller of the two scales; at that scale it is less than the
divisor's significand, or at most the dividend's. -/
theorem exists_unitsOfMag_mod (a b : Nat) : ∃ m, unitsOfMag m = unitsOfMag a % unitsOfMag b := by
  obtain ⟨e, x, rfl, hx, hxlt⟩ := exists_significand a
  obtain ⟨f, y, rfl, hy, hylt⟩ := exists_significand b
  rw [unitsOfMag_significand hx hxlt.le, unitsOfMag_significand hy hylt.le]
  rcases Nat.le_total e f with hef | hfe
  · obtain ⟨k, rfl⟩ := Nat.exists_eq_add_of_le hef
    have hscale : y * 2 ^ (e + k) = y * 2 ^ k * 2 ^ e := by rw [pow_add]; ring
    rw [hscale, Nat.mul_mod_mul_right]
    exact exists_unitsOfMag_scaled e ((Nat.mod_le _ _).trans_lt hxlt)
  · obtain ⟨k, rfl⟩ := Nat.exists_eq_add_of_le hfe
    rcases Nat.eq_zero_or_pos y with rfl | hy0
    · rw [Nat.zero_mul, Nat.mod_zero]
      exact exists_unitsOfMag_scaled (f + k) hxlt
    · have hscale : x * 2 ^ (f + k) = x * 2 ^ k * 2 ^ f := by rw [pow_add]; ring
      rw [hscale, Nat.mul_mod_mul_right]
      exact exists_unitsOfMag_scaled f ((Nat.mod_lt _ hy0).trans hylt)

/-- An integer whose absolute value is in the format rounds to itself. -/
theorem units_roundInt_of_natAbs {n : Int} {m : Nat} (z : Bool) (hm : m ≤ infMag)
    (h : n.natAbs = unitsOfMag m) : units (roundInt n z) = n := by
  have hr : roundMag n.natAbs 1 = m := by
    rw [h]
    simpa using roundMag_exact hm Nat.one_pos
  rw [units_roundInt, hr, ← h]
  split <;> omega

/-! `TWO_PI`. -/

theorem isFinite_twoPi : isFinite twoPi = true := by decide

theorem isNeg_twoPi : isNeg twoPi = false := by decide

theorem units_twoPi : units twoPi = 0xC90FDB * 2 ^ 128 := by decide +kernel

/-! The remainder and its correction. -/

/-- The remainder word `r` of R14, before the correction. -/
def wrapRemainder (p : Word) : Word := roundInt ((units p).tmod (units twoPi)) (isNeg p)

/-- The word of R14 after one `TWO_PI` is added to a negative remainder. -/
def wrapCorrected (p : Word) : Word :=
  if units (wrapRemainder p) < 0 then fadd (wrapRemainder p) twoPi else wrapRemainder p

theorem natAbs_tmod_twoPi_lt (p : Word) :
    ((units p).tmod (units twoPi)).natAbs < (units twoPi).natAbs := by
  rw [Int.natAbs_tmod]
  exact Nat.mod_lt _ (by rw [units_twoPi]; norm_num)

/-- The word of the remainder has the remainder's exact value (R14). -/
theorem units_wrapRemainder (p : Word) :
    units (wrapRemainder p) = (units p).tmod (units twoPi) := by
  obtain ⟨m, hm⟩ := exists_unitsOfMag_mod (mag p) (mag twoPi)
  have hn : ((units p).tmod (units twoPi)).natAbs = unitsOfMag m := by
    rw [Int.natAbs_tmod, units_natAbs, units_natAbs, hm]
  refine units_roundInt_of_natAbs _ ?_ hn
  have hlt := (natAbs_tmod_twoPi_lt p).trans (abs_units_lt_of_isFinite isFinite_twoPi)
  rw [hn, unitsOfMag_lt_iff] at hlt
  exact hlt.le

theorem natAbs_wrapRemainder_lt (p : Word) :
    (units (wrapRemainder p)).natAbs < (units twoPi).natAbs := by
  rw [units_wrapRemainder]
  exact natAbs_tmod_twoPi_lt p

theorem isFinite_wrapRemainder (p : Word) : isFinite (wrapRemainder p) = true := by
  refine isFinite_of_abs_units_lt ((natAbs_wrapRemainder_lt p).trans ?_)
  rw [← units_infinity]
  exact abs_units_lt_of_isFinite isFinite_twoPi

/-- The corrected word is a number and not negative: `TWO_PI` outweighs a negative remainder. -/
theorem wrapCorrected_nonneg (p : Word) :
    isNaN (wrapCorrected p) = false ∧ 0 ≤ units (wrapCorrected p) := by
  have hlt := natAbs_wrapRemainder_lt p
  have hpos := units_nonneg_of_not_isNeg isNeg_twoPi
  unfold wrapCorrected
  split
  · rw [fadd_of_isFinite (isFinite_wrapRemainder p) isFinite_twoPi]
    exact ⟨isNaN_roundInt _ _, units_roundInt_nonneg _ (by omega)⟩
  · rename_i h
    exact ⟨isNaN_eq_false_of_isFinite (isFinite_wrapRemainder p), by omega⟩

/-- What `wrap2pi` does with the corrected word (R14): `TWO_PI` and -0 become +0. -/
theorem wrap2pi_of_isFinite {p : Word} (h : isFinite p = true) :
    wrap2pi p = if fge (wrapCorrected p) twoPi = true ∨ mag (wrapCorrected p) = 0 then zero
      else wrapCorrected p := by
  rw [ite_or, wrapCorrected, units_wrapRemainder]
  exact if_neg (by simp [h])

theorem isNaN_wrap2pi {p : Word} (h : isFinite p = false) : isNaN (wrap2pi p) = true := by
  simp [wrap2pi, h]

/-- The value of a finite phase is wrapped into [0, `TWO_PI`), with sign + (R14). -/
theorem wrap2pi_inPhaseRange {p : Word} (h : isFinite p = true) :
    inPhaseRange (wrap2pi p) = true ∧ isNeg (wrap2pi p) = false := by
  obtain ⟨hnan, hnonneg⟩ := wrapCorrected_nonneg p
  have htwoPi := isNaN_eq_false_of_isFinite isFinite_twoPi
  rw [wrap2pi_of_isFinite h]
  split
  · decide
  · rename_i hc
    obtain ⟨hge, hmag⟩ := not_or.mp hc
    have hlt : units (wrapCorrected p) < units twoPi := by
      by_contra hle
      exact hge (fge_iff.mpr ⟨hnan, htwoPi, not_lt.mp hle⟩)
    refine ⟨?_, (units_nonneg_iff.mp hnonneg).resolve_right hmag⟩
    rw [inPhaseRange, Bool.and_eq_true, fge_iff, flt_iff, units_zero]
    exact ⟨⟨hnan, isNaN_zero, hnonneg⟩, hnan, htwoPi, hlt⟩

/-- Settles O30: the word `r` is `wrapRemainder p`, exact because remainders stay in the format. -/
theorem wrapRange : Obligations.WrapRange := by
  intro p
  refine ⟨isNaN_wrap2pi, fun hp => ?_⟩
  obtain ⟨hrange, hsign⟩ := wrap2pi_inPhaseRange hp
  exact ⟨hrange, hsign, wrapRemainder p, isFinite_wrapRemainder p, units_wrapRemainder p,
    wrap2pi_of_isFinite hp⟩

end Sys2Proof.Machine

/-! The phase of an oscillator (R48, R120, R128). Two parts: the wrapped addition of R120 stays in
[0, `TWO_PI`), and a command keeps the phase of an oscillator, clears it or advances it. -/

namespace Sys2Proof.Machine

/-! The range [0, `TWO_PI`). -/

/-- The greatest word below `TWO_PI`. -/
def belowTwoPi : Word := 0x40C90FDA#32

/-- Twice `belowTwoPi`. -/
def twiceBelowTwoPi : Word := 0x41490FDA#32

theorem isFinite_belowTwoPi : isFinite belowTwoPi = true := by decide

theorem isFinite_twiceBelowTwoPi : isFinite twiceBelowTwoPi = true := by decide

theorem units_belowTwoPi : units belowTwoPi = 0xC90FDA * 2 ^ 128 := by decide +kernel

theorem units_twiceBelowTwoPi : units twiceBelowTwoPi = 2 * units belowTwoPi := by decide +kernel

theorem units_le_belowTwoPi {p : Word} (h0 : 0 ≤ units p) (h : units p < units twoPi) :
    units p ≤ units belowTwoPi := by
  have hnext : mag twoPi = mag belowTwoPi + 1 := by decide
  rw [units_eq_unitsOfMag h0] at h ⊢
  rw [units_eq_unitsOfMag (units_nonneg_of_not_isNeg isNeg_twoPi), Int.ofNat_lt, unitsOfMag_lt_iff,
    hnext, Nat.lt_succ_iff] at h
  rwa [units_eq_unitsOfMag (a := belowTwoPi) (units_nonneg_of_not_isNeg (by decide)), Int.ofNat_le,
    unitsOfMag_le_iff]

theorem inPhaseRange_iff {p : Word} :
    inPhaseRange p = true ↔ isNaN p = false ∧ 0 ≤ units p ∧ units p < units twoPi := by
  have hzero := isNaN_zero
  have htwoPi := isNaN_eq_false_of_isFinite isFinite_twoPi
  rw [inPhaseRange, Bool.and_eq_true, fge_iff, flt_iff, units_zero]
  tauto

theorem inPhaseRange_iff_within {p : Word} :
    inPhaseRange p = true ↔ Within p (units belowTwoPi) := by
  rw [inPhaseRange_iff]
  constructor
  · rintro ⟨-, h0, hlt⟩
    have hlo : units zero ≤ units p := by rwa [units_zero]
    exact ⟨isFinite_of_bounds (by decide) isFinite_twoPi hlo hlt.le, h0, units_le_belowTwoPi h0 hlt⟩
  · rintro ⟨hfin, h0, hle⟩
    refine ⟨isNaN_eq_false_of_isFinite hfin, h0, hle.trans_lt ?_⟩
    rw [units_belowTwoPi, units_twoPi]
    norm_num

/-! The wrapped addition (R120). -/

/-- Rounding keeps a value between 0 and that of a finite word. -/
theorem within_roundInt {n : Int} {w : Word} (z : Bool) (hw : isFinite w = true) (h0 : 0 ≤ n)
    (hle : n ≤ units w) : Within (roundInt n z) (units w) := by
  have hlo := units_roundInt_nonneg z h0
  have hhi := units_roundInt_le z (isNaN_eq_false_of_isFinite hw) hle
  exact ⟨isFinite_of_bounds (lo := zero) (by decide) hw (by rwa [units_zero]) hhi, hlo, hhi⟩

/-- The sum of two words of [0, `TWO_PI`) is finite and below twice `TWO_PI`, rounded or not. -/
theorem within_fadd_of_inPhaseRange {p d : Word} (hp : inPhaseRange p = true)
    (hd : inPhaseRange d = true) : Within (fadd p d) (units twiceBelowTwoPi) := by
  obtain ⟨hpfin, hp0, hple⟩ := inPhaseRange_iff_within.mp hp
  obtain ⟨hdfin, hd0, hdle⟩ := inPhaseRange_iff_within.mp hd
  rw [fadd_of_isFinite hpfin hdfin]
  exact within_roundInt _ isFinite_twiceBelowTwoPi (by omega) (by rw [units_twiceBelowTwoPi]; omega)

/-- One subtraction brings such a sum back (R120): the difference is at most `belowTwoPi`. -/
theorem inPhaseRange_fsub_twoPi {p : Word} (hp : Within p (units twiceBelowTwoPi))
    (hge : fge p twoPi = true) : inPhaseRange (fsub p twoPi) = true := by
  obtain ⟨-, -, htwoPi⟩ := fge_iff.mp hge
  have hle := hp.le
  rw [units_twiceBelowTwoPi] at hle
  rw [inPhaseRange_iff_within, fsub_of_isFinite hp.finite isFinite_twoPi]
  refine within_roundInt _ isFinite_belowTwoPi (by omega) ?_
  rw [units_belowTwoPi, units_twoPi] at *
  omega

/-- `osc_advance` keeps PHASE in [0, `TWO_PI`) under `OscRange` (R48, R128). -/
theorem OscRegs.inPhaseRange_advance {o : OscRegs} (hrange : OscRange o)
    (hphase : inPhaseRange o.phase = true) : inPhaseRange o.advance.phase = true := by
  have hsum := within_fadd_of_inPhaseRange hphase hrange
  rw [OscRegs.advance]
  dsimp only
  split
  · rename_i hge
    exact inPhaseRange_fsub_twoPi hsum hge
  · rename_i hlt
    have hnan := isNaN_eq_false_of_isFinite hsum.finite
    refine inPhaseRange_iff.mpr ⟨hnan, hsum.nonneg, lt_of_not_ge fun hle => hlt ?_⟩
    exact fge_iff.mpr ⟨hnan, isNaN_eq_false_of_isFinite isFinite_twoPi, hle⟩

/-! What a command does to the phases. -/

/-- What a command may leave in place of the oscillator `o`: the same phase, phase 0, or the phase
advanced. -/
def OscRegs.PhaseSucc (o o' : OscRegs) : Prop :=
  o'.phase = o.phase ∨ o'.phase = zero ∨ o'.phase = o.advance.phase

/-- Each oscillator of `s` has such a successor in `t`. -/
def PhaseSteps (s t : State) : Prop :=
  ∀ (n : Nat) (o o' : OscRegs), s.osc[n]? = some o → t.osc[n]? = some o' → o.PhaseSucc o'

theorem OscRegs.PhaseSucc.inPhaseRange {o o' : OscRegs} (h : o.PhaseSucc o') (hrange : OscRange o)
    (hphase : inPhaseRange o.phase = true) : inPhaseRange o'.phase = true := by
  obtain h | h | h := h <;> rw [h]
  · exact hphase
  · decide
  · exact OscRegs.inPhaseRange_advance hrange hphase

theorem phaseSteps_of_osc_eq {s t : State} (h : t.osc = s.osc) : PhaseSteps s t := by
  intro n o o' ho ho'
  rw [h, ho] at ho'
  cases ho'
  exact .inl rfl

/-- A command that replaces one oscillator by such a successor. -/
theorem phaseSteps_of_osc_set {s t : State} {n : Nat} {u u' : OscRegs}
    (h : t.osc = s.osc.set n u') (hu : s.osc[n]? = some u) (hsucc : u.PhaseSucc u') :
    PhaseSteps s t := by
  intro m o o' ho ho'
  rw [h, List.getElem?_set] at ho'
  split at ho'
  · rename_i hnm
    subst hnm
    rw [hu] at ho
    cases ho
    split at ho' <;> cases ho'
    exact hsucc
  · rw [ho] at ho'
    cases ho'
    exact .inl rfl

theorem phaseSteps_of_reset {s t : State} (h : t.osc = s.resetRegs.osc) : PhaseSteps s t := by
  intro n o o' _ ho'
  rw [h, State.resetRegs_osc] at ho'
  rw [List.eq_of_mem_replicate (List.mem_of_getElem? ho')]
  exact .inr (.inl rfl)

/-- The subcarrier of a completed `MUX.ENC`: advanced with ADV, and else as it was (R210). -/
theorem phaseSteps_advanceIf {adv : Bool} {sel r0 r1 : Word} {o : OscRegs} {s s' : State}
    (ho : s.osc[sel.toNat]? = some o) (hs' : s'.osc = s.osc) :
    PhaseSteps s ((advanceIf adv sel o s').completed r0 r1) := by
  cases adv with
  | false => exact phaseSteps_of_osc_eq hs'
  | true => exact phaseSteps_of_osc_set (by rw [← hs']; rfl) ho (.inr (.inr rfl))

/-! How a command ends, and its oscillators. -/

theorem State.writeReg_osc (s : State) (u : UnitId) (inst idx : Nat) (v : Word) :
    (s.writeReg u inst idx v).osc = s.osc := by
  cases u <;> rfl

theorem phaseSteps_of_raised {s t : State} (h : ∃ e, e ≠ ErrorCode.ok ∧ t = s.raised e) :
    PhaseSteps s t := by
  obtain ⟨_, -, rfl⟩ := h
  exact phaseSteps_of_osc_eq (State.raised_osc _ _)

theorem phaseSteps_finish {s s' t : State} {r0 r1 : Word} (h : finish s' r0 r1 = .next t)
    (hosc : s'.osc = s.osc) : PhaseSteps s t := by
  rw [finish_next.mp h]
  exact phaseSteps_of_osc_eq hosc

theorem phaseSteps_finish_advance {inst : Nat} {u : OscRegs} {s t : State} {r0 r1 : Word}
    (hu : s.osc[inst]? = some u) (h : finish (s.putOsc inst u.advance) r0 r1 = .next t) :
    PhaseSteps s t := by
  rw [finish_next.mp h]
  exact phaseSteps_of_osc_set rfl hu (.inr (.inr rfl))

theorem phaseSteps_readCommand {u : UnitId} {inst idx : Nat} {s t : State}
    (h : readCommand u inst idx s = .next t) : PhaseSteps s t := by
  obtain h | ⟨_, _, -, rfl⟩ := readCommand_next h
  · exact phaseSteps_of_raised h
  · exact phaseSteps_of_osc_eq (State.completed_osc _ _ _)

theorem phaseSteps_writeCommand {u : UnitId} {inst idx : Nat} {v : Word} {s t : State}
    (h : writeCommand u inst idx v s = .next t) : PhaseSteps s t := by
  obtain h | ⟨_, -, rfl⟩ := writeCommand_next h
  · exact phaseSteps_of_raised h
  · exact phaseSteps_of_osc_eq (State.writeReg_osc s u inst idx v)

theorem phaseSteps_operate {α : Type} {units : List α} {inited : α → Bool} {inst : Nat}
    {s t : State} {k : α → Result} (h : operate units inited inst s k = .next t)
    (hk : ∀ u, units[inst]? = some u → k u = .next t → PhaseSteps s t) : PhaseSteps s t := by
  obtain h | ⟨u, hu, -, h⟩ := operate_next h
  · exact phaseSteps_of_raised h
  · exact hk u hu h

theorem phaseSteps_construct {α : Type} {units : List α} {inst : Nat} {s t : State}
    {init : α → Option α} {put : α → State} (h : construct units inst s init put = .next t)
    (hput : ∀ u, (put u).osc = s.osc) : PhaseSteps s t := by
  obtain h | ⟨_, u', -, -, rfl⟩ := construct_next h
  · exact phaseSteps_of_raised h
  · exact phaseSteps_of_osc_eq (hput u')

/-- Every command keeps the phase of an oscillator, clears it or advances it (R48). -/
theorem exec_phaseSteps {i : Instr} {s t : State} (h : exec i s = .next t) : PhaseSteps s t := by
  cases i
  case sysRst =>
    obtain h | ⟨-, rfl⟩ := execSysRst_next h
    · exact phaseSteps_of_raised h
    · exact phaseSteps_of_reset rfl
  case sysNop =>
    obtain h | ⟨-, rfl⟩ := execSysNop_next h
    · exact phaseSteps_of_raised h
    · exact phaseSteps_of_osc_eq rfl
  case oscInit =>
    obtain h | ⟨u, hu, -, rfl⟩ := execOscInit_next h
    · exact phaseSteps_of_raised h
    · exact phaseSteps_of_osc_set rfl hu (.inr (.inl rfl))
  case oscSetf =>
    obtain h | ⟨u, hu, -, rfl⟩ := execOscSetf_next h
    · exact phaseSteps_of_raised h
    · exact phaseSteps_of_osc_set rfl hu (.inl rfl)
  case oscAdv | oscSin | oscCos =>
    exact phaseSteps_operate h fun _ hu hk => phaseSteps_finish_advance hu hk
  case fmMod =>
    obtain h | ⟨u, -, -, ⟨-, rfl⟩ | ⟨-, o, ho, -, rfl⟩⟩ := execFmMod_next h
    · exact phaseSteps_of_raised h
    · exact phaseSteps_of_osc_eq rfl
    · exact phaseSteps_of_osc_set rfl ho (.inl rfl)
  case muxEnc =>
    obtain h | ⟨u, o, -, -, ho, -, h⟩ := execMuxEnc_next h
    · exact phaseSteps_of_raised h
    · obtain ⟨-, rfl⟩ | ⟨-, rfl⟩ | ⟨-, rfl⟩ | ⟨-, _, _, -, -, -, -, rfl⟩ := h <;>
        exact phaseSteps_advanceIf ho rfl
  case dsbEnc =>
    obtain h | ⟨u, o, -, -, -, -, rfl⟩ := execDsbEnc_next h
    · exact phaseSteps_of_raised h
    · exact phaseSteps_of_osc_eq rfl
  case addIn =>
    obtain h | ⟨u, _, -, -, rfl, -⟩ := execAddIn_next h
    · exact phaseSteps_of_raised h
    · exact phaseSteps_of_osc_eq rfl
  case hilInit =>
    obtain h | ⟨_, -, rfl⟩ := execHilInit_next h
    · exact phaseSteps_of_raised h
    · exact phaseSteps_of_osc_eq rfl
  case dlyInit =>
    obtain h | ⟨_, -, rfl⟩ := execDlyInit_next h
    · exact phaseSteps_of_raised h
    · exact phaseSteps_of_osc_eq rfl
  case sysRd | oscRd | preRd | flpRd | fhpRd | bqRd | hilRd | fmRd | dsbRd | muxRd | bsRd | agcRd
      | addRd | tiltRd | dlyRd =>
    exact phaseSteps_readCommand h
  case sysWr | oscWr | preWr | flpWr | fhpWr | bqWr | hilWr | fmWr | dsbWr | muxWr | bsWr | agcWr
      | addWr | tiltWr | dlyWr =>
    exact phaseSteps_writeCommand h
  case preInit | flpInit | fhpInit | bqInit | fmInit | dsbInit | muxInit | bsInit | agcInit
      | addInit | tiltInit =>
    exact phaseSteps_construct h fun _ => rfl
  case oscSinh | oscCosh | preStep | flpStep | fhpStep | bqStep | hilStep | bsMeas | bsD2dbr
      | bsDbr2d | bsRatio | agcProc | addClr | addOut | tiltStep | dlySetd | dlyPushpop =>
    exact phaseSteps_operate h fun _ _ hk => phaseSteps_finish hk rfl

/-! A change of frequency (R122). -/

theorem State.reg_osc_phase (s : State) (n : Nat) :
    s.reg .osc n 0x020 = s.osc[n]?.map fun o => (.st, o.phase) := by
  cases h : s.osc[n]? <;> simp [State.reg, OscRegs.reg, h]

/-- `OSC.SETF` changes no PHASE, of any oscillator (R48). -/
theorem oscSetf_keeps_phase {inst : Nat} {a : Word} {s t : State}
    (h : exec (.oscSetf inst a) s = .next t) (n : Nat) :
    t.reg .osc n 0x020 = s.reg .osc n 0x020 := by
  rw [State.reg_osc_phase, State.reg_osc_phase]
  obtain ⟨_, -, rfl⟩ | ⟨u, hu, -, rfl⟩ := execOscSetf_next h
  · rw [State.raised_osc]
  · rw [State.completed_osc, State.putOsc_osc]
    by_cases hn : inst = n
    · subst hn
      simp [List.getElem?_set_self', hu]
    · rw [List.getElem?_set_ne hn]

/-- Settles O34, from what a command does to the phases and the range of the wrapped addition. -/
theorem phaseInRange : Obligations.PhaseInRange := fun _ _ =>
  ⟨fun _ n o o' h ho hrange hphase ho' =>
    (exec_phaseSteps h n o o' ho ho').inPhaseRange hrange hphase,
  fun _ _ h => oscSetf_keeps_phase h⟩

end Sys2Proof.Machine

/-! The exactness of the wrap (R129). Between `TWO_PI` and its double one subtraction of `TWO_PI` is
the remainder by `TWO_PI`, and remainders are exact (`units_wrapRemainder`). -/

namespace Sys2Proof.Machine

theorem tmod_twoPi_eq_sub {n : Int} (hge : units twoPi ≤ n) (hlt : n < 2 * units twoPi) :
    n.tmod (units twoPi) = n - units twoPi := by
  have hpos := units_nonneg_of_not_isNeg isNeg_twoPi
  rw [Int.tmod_eq_emod_of_nonneg (hpos.trans hge), ← Int.sub_emod_right]
  exact Int.emod_eq_of_lt (by omega) (by omega)

/-- The subtraction of R120 gives the remainder word of R14. -/
theorem fsub_twoPi_eq_wrapRemainder {p : Word} (hp : isFinite p = true)
    (hge : units twoPi ≤ units p) (hlt : units p < 2 * units twoPi) :
    fsub p twoPi = wrapRemainder p := by
  rw [fsub_of_isFinite hp isFinite_twoPi, wrapRemainder, tmod_twoPi_eq_sub hge hlt, isNeg_twoPi,
    Bool.not_false, Bool.and_true]

theorem units_fsub_twoPi {p : Word} (hp : isFinite p = true) (hge : units twoPi ≤ units p)
    (hlt : units p < 2 * units twoPi) : units (fsub p twoPi) = units p - units twoPi := by
  rw [fsub_twoPi_eq_wrapRemainder hp hge hlt, units_wrapRemainder, tmod_twoPi_eq_sub hge hlt]

theorem units_twiceBelowTwoPi_lt : units twiceBelowTwoPi < 2 * units twoPi := by
  rw [units_twiceBelowTwoPi, units_belowTwoPi, units_twoPi]
  norm_num

/-- Settles O35: the sum is at most `twiceBelowTwoPi`, the subtraction is an exact remainder, and the
last clause is the phase that `OscRegs.advance` writes. -/
theorem wrapExact : Obligations.WrapExact := by
  intro o hrange hphase p
  have hsum : Within p (units twiceBelowTwoPi) := within_fadd_of_inPhaseRange hphase hrange
  have hlt : units p < 2 * units twoPi := hsum.le.trans_lt units_twiceBelowTwoPi_lt
  refine ⟨hsum.finite, hlt, fun hge => ?_, OscRegs.inPhaseRange_advance hrange hphase⟩
  obtain ⟨-, -, htwoPi⟩ := fge_iff.mp hge
  exact units_fsub_twoPi hsum.finite htwoPi hlt

end Sys2Proof.Machine

/-! The history rings (R168, R192, R198). A ring is read by how long ago a word was written: `Ring`
ties its array and its write cursor to the stream of words written into it, the latest at 0. The
Hilbert pair (R193) and the effective delay (R199) are read off this stream after the samples. -/

namespace Sys2Proof.Machine

/-! Cursors (R16). -/

theorem succ_mod_of_lt {w c : Nat} (hw : w < c) : (w + 1) % c = if w + 1 = c then 0 else w + 1 := by
  split
  · rename_i h
    rw [h, Nat.mod_self]
  · exact Nat.mod_eq_of_lt (by omega)

theorem nextCursor_toNat {c : Nat} (h0 : 0 < c) (hc : c ≤ 1024) (w : Word) :
    (nextCursor w c).toNat = (w.toNat + 1) % c := by
  have hlt := Nat.mod_lt (w.toNat + 1) h0
  rw [nextCursor, BitVec.toNat_ofNat, Nat.mod_eq_of_lt (by omega)]

theorem back_lt {c : Nat} (h0 : 0 < c) (w k : Nat) : back w k c < c := by
  have hnonneg := Int.emod_nonneg ((w : Int) - k) (b := c) (by omega)
  have hlt := Int.emod_lt_of_pos ((w : Int) - k) (b := c) (by omega)
  rw [back]
  omega

theorem back_eq_mod {w k c : Nat} (hk : k ≤ w + c) : back w k c = (w + c - k) % c := by
  have hcast : (w : Int) - k + c = ((w + c - k : Nat) : Int) := by omega
  rw [back, ← Int.add_emod_right, hcast, ← Int.natCast_emod, Int.toNat_natCast]

theorem back_eq_ite {w k c : Nat} (hw : w < c) (hk : k ≤ c) :
    back w k c = if k ≤ w then w - k else w + c - k := by
  rw [back_eq_mod (by omega)]
  split
  · rw [show w + c - k = w - k + c by omega, Nat.add_mod_right]
    exact Nat.mod_eq_of_lt (by omega)
  · exact Nat.mod_eq_of_lt (by omega)

theorem back_zero {w c : Nat} (hw : w < c) : back w 0 c = w := by
  simp [back_eq_ite hw]

/-- A whole turn back is the same place. -/
theorem back_self {w c : Nat} (hw : w < c) : back w c c = w := by
  simp [back_eq_ite hw, hw]

theorem back_ne_self {w k c : Nat} (hw : w < c) (h0 : 0 < k) (hk : k < c) : back w k c ≠ w := by
  rw [back_eq_ite hw hk.le]
  split <;> omega

theorem back_succ_succ {w k c : Nat} (hw : w < c) (hk : k < c) :
    back ((w + 1) % c) (k + 1) c = back w k c := by
  rw [back_eq_ite (Nat.mod_lt _ (by omega)) hk, back_eq_ite hw hk.le, succ_mod_of_lt hw]
  grind

/-- A cursor a fixed way behind another moves on with it. -/
theorem back_succ_left {w k c : Nat} (hw : w < c) (hk : k ≤ c) :
    back ((w + 1) % c) k c = (back w k c + 1) % c := by
  have h0 := Nat.zero_lt_of_lt hw
  rw [succ_mod_of_lt (back_lt h0 w k), back_eq_ite (Nat.mod_lt _ h0) hk, back_eq_ite hw hk,
    succ_mod_of_lt hw]
  grind

/-! Streams of samples, the latest at 0. -/

/-- The stream `x` after the sample `a`. -/
def latest (a : Word) (x : Nat → Word) : Nat → Word
  | 0 => a
  | k + 1 => x k

/-- The stream `old` after the samples `xs`, in order. -/
def recent (old : Nat → Word) (xs : List Word) (k : Nat) : Word :=
  if k < xs.length then elem xs (xs.length - 1 - k) else old (k - xs.length)

@[simp] theorem recent_nil (old : Nat → Word) : recent old [] = old := by
  funext k
  simp [recent]

theorem recent_concat (old : Nat → Word) (xs : List Word) (a : Word) :
    recent old (xs ++ [a]) = latest a (recent old xs) := by
  funext k
  cases k with
  | zero => simp [recent, latest, elem]
  | succ k =>
    simp only [recent, latest, elem, List.length_append, List.length_singleton,
      Nat.add_lt_add_iff_right, Nat.add_sub_cancel, Nat.add_sub_add_right]
    split
    · rw [List.getD_append _ _ _ _ (by omega), Nat.sub_sub, Nat.add_comm 1 k]
    · rfl

/-! The ring. -/

/-- The array `buf` of `c` words, with its write cursor at `w`, holds the stream `x`: the word at
`k + 1` behind the cursor is the one written `k` words before the latest. -/
structure Ring (c : Nat) (x : Nat → Word) (buf : List Word) (w : Nat) : Prop where
  length : buf.length = c
  cursor_lt : w < c
  entry : ∀ k < c, elem buf (back w (k + 1) c) = x k

/-- What a ring holds, as the stream it has been written with. -/
theorem ring_of_content {c w : Nat} {buf : List Word} (hlen : buf.length = c) (hw : w < c) :
    Ring c (fun k => elem buf (back w (k + 1) c)) buf w :=
  ⟨hlen, hw, fun _ _ => rfl⟩

theorem ring_replicate {c w : Nat} (a : Word) (hw : w < c) :
    Ring c (fun _ => a) (List.replicate c a) w :=
  ⟨List.length_replicate, hw, fun _ _ => List.getD_replicate _ (back_lt (by omega) _ _)⟩

/-- After the word at the cursor is replaced, the cursor not yet moved, the word `k` behind it is `k`
samples old. -/
theorem Ring.elem_set_back {c w k : Nat} {x : Nat → Word} {buf : List Word} (h : Ring c x buf w)
    (a : Word) (hk : k < c) : elem (buf.set w a) (back w k c) = latest a x k := by
  obtain ⟨hlen, hw, hentry⟩ := h
  cases k with
  | zero => simp [elem, latest, back_zero hw, hlen, hw]
  | succ k =>
    have hne : back w (k + 1) c ≠ w := back_ne_self hw k.succ_pos hk
    rw [latest, ← hentry k (by omega)]
    simp [elem, List.getElem?_set_ne hne.symm]

theorem Ring.push {c w : Nat} {x : Nat → Word} {buf : List Word} (h : Ring c x buf w) (a : Word) :
    Ring c (latest a x) (buf.set w a) ((w + 1) % c) where
  length := by rw [List.length_set, h.length]
  cursor_lt := Nat.mod_lt _ (Nat.zero_lt_of_lt h.cursor_lt)
  entry k hk := by rw [back_succ_succ h.cursor_lt hk, h.elem_set_back a hk]

/-- The dot product with a ring just written is the sum over the stream (R168, R192). -/
theorem Ring.dot_set {c w : Nat} {x : Nat → Word} {buf : List Word} (h : Ring c x buf w)
    (coef : List Word) (a : Word) :
    dot coef (buf.set w a) w c =
      (List.range c).foldl (fun acc k => fadd acc (fmul (elem coef k) (latest a x k))) zero :=
  List.foldl_ext _ _ _ fun _ k hk => by rw [h.elem_set_back a (List.mem_range.mp hk)]

/-! One command for each sample. -/

theorem getElem?_set_of_some {α : Type} {l : List α} {n : Nat} {u v : α} (h : l[n]? = some u) :
    (l.set n v)[n]? = some v :=
  List.getElem?_set_self (List.getElem?_eq_some_iff.mp h).1

/-- What holds before the samples and is kept by the command of each holds after them all. -/
theorem execAll_map_of_step {f : Word → Instr} {P : List Word → State → Prop} {s : State}
    (h0 : P [] s) (hstep : ∀ xs a t, P xs t → ∃ t', exec (f a) t = .next t' ∧ P (xs ++ [a]) t')
    (xs : List Word) : ∃ t, execAll (xs.map f) s = .next t ∧ P xs t := by
  induction xs using List.reverseRecOn with
  | nil => exact ⟨s, rfl, h0⟩
  | append_singleton xs a ih =>
    obtain ⟨t, ht, hP⟩ := ih
    obtain ⟨t', ht', hP'⟩ := hstep xs a t hP
    refine ⟨t', ?_, hP'⟩
    rw [List.map_append, execAll_append ht, List.map_singleton, execAll_cons ht', execAll_nil]

/-! The Hilbert transformer (R191 to R193). -/

/-- A constructed transformer whose history is the stream `x`. -/
structure HilRegs.Holds (u : HilRegs) (x : Nat → Word) : Prop where
  inited : u.inited = true
  ring : Ring 95 x u.hist u.wpos.toNat

/-- The quadrature output for the stream `x` (R193). -/
def quadrature (rom : List Word) (x : Nat → Word) : Word :=
  (List.range 95).foldl (fun q k => fadd q (fmul (elem rom k) (x k))) zero

theorem HilRegs.constructed_holds (u : HilRegs) : u.constructed.Holds fun _ => zero :=
  ⟨rfl, ring_replicate (w := 0) zero (by decide)⟩

theorem HilRegs.Holds.step {u : HilRegs} {x : Nat → Word} (h : u.Holds x) (rom : List Word)
    (a : Word) : (u.step rom a).regs.Holds (latest a x) := by
  refine ⟨h.inited, ?_⟩
  have hpush := h.ring.push a
  rwa [← nextCursor_toNat (by omega) (by omega)] at hpush

/-- Both outputs are of one stream: the in-phase one 47 samples old, the quadrature one its sum. -/
theorem HilRegs.Holds.step_outputs {u : HilRegs} {x : Nat → Word} (h : u.Holds x) (rom : List Word)
    (a : Word) :
    (u.step rom a).i = latest a x 47 ∧ (u.step rom a).q = quadrature rom (latest a x) := by
  refine ⟨h.ring.elem_set_back a (by omega), ?_⟩
  rw [HilRegs.step, h.ring.dot_set, quadrature]

/-- What `HIL.INIT` and the samples `xs` lead to: the history is `xs` after +0, and the last response
is the pair of R193. -/
structure HilbertRun (rom : List Word) (inst : Nat) (xs : List Word) (t : State) : Prop where
  rom_eq : t.par.hilCoef = rom
  holds : ∃ u, t.hil[inst]? = some u ∧ u.Holds (recent (fun _ => zero) xs)
  response : xs ≠ [] → t.rsp = some
    ⟨.ok, recent (fun _ => zero) xs 47, quadrature rom (recent (fun _ => zero) xs)⟩

theorem exec_hilInit {s : State} {inst : Nat} {u : HilRegs} (hu : s.hil[inst]? = some u) :
    exec (.hilInit inst) s = .next ((s.putHil inst u.constructed).completed 0 0) :=
  construct_of_some hu rfl

theorem exec_hilStep {s : State} {inst : Nat} {a : Word} {u : HilRegs} (hu : s.hil[inst]? = some u)
    (hi : u.inited = true) :
    exec (.hilStep inst a) s = .next ((s.putHil inst (u.step s.par.hilCoef a).regs).completed
      (u.step s.par.hilCoef a).i (u.step s.par.hilCoef a).q) :=
  operate_of_inited hu hi

theorem hilbertRun_hilInit {s : State} {inst : Nat} {u : HilRegs} (hu : s.hil[inst]? = some u) :
    HilbertRun s.par.hilCoef inst [] ((s.putHil inst u.constructed).completed 0 0) where
  rom_eq := rfl
  holds := ⟨u.constructed, getElem?_set_of_some hu, by
    rw [recent_nil]
    exact u.constructed_holds⟩
  response h := absurd rfl h

theorem HilbertRun.hilStep {rom : List Word} {inst : Nat} {xs : List Word} {t : State}
    (h : HilbertRun rom inst xs t) (a : Word) :
    ∃ t', exec (.hilStep inst a) t = .next t' ∧ HilbertRun rom inst (xs ++ [a]) t' := by
  obtain ⟨rfl, ⟨u, hu, hx⟩, -⟩ := h
  obtain ⟨hi, hq⟩ := hx.step_outputs t.par.hilCoef a
  refine ⟨_, exec_hilStep hu hx.inited, rfl, ⟨_, getElem?_set_of_some hu, ?_⟩, fun _ => ?_⟩
  · rw [recent_concat]
    exact hx.step t.par.hilCoef a
  · rw [State.completed_rsp, hi, hq, recent_concat]

/-- Settles O45: `HIL.INIT` starts a `HilbertRun`, and each `HIL.STEP` continues it. -/
theorem hilbertAlignment : Obligations.HilbertAlignment := by
  intro s inst xs hinst hne x
  have hu : s.hil[inst]? = some s.hil[inst] := List.getElem?_eq_getElem hinst
  obtain ⟨t, ht, hrun⟩ :=
    execAll_map_of_step (hilbertRun_hilInit hu) (fun _ a _ h => h.hilStep a) xs
  exact ⟨t, by rw [execAll_cons (exec_hilInit hu), ht], hrun.response hne⟩

/-! The delay line (R197 to R199). -/

theorem clampDelay_lt {c : Nat} (h0 : 0 < c) (a : Word) : clampDelay a c < c := by
  unfold clampDelay
  split
  · exact h0
  · split <;> omega

/-- The delay that the register value `n` acts as: 0 acts as the capacity (R199). -/
def actingDelay (n c : Nat) : Nat := if n = 0 then c else n

theorem actingDelay_range {n c : Nat} (hn : n < c) :
    0 < actingDelay n c ∧ actingDelay n c ≤ c := by
  unfold actingDelay
  split <;> omega

/-- The read cursor cannot tell a delay of 0 from one of the capacity. -/
theorem back_actingDelay {w c : Nat} (hw : w < c) (n : Nat) :
    back w (actingDelay n c) c = back w n c := by
  unfold actingDelay
  split
  · rename_i h
    rw [h, back_self hw, back_zero hw]
  · rfl

/-- A constructed delay line whose buffer is the stream `x`, with the read cursor `d` behind the
write cursor. -/
structure DlyRegs.Delays (u : DlyRegs) (c d : Nat) (x : Nat → Word) : Prop where
  inited : u.inited = true
  ring : Ring c x u.buf u.wpos.toNat
  behind : u.rpos.toNat = back u.wpos.toNat d c

theorem DlyRegs.withDelay_delays {u : DlyRegs} {c : Nat} {x : Nat → Word} (hi : u.inited = true)
    (hx : Ring c x u.buf u.wpos.toNat) (hc : c ≤ 1024) (n : Nat) :
    (u.withDelay c n).Delays c (actingDelay n c) x := by
  refine ⟨hi, hx, ?_⟩
  have hw := hx.cursor_lt
  have hlt := back_lt (by omega) u.wpos.toNat n (c := c)
  rw [DlyRegs.withDelay, back_actingDelay hw, BitVec.toNat_ofNat, Nat.mod_eq_of_lt (by omega)]

/-- A push writes the ring and keeps the distance of the two cursors (R198). -/
theorem DlyRegs.Delays.pushPop {u : DlyRegs} {c d : Nat} {x : Nat → Word} (h : u.Delays c d x)
    (hc : c ≤ 1024) (hd : d ≤ c) (a : Word) : (u.pushPop c a).1.Delays c d (latest a x) := by
  obtain ⟨hi, hx, hr⟩ := h
  have hw := hx.cursor_lt
  have hnext := nextCursor_toNat (by omega) hc
  refine ⟨hi, ?_, ?_⟩
  · rw [DlyRegs.pushPop, hnext]
    exact hx.push a
  · rw [DlyRegs.pushPop, hnext, hnext, hr, back_succ_left hw hd]

/-- The word read is `d` pushes old: the read comes before the write, so `d` may be the capacity. -/
theorem DlyRegs.Delays.pushPop_result {u : DlyRegs} {c d : Nat} {x : Nat → Word}
    (h : u.Delays c d x) (h0 : 0 < d) (hd : d ≤ c) (a : Word) :
    (u.pushPop c a).2 = latest a x d := by
  obtain ⟨k, rfl⟩ := Nat.exists_eq_succ_of_ne_zero h0.ne'
  rw [DlyRegs.pushPop, h.behind, h.ring.entry k hd, latest]

/-- What a `DLY.SETD` and the samples `xs` lead to: the buffer is `xs` after `old`, and the last
response is the sample `d` pushes old. -/
structure DelayRun (c d : Nat) (old : Nat → Word) (inst : Nat) (xs : List Word) (t : State) :
    Prop where
  cap_eq : t.par.dlyCap = c
  delays : ∃ u, t.dly[inst]? = some u ∧ u.Delays c d (recent old xs)
  response : xs ≠ [] → t.rsp = some ⟨.ok, recent old xs d, 0⟩

theorem exec_dlySetd {s : State} {inst : Nat} {a : Word} {u : DlyRegs} (hu : s.dly[inst]? = some u)
    (hi : u.inited = true) :
    exec (.dlySetd inst a) s =
      .next ((s.putDly inst (u.withDelay s.par.dlyCap (clampDelay a s.par.dlyCap))).completed
        (BitVec.ofNat 32 (clampDelay a s.par.dlyCap)) 0) :=
  operate_of_inited hu hi

theorem exec_dlyPushpop {s : State} {inst : Nat} {a : Word} {u : DlyRegs}
    (hu : s.dly[inst]? = some u) (hi : u.inited = true) :
    exec (.dlyPushpop inst a) s = .next ((s.putDly inst (u.pushPop s.par.dlyCap a).1).completed
      (u.pushPop s.par.dlyCap a).2 0) :=
  operate_of_inited hu hi

/-- Storing a delay line with the stream `old` starts a run, whatever the response. -/
theorem delayRun_putDly {s : State} {c d inst : Nat} {old : Nat → Word} {u v : DlyRegs}
    (hc : s.par.dlyCap = c) (hu : s.dly[inst]? = some u) (hv : v.Delays c d old) (r0 r1 : Word) :
    DelayRun c d old inst [] ((s.putDly inst v).completed r0 r1) where
  cap_eq := hc
  delays := ⟨v, getElem?_set_of_some hu, by rwa [recent_nil]⟩
  response h := absurd rfl h

theorem DelayRun.dlyPushpop {c d inst : Nat} {old : Nat → Word} {xs : List Word} {t : State}
    (h : DelayRun c d old inst xs t) (hc : c ≤ 1024) (h0 : 0 < d) (hd : d ≤ c) (a : Word) :
    ∃ t', exec (.dlyPushpop inst a) t = .next t' ∧ DelayRun c d old inst (xs ++ [a]) t' := by
  obtain ⟨rfl, ⟨u, hu, hx⟩, -⟩ := h
  refine ⟨_, exec_dlyPushpop hu hx.inited, rfl, ⟨_, getElem?_set_of_some hu, ?_⟩, fun _ => ?_⟩
  · rw [recent_concat]
    exact hx.pushPop hc hd a
  · rw [State.completed_rsp, hx.pushPop_result h0 hd, recent_concat]

/-- The sample `d` pushes old, where what the buffer held before the pushes is indexed as in R199. -/
theorem recent_content {c w d : Nat} {buf xs : List Word} (hd : d ≤ c) (hne : xs ≠ []) :
    recent (fun k => elem buf (back w (k + 1) c)) xs d =
      if d < xs.length then xs.getD (xs.length - 1 - d) 0
      else buf.getD ((w + (xs.length - 1) + c - d) % c) 0 := by
  have hpos := List.length_pos_of_ne_nil hne
  unfold recent
  split
  · rfl
  · have hindex : w + c - (d - xs.length + 1) = w + (xs.length - 1) + c - d := by omega
    dsimp only
    rw [back_eq_mod (by omega), hindex]
    rfl

/-- Settles O47: `DLY.SETD` starts a `DelayRun` on what the buffer held, and each `DLY.PUSHPOP`
continues it. -/
theorem effectiveDelay : Obligations.EffectiveDelay := by
  intro s inst a xs u h2 hc hu hi hlen hw hne c n d
  have hn : n < c := clampDelay_lt (by omega) a
  obtain ⟨h0, hd⟩ : 0 < d ∧ d ≤ c := actingDelay_range hn
  have hstart := DlyRegs.withDelay_delays hi (ring_of_content hlen hw) hc n
  obtain ⟨t, ht, hrun⟩ := execAll_map_of_step (delayRun_putDly rfl hu hstart (BitVec.ofNat 32 n) 0)
    (fun _ x _ h => h.dlyPushpop hc h0 hd x) xs
  refine ⟨t, by rw [execAll_cons (exec_dlySetd hu hi), ht], ?_⟩
  rw [← recent_content hd hne]
  exact hrun.response hne

end Sys2Proof.Machine

/-! `SYS.NOP` (R276): its word is the row (0, 3) of the opcode table with every other field 0, and its
only check is that INST is 0. -/

namespace Sys2Proof.Machine

theorem decode_sysNop {inst : Nat} (hi : inst < 16) (a b : Word) :
    decode ⟨commandWord 0 3 inst 0 0, a, b⟩ = .ok (.sysNop inst) := by
  have hfields : fieldsOf (commandWord 0 3 inst 0 0) = ⟨0, 3, inst, 0, 0⟩ :=
    fieldsOf_commandWord (by decide) (by decide) hi (by decide) (by decide)
  rw [decode_of_fields hfields]
  exact plainForm_ok.mpr ⟨⟨rfl, rfl⟩, rfl⟩

theorem exec_sysNop_zero (s : State) : exec (.sysNop 0) s = .next (s.completed 0 0) := rfl

theorem exec_sysNop_of_one_le {inst : Nat} (h : 1 ≤ inst) (s : State) :
    exec (.sysNop inst) s = .next (s.raised .badInstance) :=
  if_pos h

/-- Settles O22, from the decoding of the word's fields and the two ends of the command. -/
theorem sysNop : Obligations.SysNop := by
  refine ⟨fun a b => ?_, fun s => ⟨exec_sysNop_zero s, fun inst h => exec_sysNop_of_one_le h s⟩⟩
  have hword : commandWord 0 3 0 0 0 = 0x03000000#32 := by decide
  rw [← hword]
  exact decode_sysNop (by decide) a b

end Sys2Proof.Machine

/-! Errors (R290 to R298). A raised error is the state before the command with SYS registers and the
response changed; the instance check stands first in every command, the index check next in RD and WR. -/

namespace Sys2Proof.Machine

/-! What `raise` leaves (R292). -/

theorem faultBit_of_error {e : ErrorCode} (h : e ≠ .ok) : faultBit e = 1#32 <<< e.code := by
  cases e
  case ok => exact absurd rfl h
  all_goals rfl

theorem State.raised_of_error {e : ErrorCode} (h : e ≠ .ok) (s : State) :
    s.raised e =
      { s with
        fault := s.fault ||| 1#32 <<< e.code
        cmdcnt := s.cmdcnt + 1
        rsp := some ⟨e, 0, 0⟩ } := by
  rw [State.raised, faultAfter, faultBit_of_error h]

/-- Settles O9: of the three ends of a command, a reset and a completion respond `OK`. -/
theorem errorChangesNothing : Obligations.ErrorChangesNothing := by
  intro i s t h
  obtain ⟨-, rfl⟩ | ⟨e, he, rfl⟩ | ⟨s', r0, r1, -, rfl⟩ := exec_ends h
  · exact ⟨_, rfl, fun herr => absurd rfl herr⟩
  · exact ⟨_, State.raised_rsp s e, fun _ => State.raised_of_error he s⟩
  · exact ⟨_, State.completed_rsp s' r0 r1, fun herr => absurd rfl herr⟩

/-! The instance check (R294). -/

theorem readCommand_of_count_le {s : State} {u : UnitId} {inst : Nat} (h : s.count u ≤ inst)
    (idx : Nat) : readCommand u inst idx s = .next (s.raised .badInstance) := by
  simp [readCommand, regRead, h, raise]

theorem writeCommand_of_count_le {s : State} {u : UnitId} {inst : Nat} (h : s.count u ≤ inst)
    (idx : Nat) (a : Word) : writeCommand u inst idx a s = .next (s.raised .badInstance) := by
  simp [writeCommand, regWrite, h, raise]

theorem exec_sysRst_of_one_le {inst : Nat} (h : 1 ≤ inst) (s : State) :
    exec (.sysRst inst) s = .next (s.raised .badInstance) :=
  if_pos h

/-- Settles O12, by the shape of the command: each of the four looks for the instance first. -/
theorem badInstance : Obligations.BadInstance := by
  intro i s h
  cases i
  case sysRst => exact exec_sysRst_of_one_le h s
  case sysNop => exact exec_sysNop_of_one_le h s
  case sysRd | oscRd | preRd | flpRd | fhpRd | bqRd | hilRd | fmRd | dsbRd | muxRd | bsRd | agcRd
      | addRd | tiltRd | dlyRd =>
    exact readCommand_of_count_le h _
  case sysWr | oscWr | preWr | flpWr | fhpWr | bqWr | hilWr | fmWr | dsbWr | muxWr | bsWr | agcWr
      | addWr | tiltWr | dlyWr =>
    exact writeCommand_of_count_le h _ _
  case oscInit | preInit | flpInit | fhpInit | bqInit | hilInit | fmInit | dsbInit | muxInit | bsInit
      | agcInit | addInit | tiltInit | dlyInit =>
    exact withInstance_of_none (List.getElem?_eq_none h)
  case oscSetf | oscSin | oscCos | oscSinh | oscCosh | oscAdv | preStep | flpStep | fhpStep | bqStep
      | hilStep | fmMod | dsbEnc | muxEnc | bsMeas | bsD2dbr | bsDbr2d | bsRatio | agcProc | addClr
      | addIn | addOut | tiltStep | dlySetd | dlyPushpop =>
    exact operate_of_none (List.getElem?_eq_none h)

/-! The index check (R295). -/

theorem exec_rd (u : UnitId) (inst idx : Nat) (s : State) :
    exec (.rd u inst idx) s = readCommand u inst idx s := by
  cases u <;> rfl

theorem exec_wr (u : UnitId) (inst idx : Nat) (a : Word) (s : State) :
    exec (.wr u inst idx a) s = writeCommand u inst idx a s := by
  cases u <;> rfl

theorem readCommand_of_unmapped {s : State} {u : UnitId} {inst idx : Nat} (h : inst < s.count u)
    (hreg : s.reg u inst idx = none) :
    readCommand u inst idx s = .next (s.raised .badIndex) := by
  simp [readCommand, regRead, Nat.not_le.mpr h, hreg, raise]

/-- Every failing index check of WR at once: no register, or one of another class. -/
theorem writeCommand_of_no_cfg {s : State} {u : UnitId} {inst idx : Nat} (h : inst < s.count u)
    (hreg : ∀ v, s.reg u inst idx ≠ some (.cfg, v)) (a : Word) :
    writeCommand u inst idx a s = .next (s.raised .badIndex) := by
  cases hr : s.reg u inst idx with
  | none => simp [writeCommand, regWrite, Nat.not_le.mpr h, hr, raise]
  | some cv =>
    obtain ⟨c, v⟩ := cv
    have hc : c ≠ .cfg := fun hc => hreg v (by rw [hr, hc])
    simp [writeCommand, regWrite, Nat.not_le.mpr h, hr, hc, raise]

/-! The units without a CFG register (R278). -/

theorem arrayReg_ne_cfg {cls : RegClass} (h : cls ≠ .cfg) (base : Nat) (l : List Word) (idx : Nat)
    (v : Word) : arrayReg cls base l idx ≠ some (.cfg, v) :=
  fun hr => h (arrayReg_eq_some hr).1.symm

theorem sysReg_ne_cfg (fault cmdcnt : Word) (idx : Nat) (v : Word) :
    sysReg fault cmdcnt idx ≠ some (.cfg, v) := by
  unfold sysReg
  split <;> simp

theorem OscRegs.reg_ne_cfg (u : OscRegs) (idx : Nat) (v : Word) : u.reg idx ≠ some (.cfg, v) := by
  unfold OscRegs.reg
  split <;> simp

theorem HilRegs.reg_ne_cfg (u : HilRegs) (rom : List Word) (idx : Nat) (v : Word) :
    u.reg rom idx ≠ some (.cfg, v) := by
  unfold HilRegs.reg
  split
  case h_3 => simp [Option.or_eq_some_iff, arrayReg_ne_cfg]
  all_goals simp

theorem DlyRegs.reg_ne_cfg (u : DlyRegs) (idx : Nat) (v : Word) : u.reg idx ≠ some (.cfg, v) := by
  unfold DlyRegs.reg
  split
  case h_5 => exact arrayReg_ne_cfg (by decide) _ _ _ _
  all_goals simp

/-- SYS, OSC, HIL and DLY have no CFG register (R46, R47, R52, R60). -/
theorem State.reg_ne_cfg {u : UnitId} (h : u = .sys ∨ u = .osc ∨ u = .hil ∨ u = .dly) (s : State)
    (inst idx : Nat) (v : Word) : s.reg u inst idx ≠ some (.cfg, v) := by
  obtain rfl | rfl | rfl | rfl := h
  · by_cases hinst : inst = 0 <;> simp [State.reg, hinst, sysReg_ne_cfg]
  · simp [State.reg, Option.bind_eq_some_iff, OscRegs.reg_ne_cfg]
  · simp [State.reg, Option.bind_eq_some_iff, HilRegs.reg_ne_cfg]
  · simp [State.reg, Option.bind_eq_some_iff, DlyRegs.reg_ne_cfg]

/-- Settles O16: the clauses about WR are each a reason why no CFG register is at the address. -/
theorem badIndex : Obligations.BadIndex := by
  intro s u inst idx a hinst
  rw [exec_rd, exec_wr]
  refine ⟨fun hnone => ⟨readCommand_of_unmapped hinst hnone, ?_⟩, fun c v hreg hc => ?_, fun hu => ?_⟩
  · exact writeCommand_of_no_cfg hinst (fun w => by simp [hnone]) a
  · exact writeCommand_of_no_cfg hinst (fun w => by simp [hreg, hc]) a
  · exact writeCommand_of_no_cfg hinst (State.reg_ne_cfg hu s inst idx) a

end Sys2Proof.Machine

/-! What a command does to the registers of the block (R42, R61, R292): it raises an error, resets
the block, or replaces instances that it may touch. `Next` names, for each unit, what may stand in
place of an instance; `exec_completes` says that every command keeps to it, and the rules about
the whole machine are read off it. -/

namespace Sys2Proof.Machine

/-! Lists of instances. -/

/-- The list `l'` is `l`, but where `touched` holds an instance may be replaced by one that `R`
allows. -/
def Steps {α : Type} (touched : Nat → Prop) (R : α → α → Prop) (l l' : List α) : Prop :=
  ∀ n, l'[n]? = l[n]? ∨ touched n ∧ ∃ u u', l[n]? = some u ∧ l'[n]? = some u' ∧ R u u'

theorem Steps.refl {α : Type} (touched : Nat → Prop) (R : α → α → Prop) (l : List α) :
    Steps touched R l l := fun _ => .inl rfl

theorem Steps.set {α : Type} {touched : Nat → Prop} {R : α → α → Prop} {l : List α} {n : Nat}
    {u u' : α} (hn : touched n) (hu : l[n]? = some u) (hR : R u u') :
    Steps touched R l (l.set n u') := by
  intro m
  by_cases hm : n = m
  · subst hm
    exact .inr ⟨hn, u, u', hu, getElem?_set_of_some hu, hR⟩
  · exact .inl (List.getElem?_set_ne hm)

/-- What `R` keeps of an instance holds of every instance of the new list. -/
theorem Steps.forall_mem {α : Type} {touched : Nat → Prop} {R : α → α → Prop} {l l' : List α}
    {P : α → Prop} (h : Steps touched R l l') (hl : ∀ u ∈ l, P u)
    (hR : ∀ u u', R u u' → P u → P u') : ∀ u ∈ l', P u := by
  intro u' hu'
  obtain ⟨n, hn⟩ := List.mem_iff_getElem?.mp hu'
  obtain heq | ⟨-, v, v', hv, hv', hvv'⟩ := h n
  · exact hl u' (List.mem_of_getElem? (heq ▸ hn))
  · cases hn.symm.trans hv'
    exact hR v u' hvv' (hl v (List.mem_of_getElem? hv))

theorem modify_eq_set_of_some {α : Type} {l : List α} {n : Nat} {u : α} (h : l[n]? = some u)
    (f : α → α) : l.modify n f = l.set n (f u) := by
  rw [List.modify_eq_set_getElem?, h]
  rfl

/-! What may stand in place of an instance after the command `i`. -/

/-- OSC: constructed, with a new increment, or with its phase advanced. -/
inductive OscRegs.Next (i : Instr) (o : OscRegs) : OscRegs → Prop
  | init (a b : Word) : writesPhase i = true → oscConfigOk a b = true →
      OscRegs.Next i o { phase := zero, pinc := oscIncrement a b, srate := b, inited := true }
  | tune (w : Word) : OscRegs.Next i o { o with pinc := w }
  | advance : writesPhase i = true → OscRegs.Next i o o.advance

/-- PRE: a CFG register written, constructed, or one sample on. -/
inductive PreRegs.Next (i : Instr) (u : PreRegs) : PreRegs → Prop
  | write (idx : Nat) (v w : Word) : i.sort = .write → u.reg idx = some (.cfg, w) →
      PreRegs.Next i u (u.write idx v)
  | init (u' : PreRegs) : i.sort = .init → u.constructed = some u' → PreRegs.Next i u u'
  | step (a : Word) : PreRegs.Next i u { u with xprev := a }

/-- FLP or FHP, with `n` taps and the kernel passed through `shape`. -/
inductive FirRegs.Next (i : Instr) (n : Nat) (shape : List Word → List Word) (u : FirRegs) :
    FirRegs → Prop
  | write (idx : Nat) (v w : Word) : i.sort = .write → u.reg idx = some (.cfg, w) →
      FirRegs.Next i n shape u (u.write idx v)
  | init (h : List Word) : i.sort = .init → firKernel n u.cutoff u.srate = some h →
      FirRegs.Next i n shape u (u.withKernel n (shape h))
  | step (a : Word) : FirRegs.Next i n shape u (u.step n a).1

/-- BQ. -/
inductive BqRegs.Next (i : Instr) (u : BqRegs) : BqRegs → Prop
  | write (idx : Nat) (v w : Word) : i.sort = .write → u.reg idx = some (.cfg, w) →
      BqRegs.Next i u (u.write idx v)
  | init (u' : BqRegs) : i.sort = .init → u.constructed = some u' → BqRegs.Next i u u'
  | step (x1 x2 y1 y2 : Word) : BqRegs.Next i u { u with x1 := x1, x2 := x2, y1 := y1, y2 := y2 }

/-- HIL, with the ROM `rom`. -/
inductive HilRegs.Next (rom : List Word) (u : HilRegs) : HilRegs → Prop
  | init : HilRegs.Next rom u u.constructed
  | step (a : Word) : HilRegs.Next rom u (u.step rom a).regs

/-- FM, in a block with `nOsc` oscillators. -/
inductive FmRegs.Next (i : Instr) (nOsc : Nat) (u : FmRegs) : FmRegs → Prop
  | write (idx : Nat) (v w : Word) : i.sort = .write → u.reg idx = some (.cfg, w) →
      FmRegs.Next i nOsc u (u.write idx v)
  | init (u' : FmRegs) : i.sort = .init → u.constructed nOsc = some u' → FmRegs.Next i nOsc u u'
  | step (a : Word) : FmRegs.Next i nOsc u { u with phase := u.nextPhase a }

/-- DSB. -/
inductive DsbRegs.Next (i : Instr) (nOsc : Nat) (u : DsbRegs) : DsbRegs → Prop
  | write (idx : Nat) (v w : Word) : i.sort = .write → u.reg idx = some (.cfg, w) →
      DsbRegs.Next i nOsc u (u.write idx v)
  | init : u.configOk nOsc = true → DsbRegs.Next i nOsc u { u with inited := true }

/-- MUX. -/
inductive MuxRegs.Next (i : Instr) (nOsc nHil nDly : Nat) (u : MuxRegs) : MuxRegs → Prop
  | write (idx : Nat) (v w : Word) : i.sort = .write → u.reg idx = some (.cfg, w) →
      MuxRegs.Next i nOsc nHil nDly u (u.write idx v)
  | init : u.configOk nOsc nHil nDly = true →
      MuxRegs.Next i nOsc nHil nDly u { u with inited := true }

/-- BS. -/
inductive BsRegs.Next (i : Instr) (u : BsRegs) : BsRegs → Prop
  | write (idx : Nat) (v w : Word) : i.sort = .write → u.reg idx = some (.cfg, w) →
      BsRegs.Next i u (u.write idx v)
  | init (u' : BsRegs) : i.sort = .init → u.constructed = some u' → BsRegs.Next i u u'
  | measure (inst : Nat) (a : Word) : i = .bsMeas inst a → u.inited = true →
      BsRegs.Next i u (u.measure a).1

/-- AGC. -/
inductive AgcRegs.Next (i : Instr) (u : AgcRegs) : AgcRegs → Prop
  | write (idx : Nat) (v w : Word) : i.sort = .write → u.reg idx = some (.cfg, w) →
      AgcRegs.Next i u (u.write idx v)
  | init (u' : AgcRegs) : i.sort = .init → u.constructed = some u' → AgcRegs.Next i u u'
  | process (inst : Nat) (a : Word) : i = .agcProc inst a → u.inited = true →
      AgcRegs.Next i u (u.process a)

/-- ADD. -/
inductive AddRegs.Next (i : Instr) (nOsc : Nat) (u : AddRegs) : AddRegs → Prop
  | write (idx : Nat) (v w : Word) : i.sort = .write → u.reg idx = some (.cfg, w) →
      AddRegs.Next i nOsc u (u.write idx v)
  | init (u' : AddRegs) : i.sort = .init → u.constructed nOsc = some u' → AddRegs.Next i nOsc u u'
  | sum (x : Word) : AddRegs.Next i nOsc u { u with sum := x }

/-- TILT. -/
inductive TiltRegs.Next (i : Instr) (u : TiltRegs) : TiltRegs → Prop
  | write (idx : Nat) (v w : Word) : i.sort = .write → u.reg idx = some (.cfg, w) →
      TiltRegs.Next i u (u.write idx v)
  | init (u' : TiltRegs) : i.sort = .init → u.constructed = some u' → TiltRegs.Next i u u'
  | step (x y : Word) : TiltRegs.Next i u { u with xprev := x, yprev := y }

/-- DLY, with the capacity `cap`. -/
inductive DlyRegs.Next (cap : Nat) (u : DlyRegs) : DlyRegs → Prop
  | init : DlyRegs.Next cap u (u.constructed cap)
  | delay (a : Word) : DlyRegs.Next cap u (u.withDelay cap (clampDelay a cap))
  | step (a : Word) : DlyRegs.Next cap u (u.pushPop cap a).1

/-! The whole state. -/

/-- The state `s'` that the command `i`, run from `s`, completes over: only instances it may touch
(R61) are replaced, each by one that its unit's `Next` allows. -/
structure Update (i : Instr) (s s' : State) : Prop where
  frame : Frame s s'
  osc : Steps (fun n => (.osc, n) ∈ touches i s) (OscRegs.Next i) s.osc s'.osc
  pre : Steps (fun n => (.pre, n) ∈ touches i s) (PreRegs.Next i) s.pre s'.pre
  flp : Steps (fun n => (.flp, n) ∈ touches i s) (FirRegs.Next i s.par.firTaps id) s.flp s'.flp
  fhp : Steps (fun n => (.fhp, n) ∈ touches i s)
    (FirRegs.Next i s.par.firTaps (invertKernel s.par.firTaps)) s.fhp s'.fhp
  bq : Steps (fun n => (.bq, n) ∈ touches i s) (BqRegs.Next i) s.bq s'.bq
  hil : Steps (fun n => (.hil, n) ∈ touches i s) (HilRegs.Next s.par.hilCoef) s.hil s'.hil
  fm : Steps (fun n => (.fm, n) ∈ touches i s) (FmRegs.Next i s.osc.length) s.fm s'.fm
  dsb : Steps (fun n => (.dsb, n) ∈ touches i s) (DsbRegs.Next i s.osc.length) s.dsb s'.dsb
  mux : Steps (fun n => (.mux, n) ∈ touches i s)
    (MuxRegs.Next i s.osc.length s.hil.length s.dly.length) s.mux s'.mux
  bs : Steps (fun n => (.bs, n) ∈ touches i s) (BsRegs.Next i) s.bs s'.bs
  agc : Steps (fun n => (.agc, n) ∈ touches i s) (AgcRegs.Next i) s.agc s'.agc
  add : Steps (fun n => (.add, n) ∈ touches i s) (AddRegs.Next i s.osc.length) s.add s'.add
  tilt : Steps (fun n => (.tilt, n) ∈ touches i s) (TiltRegs.Next i) s.tilt s'.tilt
  dly : Steps (fun n => (.dly, n) ∈ touches i s) (DlyRegs.Next s.par.dlyCap) s.dly s'.dly

theorem Update.refl (i : Instr) (s : State) : Update i s s where
  frame := Frame.refl s
  osc := Steps.refl _ _ _
  pre := Steps.refl _ _ _
  flp := Steps.refl _ _ _
  fhp := Steps.refl _ _ _
  bq := Steps.refl _ _ _
  hil := Steps.refl _ _ _
  fm := Steps.refl _ _ _
  dsb := Steps.refl _ _ _
  mux := Steps.refl _ _ _
  bs := Steps.refl _ _ _
  agc := Steps.refl _ _ _
  add := Steps.refl _ _ _
  tilt := Steps.refl _ _ _
  dly := Steps.refl _ _ _

section Replace

variable {i : Instr} {s : State} {n : Nat}

theorem update_putOsc {u u' : OscRegs} (hn : (.osc, n) ∈ touches i s) (hu : s.osc[n]? = some u)
    (h : u.Next i u') : Update i s (s.putOsc n u') :=
  { Update.refl i s with frame := frame_putOsc s n u', osc := Steps.set hn hu h }

theorem update_putPre {u u' : PreRegs} (hn : (.pre, n) ∈ touches i s) (hu : s.pre[n]? = some u)
    (h : u.Next i u') : Update i s (s.putPre n u') :=
  { Update.refl i s with frame := frame_putPre s n u', pre := Steps.set hn hu h }

theorem update_putFlp {u u' : FirRegs} (hn : (.flp, n) ∈ touches i s) (hu : s.flp[n]? = some u)
    (h : u.Next i s.par.firTaps id u') : Update i s (s.putFlp n u') :=
  { Update.refl i s with frame := frame_putFlp s n u', flp := Steps.set hn hu h }

theorem update_putFhp {u u' : FirRegs} (hn : (.fhp, n) ∈ touches i s) (hu : s.fhp[n]? = some u)
    (h : u.Next i s.par.firTaps (invertKernel s.par.firTaps) u') : Update i s (s.putFhp n u') :=
  { Update.refl i s with frame := frame_putFhp s n u', fhp := Steps.set hn hu h }

theorem update_putBq {u u' : BqRegs} (hn : (.bq, n) ∈ touches i s) (hu : s.bq[n]? = some u)
    (h : u.Next i u') : Update i s (s.putBq n u') :=
  { Update.refl i s with frame := frame_putBq s n u', bq := Steps.set hn hu h }

theorem update_putHil {u u' : HilRegs} (hn : (.hil, n) ∈ touches i s) (hu : s.hil[n]? = some u)
    (h : u.Next s.par.hilCoef u') : Update i s (s.putHil n u') :=
  { Update.refl i s with frame := frame_putHil s n u', hil := Steps.set hn hu h }

theorem update_putFm {u u' : FmRegs} (hn : (.fm, n) ∈ touches i s) (hu : s.fm[n]? = some u)
    (h : u.Next i s.osc.length u') : Update i s (s.putFm n u') :=
  { Update.refl i s with frame := frame_putFm s n u', fm := Steps.set hn hu h }

theorem update_putDsb {u u' : DsbRegs} (hn : (.dsb, n) ∈ touches i s) (hu : s.dsb[n]? = some u)
    (h : u.Next i s.osc.length u') : Update i s (s.putDsb n u') :=
  { Update.refl i s with frame := frame_putDsb s n u', dsb := Steps.set hn hu h }

theorem update_putMux {u u' : MuxRegs} (hn : (.mux, n) ∈ touches i s) (hu : s.mux[n]? = some u)
    (h : u.Next i s.osc.length s.hil.length s.dly.length u') : Update i s (s.putMux n u') :=
  { Update.refl i s with frame := frame_putMux s n u', mux := Steps.set hn hu h }

theorem update_putBs {u u' : BsRegs} (hn : (.bs, n) ∈ touches i s) (hu : s.bs[n]? = some u)
    (h : u.Next i u') : Update i s (s.putBs n u') :=
  { Update.refl i s with frame := frame_putBs s n u', bs := Steps.set hn hu h }

theorem update_putAgc {u u' : AgcRegs} (hn : (.agc, n) ∈ touches i s) (hu : s.agc[n]? = some u)
    (h : u.Next i u') : Update i s (s.putAgc n u') :=
  { Update.refl i s with frame := frame_putAgc s n u', agc := Steps.set hn hu h }

theorem update_putAdd {u u' : AddRegs} (hn : (.add, n) ∈ touches i s) (hu : s.add[n]? = some u)
    (h : u.Next i s.osc.length u') : Update i s (s.putAdd n u') :=
  { Update.refl i s with frame := frame_putAdd s n u', add := Steps.set hn hu h }

theorem update_putTilt {u u' : TiltRegs} (hn : (.tilt, n) ∈ touches i s) (hu : s.tilt[n]? = some u)
    (h : u.Next i u') : Update i s (s.putTilt n u') :=
  { Update.refl i s with frame := frame_putTilt s n u', tilt := Steps.set hn hu h }

theorem update_putDly {u u' : DlyRegs} (hn : (.dly, n) ∈ touches i s) (hu : s.dly[n]? = some u)
    (h : u.Next s.par.dlyCap u') : Update i s (s.putDly n u') :=
  { Update.refl i s with frame := frame_putDly s n u', dly := Steps.set hn hu h }

end Replace

/-! The instances a command may touch. -/

/-- Every command may touch the instance it addresses. -/
theorem mem_touches_own (i : Instr) (s : State) : (i.unit, i.inst) ∈ touches i s :=
  List.mem_cons_self

/-- A command that is not an operation touches no other. -/
theorem touches_of_sort {i : Instr} (h : i.sort ≠ .operation) (s : State) :
    touches i s = [(i.unit, i.inst)] := by
  cases i
  case fmMod | muxEnc => exact absurd rfl h
  all_goals rfl

theorem osc_mem_touches_fmMod {s : State} {inst : Nat} {a : Word} {u : FmRegs}
    (hu : s.fm[inst]? = some u) (hs : u.shared ≠ 0) :
    (.osc, u.oscsel.toNat) ∈ touches (.fmMod inst a) s :=
  List.mem_cons_of_mem _ (by simpa [hu] using hs)

theorem osc_mem_touches_muxEnc {s : State} {inst : Nat} {a b : Word} {u : MuxRegs}
    (hu : s.mux[inst]? = some u) : (.osc, u.oscsel.toNat) ∈ touches (.muxEnc inst true a b) s := by
  simp [touches, hu]

theorem ssb_mem_touches_muxEnc {s : State} {inst : Nat} {adv : Bool} {a b : Word} {u : MuxRegs}
    (hu : s.mux[inst]? = some u) (hm : u.mode.toNat = 2) :
    (.hil, u.hilsel.toNat) ∈ touches (.muxEnc inst adv a b) s ∧
      (.dly, u.dlysel.toNat) ∈ touches (.muxEnc inst adv a b) s := by
  simp [touches, hu, hm]

/-! The updates that are more than one replacement. -/

/-- A write of a CFG register replaces its instance (R82). -/
theorem update_writeReg {s : State} {u : UnitId} {inst idx : Nat} {v w : Word}
    (h : s.reg u inst idx = some (.cfg, w)) :
    Update (.wr u inst idx v) s (s.writeReg u inst idx v) := by
  have hown := mem_touches_own (.wr u inst idx v) s
  cases u
  case sys | osc | hil | dly => exact Update.refl _ s
  all_goals
    obtain ⟨r, hr, hreg⟩ := Option.bind_eq_some_iff.mp h
    rw [State.writeReg, modify_eq_set_of_some hr]
  case pre => exact update_putPre hown hr (.write idx v w rfl hreg)
  case flp => exact update_putFlp hown hr (.write idx v w rfl hreg)
  case fhp => exact update_putFhp hown hr (.write idx v w rfl hreg)
  case bq => exact update_putBq hown hr (.write idx v w rfl hreg)
  case fm => exact update_putFm hown hr (.write idx v w rfl hreg)
  case dsb => exact update_putDsb hown hr (.write idx v w rfl hreg)
  case mux => exact update_putMux hown hr (.write idx v w rfl hreg)
  case bs => exact update_putBs hown hr (.write idx v w rfl hreg)
  case agc => exact update_putAgc hown hr (.write idx v w rfl hreg)
  case add => exact update_putAdd hown hr (.write idx v w rfl hreg)
  case tilt => exact update_putTilt hown hr (.write idx v w rfl hreg)

/-- `MUX.ENC` outside SSB mode: with ADV the oscillator is advanced (R210). -/
theorem update_advanceIf {s : State} {inst : Nat} {adv : Bool} {a b : Word} {u : MuxRegs}
    {o : OscRegs} (hu : s.mux[inst]? = some u) (ho : s.osc[u.oscsel.toNat]? = some o) :
    Update (.muxEnc inst adv a b) s (advanceIf adv u.oscsel o s) := by
  cases adv with
  | false => exact Update.refl _ s
  | true => exact update_putOsc (osc_mem_touches_muxEnc hu) ho (.advance rfl)

/-- `MUX.ENC` in SSB mode: the HIL and the DLY step too (R210, R213). -/
theorem update_ssb {s : State} {inst : Nat} {adv : Bool} {a b : Word} {u : MuxRegs} {o : OscRegs}
    {h h' : HilRegs} {d d' : DlyRegs} (hu : s.mux[inst]? = some u) (hm : u.mode.toNat = 2)
    (ho : s.osc[u.oscsel.toNat]? = some o) (hh : s.hil[u.hilsel.toNat]? = some h)
    (hh' : h.Next s.par.hilCoef h') (hd : s.dly[u.dlysel.toNat]? = some d)
    (hd' : d.Next s.par.dlyCap d') :
    Update (.muxEnc inst adv a b) s (advanceIf adv u.oscsel o
      ((s.putHil u.hilsel.toNat h').putDly u.dlysel.toNat d')) := by
  obtain ⟨hhil, hdly⟩ := ssb_mem_touches_muxEnc (adv := adv) (a := a) (b := b) hu hm
  have hframe := ((frame_putHil s u.hilsel.toNat h').trans (frame_putDly _ u.dlysel.toNat d')).trans
    (frame_advanceIf adv u.oscsel o _)
  cases adv with
  | false =>
    exact { Update.refl _ s with
      frame := hframe, hil := Steps.set hhil hh hh', dly := Steps.set hdly hd hd' }
  | true =>
    exact { Update.refl _ s with
      frame := hframe, hil := Steps.set hhil hh hh', dly := Steps.set hdly hd hd'
      osc := Steps.set (osc_mem_touches_muxEnc hu) ho (.advance rfl) }

/-! How a command ends. -/

/-- A command raised an error, or completed over an update. -/
def Completes (i : Instr) (s t : State) : Prop :=
  (∃ e, e ≠ .ok ∧ t = s.raised e) ∨ ∃ s' r0 r1, Update i s s' ∧ t = s'.completed r0 r1

theorem completes_finish {i : Instr} {s s' t : State} {r0 r1 : Word}
    (h : finish s' r0 r1 = .next t) (hu : Update i s s') : Completes i s t :=
  .inr ⟨s', r0, r1, hu, finish_next.mp h⟩

theorem completes_readCommand {i : Instr} {u : UnitId} {inst idx : Nat} {s t : State}
    (h : readCommand u inst idx s = .next t) : Completes i s t := by
  obtain h | ⟨_, v, -, rfl⟩ := readCommand_next h
  · exact .inl h
  · exact .inr ⟨s, v, 0, Update.refl i s, rfl⟩

theorem completes_writeCommand {u : UnitId} {inst idx : Nat} {v : Word} {s t : State}
    (h : writeCommand u inst idx v s = .next t) : Completes (.wr u inst idx v) s t := by
  obtain h | ⟨_, hreg, rfl⟩ := writeCommand_next h
  · exact .inl h
  · exact .inr ⟨_, 0, 0, update_writeReg hreg, rfl⟩

theorem completes_operate {α : Type} {i : Instr} {units : List α} {inited : α → Bool} {inst : Nat}
    {s t : State} {k : α → Result} (h : operate units inited inst s k = .next t)
    (hk : ∀ u, units[inst]? = some u → inited u = true → k u = .next t → Completes i s t) :
    Completes i s t := by
  obtain h | ⟨u, hu, hi, h⟩ := operate_next h
  · exact .inl h
  · exact hk u hu hi h

theorem completes_construct {α : Type} {i : Instr} {units : List α} {inst : Nat} {s t : State}
    {init : α → Option α} {put : α → State} (h : construct units inst s init put = .next t)
    (hp : ∀ u u', units[inst]? = some u → init u = some u' → Update i s (put u')) :
    Completes i s t := by
  obtain h | ⟨u, u', hu, hu', rfl⟩ := construct_next h
  · exact .inl h
  · exact .inr ⟨_, 0, 0, hp u u' hu hu', rfl⟩

/-- Every command but `SYS.RST` raises an error or completes over an update; `SYS.RST` of instance 0
resets. -/
theorem exec_completes {i : Instr} {s t : State} (h : exec i s = .next t) :
    (i = .sysRst 0 ∧ t = { s.resetRegs with rsp := some ⟨.ok, 0, 0⟩ }) ∨ Completes i s t := by
  have hown := mem_touches_own i s
  cases i
  case sysRst =>
    obtain h | ⟨rfl, ht⟩ := execSysRst_next h
    · exact .inr (.inl h)
    · exact .inl ⟨rfl, ht⟩
  all_goals right
  case sysNop =>
    obtain h | ⟨-, rfl⟩ := execSysNop_next h
    · exact .inl h
    · exact .inr ⟨s, 0, 0, Update.refl _ s, rfl⟩
  case sysRd | oscRd | preRd | flpRd | fhpRd | bqRd | hilRd | fmRd | dsbRd | muxRd | bsRd | agcRd
      | addRd | tiltRd | dlyRd => exact completes_readCommand h
  case sysWr => exact completes_writeCommand (u := .sys) h
  case oscWr => exact completes_writeCommand (u := .osc) h
  case preWr => exact completes_writeCommand (u := .pre) h
  case flpWr => exact completes_writeCommand (u := .flp) h
  case fhpWr => exact completes_writeCommand (u := .fhp) h
  case bqWr => exact completes_writeCommand (u := .bq) h
  case hilWr => exact completes_writeCommand (u := .hil) h
  case fmWr => exact completes_writeCommand (u := .fm) h
  case dsbWr => exact completes_writeCommand (u := .dsb) h
  case muxWr => exact completes_writeCommand (u := .mux) h
  case bsWr => exact completes_writeCommand (u := .bs) h
  case agcWr => exact completes_writeCommand (u := .agc) h
  case addWr => exact completes_writeCommand (u := .add) h
  case tiltWr => exact completes_writeCommand (u := .tilt) h
  case dlyWr => exact completes_writeCommand (u := .dly) h
  case oscSinh | oscCosh | bsD2dbr | bsDbr2d | bsRatio | addOut =>
    exact completes_operate h fun _ _ _ hk => completes_finish hk (Update.refl _ s)
  case oscInit =>
    obtain h | ⟨u, hu, hok, rfl⟩ := execOscInit_next h
    · exact .inl h
    · exact .inr ⟨_, 0, 0, update_putOsc hown hu (.init _ _ rfl hok), rfl⟩
  case oscSetf =>
    exact completes_operate h fun u hu _ hk =>
      completes_finish hk (update_putOsc hown hu (.tune (oscIncrement _ u.srate)))
  case oscAdv | oscSin | oscCos =>
    exact completes_operate h fun _ hu _ hk =>
      completes_finish hk (update_putOsc hown hu (.advance rfl))
  case preInit =>
    exact completes_construct h fun _ u' hu hu' => update_putPre hown hu (.init u' rfl hu')
  case preStep =>
    exact completes_operate h fun _ hu _ hk =>
      completes_finish hk (update_putPre hown hu (.step _))
  case flpInit =>
    obtain h | ⟨u, k, hu, hk, rfl⟩ := execFlpInit_next h
    · exact .inl h
    · exact .inr ⟨_, 0, 0, update_putFlp hown hu (.init k rfl hk), rfl⟩
  case flpStep =>
    exact completes_operate h fun _ hu _ hk =>
      completes_finish hk (update_putFlp hown hu (.step _))
  case fhpInit =>
    obtain h | ⟨u, k, hu, hk, rfl⟩ := execFhpInit_next h
    · exact .inl h
    · exact .inr ⟨_, 0, 0, update_putFhp hown hu (.init k rfl hk), rfl⟩
  case fhpStep =>
    exact completes_operate h fun _ hu _ hk =>
      completes_finish hk (update_putFhp hown hu (.step _))
  case bqInit =>
    exact completes_construct h fun _ u' hu hu' => update_putBq hown hu (.init u' rfl hu')
  case bqStep =>
    exact completes_operate h fun u hu _ hk =>
      completes_finish hk (update_putBq hown hu (.step _ u.x1 (u.output _) u.y1))
  case hilInit =>
    obtain h | ⟨u, hu, rfl⟩ := execHilInit_next h
    · exact .inl h
    · exact .inr ⟨_, 0, 0, update_putHil hown hu .init, rfl⟩
  case hilStep =>
    exact completes_operate h fun _ hu _ hk =>
      completes_finish hk (update_putHil hown hu (.step _))
  case fmInit =>
    exact completes_construct h fun _ u' hu hu' => update_putFm hown hu (.init u' rfl hu')
  case fmMod =>
    obtain h | ⟨u, hu, -, ⟨-, rfl⟩ | ⟨hs, o, ho, -, rfl⟩⟩ := execFmMod_next h
    · exact .inl h
    · exact .inr ⟨_, _, _, update_putFm hown hu (.step _), rfl⟩
    · exact .inr ⟨_, _, _, update_putOsc (osc_mem_touches_fmMod hu hs) ho (.tune _), rfl⟩
  case dsbInit =>
    obtain h | ⟨u, hu, hok, rfl⟩ := execDsbInit_next h
    · exact .inl h
    · exact .inr ⟨_, 0, 0, update_putDsb hown hu (.init hok), rfl⟩
  case dsbEnc =>
    obtain h | ⟨u, o, -, -, -, -, rfl⟩ := execDsbEnc_next h
    · exact .inl h
    · exact .inr ⟨s, _, _, Update.refl _ s, rfl⟩
  case muxInit =>
    obtain h | ⟨u, hu, hok, rfl⟩ := execMuxInit_next h
    · exact .inl h
    · exact .inr ⟨_, 0, 0, update_putMux hown hu (.init hok), rfl⟩
  case muxEnc =>
    obtain h | ⟨u, o, hu, -, ho, -, h⟩ := execMuxEnc_next h
    · exact .inl h
    obtain ⟨-, rfl⟩ | ⟨-, rfl⟩ | ⟨-, rfl⟩ | ⟨hm, _, _, hh, -, hd, -, rfl⟩ := h
    · exact .inr ⟨_, _, _, update_advanceIf hu ho, rfl⟩
    · exact .inr ⟨_, _, _, update_advanceIf hu ho, rfl⟩
    · exact .inr ⟨_, _, _, update_advanceIf hu ho, rfl⟩
    · exact .inr ⟨_, _, _, update_ssb hu hm ho hh (.step _) hd (.step _), rfl⟩
  case bsInit =>
    exact completes_construct h fun _ u' hu hu' => update_putBs hown hu (.init u' rfl hu')
  case bsMeas =>
    exact completes_operate h fun _ hu hi hk =>
      completes_finish hk (update_putBs hown hu (.measure _ _ rfl hi))
  case agcInit =>
    exact completes_construct h fun _ u' hu hu' => update_putAgc hown hu (.init u' rfl hu')
  case agcProc =>
    exact completes_operate h fun _ hu hi hk =>
      completes_finish hk (update_putAgc hown hu (.process _ _ rfl hi))
  case addInit =>
    exact completes_construct h fun _ u' hu hu' => update_putAdd hown hu (.init u' rfl hu')
  case addClr =>
    exact completes_operate h fun _ hu _ hk =>
      completes_finish hk (update_putAdd hown hu (.sum _))
  case addIn =>
    obtain h | ⟨u, _, hu, -, rfl, -⟩ := execAddIn_next h
    · exact .inl h
    · exact .inr ⟨_, _, _, update_putAdd hown hu (.sum _), rfl⟩
  case tiltInit =>
    exact completes_construct h fun _ u' hu hu' => update_putTilt hown hu (.init u' rfl hu')
  case tiltStep =>
    exact completes_operate h fun _ hu _ hk =>
      completes_finish hk (update_putTilt hown hu (.step _ _))
  case dlyInit =>
    obtain h | ⟨u, hu, rfl⟩ := execDlyInit_next h
    · exact .inl h
    · exact .inr ⟨_, 0, 0, update_putDly hown hu .init, rfl⟩
  case dlySetd =>
    exact completes_operate h fun _ hu _ hk =>
      completes_finish hk (update_putDly hown hu (.delay _))
  case dlyPushpop =>
    exact completes_operate h fun _ hu _ hk =>
      completes_finish hk (update_putDly hown hu (.step _))

/-- One step: nothing presented, `rst`, a word that selects no row, or a command run. -/
theorem step_next {s t : State} (h : step s = .next t) :
    (s.input = [] ∧ t = s) ∨ (∃ rest, s.input = .rst :: rest ∧ t = (s.withInput rest).portReset) ∨
      ∃ p rest, s.input = .command p :: rest ∧
        ((∃ e, decode p = .error e ∧ t = (s.withInput rest).raised .illegalCmd) ∨
          ∃ i, decode p = .ok i ∧ exec i (s.withInput rest) = .next t) := by
  unfold step at h
  split at h
  · rename_i hs
    exact .inl ⟨hs, by simpa using h.symm⟩
  · rename_i rest hs
    exact .inr (.inl ⟨rest, hs, by simpa using h.symm⟩)
  · rename_i p rest hs
    refine .inr (.inr ⟨p, rest, hs, ?_⟩)
    split at h
    · rename_i i hi
      exact .inr ⟨i, hi, h⟩
    · rename_i e he
      exact .inl ⟨e, he, raise_next.mp h⟩

end Sys2Proof.Machine

/-! The invariant of the machine. An instance that meets its unit's `Legal` has only successors that
meet it: a write of a CFG register clears INITED, an INIT stores what it checked, and the cursors of
the buffers are taken modulo their length. -/

namespace Sys2Proof.Machine

/-! A write of a CFG register clears INITED (R82). -/

theorem initedWord_eq_zero {b : Bool} : initedWord b = 0 ↔ b = false := by
  cases b <;> decide

/-- INITED reads 0 of an instance that is not constructed. -/
theorem eq_false_of_inited_reg {b : Bool}
    (h : some (RegClass.ro, initedWord b) = some (RegClass.ro, 0)) : b = false :=
  initedWord_eq_zero.mp (congrArg Prod.snd (Option.some.inj h))

section Write

variable {idx : Nat} {w : Word} (v : Word)

theorem PreRegs.inited_write {u : PreRegs} (h : u.reg idx = some (.cfg, w)) :
    (u.write idx v).inited = false := eq_false_of_inited_reg (PreRegs.reg_write v h).2.1

theorem FirRegs.inited_write {u : FirRegs} (h : u.reg idx = some (.cfg, w)) :
    (u.write idx v).inited = false := eq_false_of_inited_reg (FirRegs.reg_write v h).2.1

theorem BqRegs.inited_write {u : BqRegs} (h : u.reg idx = some (.cfg, w)) :
    (u.write idx v).inited = false := eq_false_of_inited_reg (BqRegs.reg_write v h).2.1

theorem FmRegs.inited_write {u : FmRegs} (h : u.reg idx = some (.cfg, w)) :
    (u.write idx v).inited = false := eq_false_of_inited_reg (FmRegs.reg_write v h).2.1

theorem DsbRegs.inited_write {u : DsbRegs} (h : u.reg idx = some (.cfg, w)) :
    (u.write idx v).inited = false := eq_false_of_inited_reg (DsbRegs.reg_write v h).2.1

theorem MuxRegs.inited_write {u : MuxRegs} (h : u.reg idx = some (.cfg, w)) :
    (u.write idx v).inited = false := eq_false_of_inited_reg (MuxRegs.reg_write v h).2.1

theorem BsRegs.inited_write {u : BsRegs} (h : u.reg idx = some (.cfg, w)) :
    (u.write idx v).inited = false := eq_false_of_inited_reg (BsRegs.reg_write v h).2.1

theorem AgcRegs.inited_write {u : AgcRegs} (h : u.reg idx = some (.cfg, w)) :
    (u.write idx v).inited = false := eq_false_of_inited_reg (AgcRegs.reg_write v h).2.1

theorem AddRegs.inited_write {u : AddRegs} (h : u.reg idx = some (.cfg, w)) :
    (u.write idx v).inited = false := eq_false_of_inited_reg (AddRegs.reg_write v h).2.1

theorem TiltRegs.inited_write {u : TiltRegs} (h : u.reg idx = some (.cfg, w)) :
    (u.write idx v).inited = false := eq_false_of_inited_reg (TiltRegs.reg_write v h).2.1

end Write

/-- A write of FLP or FHP leaves the kernel, the history and the cursor. -/
theorem FirRegs.write_arrays (u : FirRegs) (idx : Nat) (v : Word) :
    (u.write idx v).coef = u.coef ∧ (u.write idx v).hist = u.hist ∧
      (u.write idx v).wpos = u.wpos := by
  unfold FirRegs.write
  split <;> exact ⟨rfl, rfl, rfl⟩

/-- What is asked only of a constructed instance holds of one that is not. -/
theorem of_not_inited {b : Bool} {p : Prop} (h : b = false) : b = true → p :=
  fun hb => absurd (h.symm.trans hb) Bool.false_ne_true

/-! Lengths of kernels. -/

theorem length_firKernel {n : Nat} {cutoff srate : Word} {h : List Word}
    (hk : firKernel n cutoff srate = some h) : h.length = n := by
  unfold firKernel at hk
  split at hk
  · dsimp only at hk
    split at hk
    · cases hk
    · cases hk
      simp [firWindowed]
  · cases hk

theorem length_invertKernel (n : Nat) (h : List Word) : (invertKernel n h).length = h.length := by
  simp [invertKernel]

/-! What an INIT constructs. -/

theorem PreRegs.legal_constructed {u u' : PreRegs} (h : u.constructed = some u') : u'.Legal := by
  unfold PreRegs.constructed at h
  dsimp only at h
  split at h
  · rename_i hok
    cases h
    exact fun _ => ⟨hok, rfl, rfl⟩
  · cases h

theorem BqRegs.legal_constructed {u u' : BqRegs} (h : u.constructed = some u') : u'.Legal := by
  unfold BqRegs.constructed at h
  split at h
  · rename_i hok
    cases h
    exact fun _ => hok
  · cases h

theorem FmRegs.legal_constructed {nOsc : Nat} {u u' : FmRegs} (h : u.constructed nOsc = some u') :
    u'.Legal nOsc := by
  unfold FmRegs.constructed at h
  split at h
  · rename_i hok
    cases h
    exact fun _ => hok
  · cases h

theorem BsRegs.legal_constructed {u u' : BsRegs} (h : u.constructed = some u') : u'.Legal := by
  unfold BsRegs.constructed at h
  split at h
  · rename_i hok
    cases h
    exact fun _ => hok
  · cases h

theorem AgcRegs.legal_constructed {u u' : AgcRegs} (h : u.constructed = some u') : u'.Legal := by
  unfold AgcRegs.constructed at h
  split at h
  · rename_i hok
    cases h
    exact fun _ => ⟨hok, rfl, rfl, rfl⟩
  · cases h

theorem AddRegs.legal_constructed {nOsc : Nat} {u u' : AddRegs} (h : u.constructed nOsc = some u') :
    u'.Legal nOsc := by
  unfold AddRegs.constructed at h
  split at h
  · rename_i hok
    cases h
    exact fun _ => hok
  · cases h

theorem TiltRegs.legal_constructed {u u' : TiltRegs} (h : u.constructed = some u') : u'.Legal := by
  unfold TiltRegs.constructed at h
  split at h
  · rename_i hok
    cases h
    exact fun _ => ⟨hok, rfl⟩
  · cases h

/-! What may stand in place of a legal instance is legal. -/

theorem OscRegs.Next.legal {i : Instr} {u u' : OscRegs} (h : u.Next i u') (hu : u.Legal) :
    u'.Legal := by
  cases h with
  | init a b _ hok =>
    simp only [oscConfigOk, Bool.and_eq_true] at hok
    exact fun _ => hok.1
  | tune => exact hu
  | advance => exact hu

theorem PreRegs.Next.legal {i : Instr} {u u' : PreRegs} (h : u.Next i u') (hu : u.Legal) :
    u'.Legal := by
  cases h with
  | write _ v _ _ hreg => exact of_not_inited (PreRegs.inited_write v hreg)
  | init _ _ hinit => exact PreRegs.legal_constructed hinit
  | step => exact hu

theorem FirRegs.Next.legal {i : Instr} {n : Nat} {shape : List Word → List Word} {u u' : FirRegs}
    (h : u.Next i n shape u') (h0 : 0 < n) (hn : n ≤ 1024)
    (hshape : ∀ l, (shape l).length = l.length) (hu : u.Legal n shape) : u'.Legal n shape := by
  obtain ⟨hcoef, hhist, hwpos, hkernel⟩ := hu
  cases h with
  | write idx v _ _ hreg =>
    obtain ⟨ec, eh, ew⟩ := FirRegs.write_arrays u idx v
    refine ⟨ec ▸ hcoef, eh ▸ hhist, ew ▸ hwpos, of_not_inited (FirRegs.inited_write v hreg)⟩
  | init k _ hk =>
    exact ⟨(hshape k).trans (length_firKernel hk), List.length_replicate, h0, fun _ =>
      congrArg (Option.map shape) hk⟩
  | step a =>
    refine ⟨hcoef, List.length_set.trans hhist, ?_, hkernel⟩
    exact (nextCursor_toNat h0 hn u.wpos).trans_lt (Nat.mod_lt _ h0)

theorem BqRegs.Next.legal {i : Instr} {u u' : BqRegs} (h : u.Next i u') (hu : u.Legal) :
    u'.Legal := by
  cases h with
  | write _ v _ _ hreg => exact of_not_inited (BqRegs.inited_write v hreg)
  | init _ _ hinit => exact BqRegs.legal_constructed hinit
  | step => exact hu

theorem HilRegs.Next.legal {rom : List Word} {u u' : HilRegs} (h : u.Next rom u') (hu : u.Legal) :
    u'.Legal := by
  cases h with
  | init => exact ⟨List.length_replicate, (by decide : (0 : Word).toNat < 95)⟩
  | step a =>
    refine ⟨List.length_set.trans hu.1, ?_⟩
    exact (nextCursor_toNat (by omega) (by omega) u.wpos).trans_lt (Nat.mod_lt _ (by omega))

theorem FmRegs.Next.legal {i : Instr} {nOsc : Nat} {u u' : FmRegs} (h : u.Next i nOsc u')
    (hu : u.Legal nOsc) : u'.Legal nOsc := by
  cases h with
  | write _ v _ _ hreg => exact of_not_inited (FmRegs.inited_write v hreg)
  | init _ _ hinit => exact FmRegs.legal_constructed hinit
  | step => exact hu

theorem DsbRegs.Next.legal {i : Instr} {nOsc : Nat} {u u' : DsbRegs} (h : u.Next i nOsc u') :
    u'.Legal nOsc := by
  cases h with
  | write _ v _ _ hreg => exact of_not_inited (DsbRegs.inited_write v hreg)
  | init hok => exact fun _ => hok

theorem MuxRegs.Next.legal {i : Instr} {nOsc nHil nDly : Nat} {u u' : MuxRegs}
    (h : u.Next i nOsc nHil nDly u') : u'.Legal nOsc nHil nDly := by
  cases h with
  | write _ v _ _ hreg => exact of_not_inited (MuxRegs.inited_write v hreg)
  | init hok => exact fun _ => hok

/-- A measurement writes ACC and COUNT (R228). -/
theorem BsRegs.measure_eq (u : BsRegs) (a : Word) :
    ∃ acc count, (u.measure a).1 = { u with acc := acc, count := count } := by
  unfold BsRegs.measure
  dsimp only
  split <;> exact ⟨_, _, rfl⟩

/-- It keeps the configuration of the meter. -/
theorem BsRegs.measure_config (u : BsRegs) (a : Word) :
    (u.measure a).1.configOk = u.configOk ∧ (u.measure a).1.srate = u.srate := by
  obtain ⟨acc, count, heq⟩ := BsRegs.measure_eq u a
  rw [heq]
  exact ⟨rfl, rfl⟩

theorem BsRegs.Next.legal {i : Instr} {u u' : BsRegs} (h : u.Next i u') (hu : u.Legal) :
    u'.Legal := by
  cases h with
  | write _ v _ _ hreg => exact of_not_inited (BsRegs.inited_write v hreg)
  | init _ _ hinit => exact BsRegs.legal_constructed hinit
  | measure _ a _ hi => exact fun _ => (BsRegs.measure_config u a).1.trans (hu hi)

theorem AgcRegs.Next.legal {i : Instr} {u u' : AgcRegs} (h : u.Next i u') (hu : u.Legal) :
    u'.Legal := by
  cases h with
  | write _ v _ _ hreg => exact of_not_inited (AgcRegs.inited_write v hreg)
  | init _ _ hinit => exact AgcRegs.legal_constructed hinit
  | process => exact hu

theorem AddRegs.Next.legal {i : Instr} {nOsc : Nat} {u u' : AddRegs} (h : u.Next i nOsc u')
    (hu : u.Legal nOsc) : u'.Legal nOsc := by
  cases h with
  | write _ v _ _ hreg => exact of_not_inited (AddRegs.inited_write v hreg)
  | init _ _ hinit => exact AddRegs.legal_constructed hinit
  | sum => exact hu

theorem TiltRegs.Next.legal {i : Instr} {u u' : TiltRegs} (h : u.Next i u') (hu : u.Legal) :
    u'.Legal := by
  cases h with
  | write _ v _ _ hreg => exact of_not_inited (TiltRegs.inited_write v hreg)
  | init _ _ hinit => exact TiltRegs.legal_constructed hinit
  | step => exact hu

theorem DlyRegs.Next.legal {cap : Nat} {u u' : DlyRegs} (h : u.Next cap u') (h0 : 0 < cap)
    (hcap : cap ≤ 1024) (hu : u.Legal cap) : u'.Legal cap := by
  obtain ⟨hbuf, hwpos, hrpos, hdelay⟩ := hu
  have hofNat : ∀ {n : Nat}, n < cap → (BitVec.ofNat 32 n).toNat < cap := fun hn => by
    rwa [BitVec.toNat_ofNat, Nat.mod_eq_of_lt (by omega)]
  have hnext : ∀ w : Word, (nextCursor w cap).toNat < cap := fun w => hofNat (Nat.mod_lt _ h0)
  cases h with
  | init => exact ⟨List.length_replicate, h0, h0, h0⟩
  | delay a => exact ⟨hbuf, hwpos, hofNat (back_lt h0 _ _), hofNat (clampDelay_lt h0 a)⟩
  | step a => exact ⟨List.length_set.trans hbuf, hnext _, hnext _, hdelay⟩

/-! The state. -/

theorem Frame.length_eq {s s' : State} (h : Frame s s') :
    s'.osc.length = s.osc.length ∧ s'.hil.length = s.hil.length ∧ s'.dly.length = s.dly.length :=
  ⟨h.count .osc, h.count .hil, h.count .dly⟩

/-- Completing over an update keeps the invariant. -/
theorem State.Inv.update {i : Instr} {s s' : State} (h : s.Inv) (hu : Update i s s') : s'.Inv := by
  obtain ⟨hosc, hhil, hdly⟩ := hu.frame.length_eq
  have htaps := h.par.taps_range
  have hcap := h.par.cap_range
  exact
    { par := hu.frame.par ▸ h.par
      osc_count := hosc ▸ h.osc_count
      counts := fun u => hu.frame.count u ▸ h.counts u
      fault := hu.frame.fault ▸ h.fault
      osc := hu.osc.forall_mem h.osc fun _ _ hn => hn.legal
      pre := hu.pre.forall_mem h.pre fun _ _ hn => hn.legal
      flp := by
        rw [hu.frame.par]
        exact hu.flp.forall_mem h.flp fun _ _ hn => hn.legal (by omega) (by omega) fun _ => rfl
      fhp := by
        rw [hu.frame.par]
        exact hu.fhp.forall_mem h.fhp fun _ _ hn =>
          hn.legal (by omega) (by omega) (length_invertKernel _)
      bq := hu.bq.forall_mem h.bq fun _ _ hn => hn.legal
      hil := hu.hil.forall_mem h.hil fun _ _ hn => hn.legal
      fm := by
        rw [hosc]
        exact hu.fm.forall_mem h.fm fun _ _ hn => hn.legal
      dsb := by
        rw [hosc]
        exact hu.dsb.forall_mem h.dsb fun _ _ hn _ => hn.legal
      mux := by
        rw [hosc, hhil, hdly]
        exact hu.mux.forall_mem h.mux fun _ _ hn _ => hn.legal
      bs := hu.bs.forall_mem h.bs fun _ _ hn => hn.legal
      agc := hu.agc.forall_mem h.agc fun _ _ hn => hn.legal
      add := by
        rw [hosc]
        exact hu.add.forall_mem h.add fun _ _ hn => hn.legal
      tilt := hu.tilt.forall_mem h.tilt fun _ _ hn => hn.legal
      dly := by
        rw [hu.frame.par]
        exact hu.dly.forall_mem h.dly fun _ _ hn => hn.legal (by omega) (by omega) }

theorem forall_mem_replicate {α : Type} {P : α → Prop} {u : α} (n : Nat) (h : P u) :
    ∀ v ∈ List.replicate n u, P v :=
  fun _ hv => List.eq_of_mem_replicate hv ▸ h

theorem State.count_resetRegs (s : State) (u : UnitId) : s.resetRegs.count u = s.count u := by
  cases u <;> simp [State.count]

/-- Reset registers meet the invariant, whatever they were before. -/
theorem State.inv_resetRegs {s : State} (hpar : s.par.Legal) (hosc : 1 ≤ s.osc.length)
    (hcount : ∀ u, s.count u ≤ 16) : s.resetRegs.Inv where
  par := hpar
  osc_count := by rwa [State.resetRegs_osc, List.length_replicate]
  counts u := by rw [State.count_resetRegs]; exact hcount u
  fault := BitVec.zero_and
  osc := forall_mem_replicate _ (of_not_inited rfl)
  pre := forall_mem_replicate _ (of_not_inited rfl)
  flp := forall_mem_replicate _ ⟨List.length_replicate, List.length_replicate,
    Nat.zero_lt_of_lt hpar.taps_range.1, of_not_inited rfl⟩
  fhp := forall_mem_replicate _ ⟨List.length_replicate, List.length_replicate,
    Nat.zero_lt_of_lt hpar.taps_range.1, of_not_inited rfl⟩
  bq := forall_mem_replicate _ (of_not_inited rfl)
  hil := forall_mem_replicate _ ⟨List.length_replicate, by decide⟩
  fm := forall_mem_replicate _ (of_not_inited rfl)
  dsb := forall_mem_replicate _ (of_not_inited rfl)
  mux := forall_mem_replicate _ (of_not_inited rfl)
  bs := forall_mem_replicate _ (of_not_inited rfl)
  agc := forall_mem_replicate _ (of_not_inited rfl)
  add := forall_mem_replicate _ (of_not_inited rfl)
  tilt := forall_mem_replicate _ (of_not_inited rfl)
  dly := by
    have h0 : 0 < s.par.dlyCap := Nat.zero_lt_of_lt hpar.cap_range.1
    exact forall_mem_replicate _ ⟨List.length_replicate, h0, h0, h0⟩

/-- The bits an error sets are among bits 5:1 of FAULT (R43). -/
theorem faultAfter_and_mask (fault : Word) (e : ErrorCode) :
    faultAfter fault e &&& 0xFFFFFFC1#32 = fault &&& 0xFFFFFFC1#32 := by
  have hbit : faultBit e &&& 0xFFFFFFC1#32 = 0#32 := by cases e <;> decide
  rw [faultAfter, BitVec.and_or_distrib_right, hbit, BitVec.or_zero]

theorem State.Inv.raised {s : State} (h : s.Inv) (e : ErrorCode) : (s.raised e).Inv :=
  { h with fault := (faultAfter_and_mask s.fault e).trans h.fault }

/-- A command keeps the invariant, the parameters and the counts. -/
theorem exec_keeps_inv {i : Instr} {s t : State} (hs : s.Inv) (h : exec i s = .next t) :
    t.Inv ∧ t.par = s.par ∧ ∀ u, t.count u = s.count u := by
  obtain ⟨-, rfl⟩ | ⟨e, -, rfl⟩ | ⟨s', r0, r1, hu, rfl⟩ := exec_completes h
  · exact ⟨{ State.inv_resetRegs hs.par hs.osc_count hs.counts with }, rfl, s.count_resetRegs⟩
  · exact ⟨hs.raised e, rfl, fun u => by cases u <;> rfl⟩
  · exact ⟨{ hs.update hu with }, hu.frame.par, hu.frame.count⟩

/-- Settles O24: a step is idle, resets, raises an error or runs a command. -/
theorem stepKeepsInv : Obligations.StepKeepsInv := by
  intro s t hs h
  obtain ⟨-, rfl⟩ | ⟨rest, -, rfl⟩ | ⟨p, rest, -, h⟩ := step_next h
  · exact ⟨hs, rfl, fun _ => rfl⟩
  · exact ⟨{ State.inv_resetRegs hs.par hs.osc_count hs.counts with }, rfl, s.count_resetRegs⟩
  have hrest : (s.withInput rest).Inv := { hs with }
  obtain ⟨_, -, rfl⟩ | ⟨i, -, h⟩ := h
  · exact ⟨hrest.raised _, rfl, fun u => by cases u <;> rfl⟩
  · obtain ⟨hinv, hpar, hcount⟩ := exec_keeps_inv hrest h
    exact ⟨hinv, hpar, fun u => (hcount u).trans (by cases u <;> rfl)⟩

end Sys2Proof.Machine

/-! The invariants of one unit's registers: ACC of a meter (R57), RMSBUF, LEVEL and GAIN of an AGC
(R59, R248, R249), the owned phase of a modulator (R144). Each is shown of what may stand in place
of an instance, and then holds after every command and every step. -/

namespace Sys2Proof.Machine

/-! From instances to commands and steps. -/

section Units

variable {s t : State}

/-- A property of BS instances that reset and every successor have is kept by a command. -/
theorem exec_forall_bs {P : BsRegs → Prop} {i : Instr} (h : exec i s = .next t)
    (hs : ∀ u ∈ s.bs, P u) (hreset : P BsRegs.reset)
    (hnext : ∀ u u' : BsRegs, u.Next i u' → P u → P u') : ∀ u ∈ t.bs, P u := by
  obtain ⟨-, rfl⟩ | ⟨_, -, rfl⟩ | ⟨s', _, _, hu, rfl⟩ := exec_completes h
  · exact forall_mem_replicate _ hreset
  · exact hs
  · exact hu.bs.forall_mem hs hnext

/-- And by a step. -/
theorem step_forall_bs {P : BsRegs → Prop} (h : step s = .next t) (hs : ∀ u ∈ s.bs, P u)
    (hreset : P BsRegs.reset)
    (hnext : ∀ p rest i, s.input = .command p :: rest → decode p = .ok i →
      ∀ u u' : BsRegs, u.Next i u' → P u → P u') : ∀ u ∈ t.bs, P u := by
  obtain ⟨-, rfl⟩ | ⟨_, -, rfl⟩ | ⟨p, rest, hin, ⟨_, -, rfl⟩ | ⟨i, hi, hex⟩⟩ := step_next h
  · exact hs
  · exact forall_mem_replicate _ hreset
  · exact hs
  · exact exec_forall_bs hex hs hreset (hnext p rest i hin hi)

/-- A property of AGC instances that reset and every successor have is kept by a command. -/
theorem exec_forall_agc {P : AgcRegs → Prop} {i : Instr} (h : exec i s = .next t)
    (hs : ∀ u ∈ s.agc, P u) (hreset : P AgcRegs.reset)
    (hnext : ∀ u u' : AgcRegs, u.Next i u' → P u → P u') : ∀ u ∈ t.agc, P u := by
  obtain ⟨-, rfl⟩ | ⟨_, -, rfl⟩ | ⟨s', _, _, hu, rfl⟩ := exec_completes h
  · exact forall_mem_replicate _ hreset
  · exact hs
  · exact hu.agc.forall_mem hs hnext

/-- And by a step. -/
theorem step_forall_agc {P : AgcRegs → Prop} (h : step s = .next t) (hs : ∀ u ∈ s.agc, P u)
    (hreset : P AgcRegs.reset)
    (hnext : ∀ p rest i, s.input = .command p :: rest → decode p = .ok i →
      ∀ u u' : AgcRegs, u.Next i u' → P u → P u') : ∀ u ∈ t.agc, P u := by
  obtain ⟨-, rfl⟩ | ⟨_, -, rfl⟩ | ⟨p, rest, hin, ⟨_, -, rfl⟩ | ⟨i, hi, hex⟩⟩ := step_next h
  · exact hs
  · exact forall_mem_replicate _ hreset
  · exact hs
  · exact exec_forall_agc hex hs hreset (hnext p rest i hin hi)

end Units

/-! ACC of a BS412 meter. -/

/-- A write of a CFG register leaves ACC. -/
theorem BsRegs.acc_write (u : BsRegs) (idx : Nat) (v : Word) : (u.write idx v).acc = u.acc := by
  unfold BsRegs.write
  split <;> rfl

/-- BS.INIT clears ACC, and keeps the configuration it accepts. -/
theorem BsRegs.constructed_acc {u u' : BsRegs} (h : u.constructed = some u') :
    u'.acc = zero ∧ isFinite u'.srate = true ∧ fgt u'.srate zero = true := by
  unfold BsRegs.constructed at h
  split at h
  · rename_i hok
    simp only [BsRegs.configOk, Bool.and_eq_true] at hok
    cases h
    tauto
  · cases h

/-- A meter with ACC at least 0 and, if constructed, a finite positive sample rate. -/
def BsRegs.Accumulates (u : BsRegs) : Prop :=
  fge u.acc zero = true ∧ (u.inited = true → isFinite u.srate = true ∧ fgt u.srate zero = true)

theorem BsRegs.Next.accumulates {i : Instr} {u u' : BsRegs} (h : u.Next i u')
    (hfinite : ∀ inst a, i = .bsMeas inst a → isFinite a = true) (hu : u.Accumulates) :
    u'.Accumulates := by
  cases h with
  | write idx v _ _ hreg =>
    refine ⟨?_, of_not_inited (BsRegs.inited_write v hreg)⟩
    rw [BsRegs.acc_write]
    exact hu.1
  | init _ _ hinit =>
    obtain ⟨hacc, hrate⟩ := BsRegs.constructed_acc hinit
    exact ⟨by rw [hacc]; decide, fun _ => hrate⟩
  | measure inst a hi hinited =>
    obtain ⟨hf, h0⟩ := hu.2 hinited
    obtain ⟨-, hrate⟩ := BsRegs.measure_config u a
    refine ⟨nonneg_measure hf h0 (hfinite inst a hi) hu.1, fun _ => ?_⟩
    rw [hrate]
    exact ⟨hf, h0⟩

theorem BsRegs.Next.nonNegOrNaN_acc {i : Instr} {u u' : BsRegs} (h : u.Next i u')
    (hu : nonNegOrNaN u.acc = true) : nonNegOrNaN u'.acc = true := by
  cases h with
  | write idx v => rwa [BsRegs.acc_write]
  | init _ _ hinit =>
    rw [(BsRegs.constructed_acc hinit).1]
    decide
  | measure _ a => exact nonNegOrNaN_measure a hu

/-- Settles O55: both clauses hold of whatever may stand in place of a meter. -/
theorem bsAccumulator : Obligations.BsAccumulator := by
  intro s t h
  refine ⟨fun hfinite hs => ?_, fun hs => ?_⟩
  · refine step_forall_bs h hs ⟨by decide, of_not_inited rfl⟩ fun p rest i hin hi u u' hn hu => ?_
    refine BsRegs.Next.accumulates hn (fun inst a ha => ?_) hu
    exact hfinite p rest inst a hin (ha ▸ hi)
  · exact step_forall_bs h hs (by decide) fun _ _ _ _ _ _ _ hn hu => hn.nonNegOrNaN_acc hu

/-! The AGC for every operand. -/

/-- Smoothing two values that are not negative, with a coefficient in [0, 1] (R247, R248). -/
theorem nonNegOrNaN_onePole {c old x : Word} (hc : coefOk c = true) (hold : nonNegOrNaN old = true)
    (hx : nonNegOrNaN x = true) : nonNegOrNaN (onePole c old x) = true := by
  have hcw := within_of_coefOk hc
  have hc0 : nonNegOrNaN c = true := nonNegOrNaN_iff.mpr (.inr hcw.nonneg)
  have hc1 : nonNegOrNaN (fsub one c) = true :=
    nonNegOrNaN_iff.mpr (.inr (within_one_sub hcw).1.nonneg)
  exact nonNegOrNaN_fadd (nonNegOrNaN_fmul hc0 hold) (nonNegOrNaN_fmul hc1 hx)

/-- A sample of R247, whatever the operand. -/
theorem bounded_process {u : AgcRegs} (a : Word) (h : u.Bounded) (hi : u.inited = true) :
    (u.process a).Bounded := by
  intro _
  obtain ⟨hmm, ha, hr, hm, -, hbuf, hlevel⟩ := h hi
  have hbuf' := nonNegOrNaN_onePole hm hbuf (nonNegOrNaN_fmul_self a)
  exact ⟨hmm, ha, hr, hm, inRangeOrNaN_clamp hmm, hbuf',
    nonNegOrNaN_onePole (coefOk_ite ha hr) hlevel (nonNegOrNaN_fsqrt hbuf')⟩

/-- The bounds of R248 without a NaN are those of R249. -/
theorem AgcRegs.Settled.bounded {u : AgcRegs} (h : u.Settled) : u.Bounded := by
  intro hi
  obtain ⟨⟨-, -, -, -, -, hmm⟩, ⟨ha, hr, hm⟩, ⟨hlo, hhi⟩, ⟨hbuf, -⟩, hlevel, -⟩ := h hi
  simp [hmm, ha, hr, hm, inRangeOrNaN, hlo, hhi, nonNegOrNaN, hbuf, hlevel]

theorem AgcRegs.Next.bounded {i : Instr} {u u' : AgcRegs} (h : u.Next i u') (hu : u.Bounded) :
    u'.Bounded := by
  cases h with
  | write _ v _ _ hreg => exact of_not_inited (AgcRegs.inited_write v hreg)
  | init _ _ hinit => exact (settled_constructed hinit).bounded
  | process _ a _ hi => exact bounded_process a hu hi

/-- Settles O57: the bounds hold of whatever may stand in place of an AGC. -/
theorem agcGainInRange : Obligations.AgcGainInRange := fun _ _ hs h =>
  step_forall_agc h hs (of_not_inited rfl) fun _ _ _ _ _ _ _ hn => hn.bounded

/-! The AGC under `AgcRange`. -/

theorem AgcRegs.Next.settled {i : Instr} {u u' : AgcRegs} (h : u.Next i u')
    (hrange : ∀ inst a, i = .agcProc inst a → AgcRange a = true) (hu : u.Settled) : u'.Settled := by
  cases h with
  | write _ v _ _ hreg => exact of_not_inited (AgcRegs.inited_write v hreg)
  | init _ _ hinit => exact settled_constructed hinit
  | process inst a ha hi => exact settled_process hu hi (hrange inst a ha)

/-- Within the bounds of R248 the three registers are finite. -/
theorem AgcRegs.Settled.isFinite {u : AgcRegs} (h : u.Settled) (hi : u.inited = true) :
    isFinite u.rmsbuf = true ∧ isFinite u.level = true ∧ isFinite u.gain = true := by
  obtain ⟨⟨-, hmin, hmax, -⟩, -, hgain, hbuf, hlevel⟩ := h hi
  exact ⟨isFinite_of_fle (lo := zero) (by decide) (by decide) hbuf,
    isFinite_of_fle (lo := zero) (by decide) (by decide) hlevel, isFinite_of_fle hmin hmax hgain⟩

/-- Settles O58: a step keeps `Settled`, whose bounds are finite. -/
theorem agcFinite : Obligations.AgcFinite := by
  intro s t hrange hs h u hu
  have hsettled : u.Settled := by
    refine step_forall_agc h hs (of_not_inited rfl) (fun p rest i hin hi v v' hn hv => ?_) u hu
    exact hn.settled (fun inst a ha => hrange p rest inst a hin (ha ▸ hi)) hv
  exact ⟨hsettled, hsettled.isFinite⟩

/-! The owned phase of a modulator. -/

/-- In owned mode the phase of a constructed FM is in [0, `TWO_PI`) or a NaN (R144). -/
def FmRegs.PhaseOk (u : FmRegs) : Prop :=
  u.inited = true → u.shared = 0 → inPhaseRange u.phase = true ∨ isNaN u.phase = true

theorem FmRegs.Next.phaseOk {i : Instr} {nOsc : Nat} {u u' : FmRegs} (h : u.Next i nOsc u') :
    u'.PhaseOk := by
  cases h with
  | write _ v _ _ hreg => exact of_not_inited (FmRegs.inited_write v hreg)
  | init _ _ hinit =>
    unfold FmRegs.constructed at hinit
    split at hinit <;> cases hinit
    exact fun _ _ => .inl (by decide : inPhaseRange zero = true)
  | step a =>
    intro _ _
    cases hp : isFinite (fadd u.phase (oscIncrement (u.frequency a) u.srate)) with
    | false => exact .inr (isNaN_wrap2pi hp)
    | true => exact .inl (wrap2pi_inPhaseRange hp).1

/-- Settles O37: a command leaves a modulator as it was or replaces it by one in range. -/
theorem fmPhaseInRange : Obligations.FmPhaseInRange := by
  intro i s t hs h
  obtain ⟨-, rfl⟩ | ⟨_, -, rfl⟩ | ⟨s', _, _, hu, rfl⟩ := exec_completes h
  · exact forall_mem_replicate _ (of_not_inited rfl)
  · exact hs
  · exact hu.fm.forall_mem hs fun _ _ hn _ => hn.phaseOk

end Sys2Proof.Machine

/-! What a command leaves unchanged (R44, R61, R320), read off `exec_completes`: an instance that
the command may not touch keeps every register, and what may stand in place of one that it touches
keeps the registers of the classes that only WR and INIT change. -/

namespace Sys2Proof.Machine

/-! How a command ends, seen through the register map. -/

theorem State.reg_raised (s : State) (e : ErrorCode) {u : UnitId} (hu : u ≠ .sys) (inst idx : Nat) :
    (s.raised e).reg u inst idx = s.reg u inst idx := by
  cases u
  case sys => exact absurd rfl hu
  all_goals rfl

theorem State.reg_completed (s : State) (r0 r1 : Word) {u : UnitId} (hu : u ≠ .sys)
    (inst idx : Nat) : (s.completed r0 r1).reg u inst idx = s.reg u inst idx := by
  cases u
  case sys => exact absurd rfl hu
  all_goals rfl

/-! Ownership (R61). -/

theorem Steps.getElem?_of_not_touched {α : Type} {touched : Nat → Prop} {R : α → α → Prop}
    {l l' : List α} (h : Steps touched R l l') {n : Nat} (hn : ¬touched n) : l'[n]? = l[n]? :=
  (h n).resolve_right fun ht => hn ht.1

/-- An update keeps every register of an instance that the command may not touch. -/
theorem Update.reg_of_not_mem {i : Instr} {s s' : State} (h : Update i s s') {u : UnitId}
    {inst : Nat} (hu : u ≠ .sys) (hn : (u, inst) ∉ touches i s) (idx : Nat) :
    s'.reg u inst idx = s.reg u inst idx := by
  cases u
  case sys => exact absurd rfl hu
  all_goals rw [State.reg, State.reg]
  case osc => rw [h.osc.getElem?_of_not_touched hn]
  case pre => rw [h.pre.getElem?_of_not_touched hn]
  case flp => rw [h.flp.getElem?_of_not_touched hn]
  case fhp => rw [h.fhp.getElem?_of_not_touched hn]
  case bq => rw [h.bq.getElem?_of_not_touched hn]
  case hil => rw [h.hil.getElem?_of_not_touched hn, h.frame.par]
  case fm => rw [h.fm.getElem?_of_not_touched hn]
  case dsb => rw [h.dsb.getElem?_of_not_touched hn]
  case mux => rw [h.mux.getElem?_of_not_touched hn]
  case bs => rw [h.bs.getElem?_of_not_touched hn]
  case agc => rw [h.agc.getElem?_of_not_touched hn]
  case add => rw [h.add.getElem?_of_not_touched hn]
  case tilt => rw [h.tilt.getElem?_of_not_touched hn]
  case dly => rw [h.dly.getElem?_of_not_touched hn]

/-- Settles O19: an error changes no register outside SYS, a completion those it may touch. -/
theorem ownership : Obligations.Ownership := by
  intro i s t u inst idx h hrst hu hn
  obtain ⟨hi, -⟩ | ⟨e, -, rfl⟩ | ⟨s', r0, r1, hupd, rfl⟩ := exec_completes h
  · exact absurd hi (hrst 0)
  · exact State.reg_raised s e hu inst idx
  · rw [State.reg_completed s' r0 r1 hu, hupd.reg_of_not_mem hu hn]

/-! The phase of an oscillator (R320). -/

theorem OscRegs.Next.phase_eq {i : Instr} {o o' : OscRegs} (h : o.Next i o')
    (hi : writesPhase i = false) : o'.phase = o.phase := by
  cases h with
  | init _ _ hw => exact absurd (hw.symm.trans hi) (by decide)
  | tune => rfl
  | advance hw => exact absurd (hw.symm.trans hi) (by decide)

/-- Settles O20: of the three successors of an oscillator only one has its phase unless the command
writes phases. -/
theorem phaseWriters : Obligations.PhaseWriters := by
  intro i s t inst h hi
  obtain ⟨rfl, -⟩ | ⟨e, -, rfl⟩ | ⟨s', r0, r1, hupd, rfl⟩ := exec_completes h
  · exact absurd hi (by decide)
  · rfl
  · rw [State.reg_osc_phase, State.reg_osc_phase, State.completed_osc]
    obtain heq | ⟨-, o, o', ho, ho', hnext⟩ := hupd.osc inst
    · rw [heq]
    · rw [ho, ho', Option.map_some, Option.map_some, hnext.phase_eq hi]

/-! The access classes (R44). -/

/-- What the register read `r` of an instance promises of the read `r'` after the command `i`: a ROM
register stays, a CFG register but for a WR, a DRV register but for an INIT. -/
def KeepsClass (i : Instr) (r r' : Option (RegClass × Word)) : Prop :=
  ∀ c v, (c = .rom ∨ (c = .cfg ∧ i.sort ≠ .write) ∨ (c = .drv ∧ i.sort ≠ .init)) →
    r = some (c, v) → r' = some (c, v)

@[simp] theorem KeepsClass.refl (i : Instr) (r : Option (RegClass × Word)) : KeepsClass i r r :=
  fun _ _ _ h => h

@[simp] theorem keepsClass_none (i : Instr) (r : Option (RegClass × Word)) : KeepsClass i none r :=
  fun _ _ _ h => by cases h

/-! A register of class ST or RO is promised nothing. -/

@[simp] theorem keepsClass_st (i : Instr) (v : Word) (r : Option (RegClass × Word)) :
    KeepsClass i (some (.st, v)) r := by
  intro c' v' hc' heq
  cases heq
  simp at hc'

@[simp] theorem keepsClass_ro (i : Instr) (v : Word) (r : Option (RegClass × Word)) :
    KeepsClass i (some (.ro, v)) r := by
  intro c' v' hc' heq
  cases heq
  simp at hc'

/-- A DRV register is promised nothing of an INIT. -/
theorem keepsClass_of_init {i : Instr} (h : i.sort = .init) (v : Word)
    (r : Option (RegClass × Word)) : KeepsClass i (some (.drv, v)) r := by
  intro c' v' hc' heq
  cases heq
  simp [h] at hc'

/-- A write of a CFG register keeps the others of its instance, but INITED. -/
theorem keepsClass_write {i : Instr} {reg reg' : Nat → Option (RegClass × Word)} {idx : Nat}
    {a w b : Word} (hi : i.sort = .write) (hcfg : reg idx = some (.cfg, w))
    (hinited : reg 0x0FF = some (.ro, b))
    (h : reg' idx = some (.cfg, a) ∧ reg' 0x0FF = some (.ro, 0) ∧
      ∀ j, j ≠ idx → j ≠ 0x0FF → reg' j = reg j) (j : Nat) : KeepsClass i (reg j) (reg' j) := by
  obtain ⟨-, -, hother⟩ := h
  by_cases hj : j = idx
  · subst hj
    intro c v hc heq
    rw [hcfg] at heq
    cases heq
    simp [hi] at hc
  · by_cases hff : j = 0x0FF
    · subst hff
      rw [hinited]
      exact keepsClass_ro i _ _
    · rw [hother j hj hff]
      exact KeepsClass.refl i _

theorem keepsClass_or {i : Instr} {r₁ r₂ r : Option (RegClass × Word)} (h₁ : KeepsClass i r₁ r)
    (h₂ : KeepsClass i r₂ r) : KeepsClass i (r₁.or r₂) r := by
  intro c v hc heq
  obtain heq | ⟨-, heq⟩ := Option.or_eq_some_iff.mp heq
  · exact h₁ c v hc heq
  · exact h₂ c v hc heq

theorem keepsClass_self_or (i : Instr) (r r' : Option (RegClass × Word)) :
    KeepsClass i r (r.or r') := by
  intro c v _ heq
  rw [heq, Option.some_or]

theorem keepsClass_arrayReg_st {i : Instr} (base : Nat) (l : List Word) (idx : Nat)
    (r : Option (RegClass × Word)) : KeepsClass i (arrayReg .st base l idx) r := by
  intro c v hc heq
  obtain ⟨rfl, -⟩ := arrayReg_eq_some heq
  simp at hc

theorem keepsClass_arrayReg_init {i : Instr} (h : i.sort = .init) (base : Nat) (l : List Word)
    (idx : Nat) (r : Option (RegClass × Word)) : KeepsClass i (arrayReg .drv base l idx) r := by
  intro c v hc heq
  obtain ⟨rfl, -⟩ := arrayReg_eq_some heq
  simp [h] at hc

/-! Each unit keeps its classes. -/

section Classes

variable {i : Instr}

theorem OscRegs.Next.keepsClass {u u' : OscRegs} (_ : u.Next i u') (idx : Nat) :
    KeepsClass i (u.reg idx) (u'.reg idx) := by
  conv => arg 2; unfold OscRegs.reg
  split <;> simp

theorem PreRegs.Next.keepsClass {u u' : PreRegs} (h : u.Next i u') (idx : Nat) :
    KeepsClass i (u.reg idx) (u'.reg idx) := by
  cases h with
  | write _ v _ hi hreg => exact keepsClass_write hi hreg rfl (PreRegs.reg_write v hreg) idx
  | init _ hi hinit =>
    unfold PreRegs.constructed at hinit
    dsimp only at hinit
    split at hinit <;> cases hinit
    unfold PreRegs.reg
    split <;> simp [keepsClass_of_init hi]
  | step =>
    unfold PreRegs.reg
    split <;> simp

theorem FirRegs.Next.keepsClass {n : Nat} {shape : List Word → List Word} {u u' : FirRegs}
    (h : u.Next i n shape u') (idx : Nat) : KeepsClass i (u.reg idx) (u'.reg idx) := by
  cases h with
  | write _ v _ hi hreg => exact keepsClass_write hi hreg rfl (FirRegs.reg_write v hreg) idx
  | init k hi =>
    unfold FirRegs.reg
    split
    case h_5 =>
      exact keepsClass_or (keepsClass_arrayReg_init hi _ _ _ _) (keepsClass_arrayReg_st _ _ _ _)
    all_goals simp [FirRegs.withKernel]
  | step =>
    unfold FirRegs.reg
    split
    case h_5 => exact keepsClass_or (keepsClass_self_or i _ _) (keepsClass_arrayReg_st _ _ _ _)
    all_goals simp [FirRegs.step]

theorem BqRegs.Next.keepsClass {u u' : BqRegs} (h : u.Next i u') (idx : Nat) :
    KeepsClass i (u.reg idx) (u'.reg idx) := by
  cases h with
  | write _ v _ hi hreg => exact keepsClass_write hi hreg rfl (BqRegs.reg_write v hreg) idx
  | init _ hi hinit =>
    unfold BqRegs.constructed at hinit
    split at hinit <;> cases hinit
    unfold BqRegs.reg
    split <;> simp
  | step =>
    unfold BqRegs.reg
    split <;> simp

/-- The ROM is a parameter, the same for every instance and before and after (R52). -/
theorem HilRegs.keepsClass (u u' : HilRegs) (rom : List Word) (idx : Nat) :
    KeepsClass i (u.reg rom idx) (u'.reg rom idx) := by
  unfold HilRegs.reg
  split
  case h_3 => exact keepsClass_or (keepsClass_self_or i _ _) (keepsClass_arrayReg_st _ _ _ _)
  all_goals simp

theorem FmRegs.Next.keepsClass {nOsc : Nat} {u u' : FmRegs} (h : u.Next i nOsc u') (idx : Nat) :
    KeepsClass i (u.reg idx) (u'.reg idx) := by
  cases h with
  | write _ v _ hi hreg => exact keepsClass_write hi hreg rfl (FmRegs.reg_write v hreg) idx
  | init _ hi hinit =>
    unfold FmRegs.constructed at hinit
    split at hinit <;> cases hinit
    unfold FmRegs.reg
    split <;> simp
  | step =>
    unfold FmRegs.reg
    split <;> simp

theorem DsbRegs.Next.keepsClass {nOsc : Nat} {u u' : DsbRegs} (h : u.Next i nOsc u') (idx : Nat) :
    KeepsClass i (u.reg idx) (u'.reg idx) := by
  cases h with
  | write _ v _ hi hreg => exact keepsClass_write hi hreg rfl (DsbRegs.reg_write v hreg) idx
  | init =>
    unfold DsbRegs.reg
    split <;> simp

theorem MuxRegs.Next.keepsClass {nOsc nHil nDly : Nat} {u u' : MuxRegs}
    (h : u.Next i nOsc nHil nDly u') (idx : Nat) : KeepsClass i (u.reg idx) (u'.reg idx) := by
  cases h with
  | write _ v _ hi hreg => exact keepsClass_write hi hreg rfl (MuxRegs.reg_write v hreg) idx
  | init =>
    unfold MuxRegs.reg
    split <;> simp

theorem BsRegs.Next.keepsClass {u u' : BsRegs} (h : u.Next i u') (idx : Nat) :
    KeepsClass i (u.reg idx) (u'.reg idx) := by
  cases h with
  | write _ v _ hi hreg => exact keepsClass_write hi hreg rfl (BsRegs.reg_write v hreg) idx
  | init _ hi hinit =>
    unfold BsRegs.constructed at hinit
    split at hinit <;> cases hinit
    unfold BsRegs.reg
    split <;> simp
  | measure _ a =>
    obtain ⟨acc, count, heq⟩ := BsRegs.measure_eq u a
    rw [heq]
    unfold BsRegs.reg
    split <;> simp

theorem AgcRegs.Next.keepsClass {u u' : AgcRegs} (h : u.Next i u') (idx : Nat) :
    KeepsClass i (u.reg idx) (u'.reg idx) := by
  cases h with
  | write _ v _ hi hreg => exact keepsClass_write hi hreg rfl (AgcRegs.reg_write v hreg) idx
  | init _ hi hinit =>
    unfold AgcRegs.constructed at hinit
    split at hinit <;> cases hinit
    unfold AgcRegs.reg
    split <;> simp [keepsClass_of_init hi]
  | process =>
    unfold AgcRegs.reg
    split <;> simp [AgcRegs.process]

theorem AddRegs.Next.keepsClass {nOsc : Nat} {u u' : AddRegs} (h : u.Next i nOsc u') (idx : Nat) :
    KeepsClass i (u.reg idx) (u'.reg idx) := by
  cases h with
  | write _ v _ hi hreg => exact keepsClass_write hi hreg rfl (AddRegs.reg_write v hreg) idx
  | init _ hi hinit =>
    unfold AddRegs.constructed at hinit
    split at hinit <;> cases hinit
    unfold AddRegs.reg
    split <;> simp
  | sum =>
    unfold AddRegs.reg
    split <;> simp

theorem TiltRegs.Next.keepsClass {u u' : TiltRegs} (h : u.Next i u') (idx : Nat) :
    KeepsClass i (u.reg idx) (u'.reg idx) := by
  cases h with
  | write _ v _ hi hreg => exact keepsClass_write hi hreg rfl (TiltRegs.reg_write v hreg) idx
  | init _ hi hinit =>
    unfold TiltRegs.constructed at hinit
    split at hinit <;> cases hinit
    unfold TiltRegs.reg
    split <;> simp [keepsClass_of_init hi]
  | step =>
    unfold TiltRegs.reg
    split <;> simp

/-- No register of DLY is promised anything: all are of class ST or RO (R60). -/
theorem DlyRegs.keepsClass (u u' : DlyRegs) (idx : Nat) :
    KeepsClass i (u.reg idx) (u'.reg idx) := by
  conv => arg 2; unfold DlyRegs.reg
  split
  case h_5 => exact keepsClass_arrayReg_st _ _ _ _
  all_goals simp

end Classes

/-! The whole machine keeps its classes. -/

/-- What each successor keeps of one register, at the place of its instance. -/
theorem Steps.keepsClass {α : Type} {i : Instr} {touched : Nat → Prop} {R : α → α → Prop}
    {l l' : List α} {reg : α → Option (RegClass × Word)} (h : Steps touched R l l')
    (hR : ∀ u u', R u u' → KeepsClass i (reg u) (reg u')) (n : Nat) :
    KeepsClass i (l[n]?.bind reg) (l'[n]?.bind reg) := by
  obtain heq | ⟨-, u, u', hu, hu', hnext⟩ := h n
  · rw [heq]
    exact KeepsClass.refl i _
  · rw [hu, hu']
    exact hR u u' hnext

theorem sysReg_keepsClass (i : Instr) (fault cmdcnt : Word) (idx : Nat)
    (r : Option (RegClass × Word)) : KeepsClass i (sysReg fault cmdcnt idx) r := by
  unfold sysReg
  split <;> simp

theorem Update.keepsClass {i : Instr} {s s' : State} (h : Update i s s') (u : UnitId)
    (inst idx : Nat) : KeepsClass i (s.reg u inst idx) (s'.reg u inst idx) := by
  cases u
  case sys =>
    rw [State.reg]
    split
    · exact sysReg_keepsClass _ _ _ _ _
    · simp
  case osc => exact h.osc.keepsClass (fun _ _ hn => hn.keepsClass idx) inst
  case pre => exact h.pre.keepsClass (fun _ _ hn => hn.keepsClass idx) inst
  case flp => exact h.flp.keepsClass (fun _ _ hn => hn.keepsClass idx) inst
  case fhp => exact h.fhp.keepsClass (fun _ _ hn => hn.keepsClass idx) inst
  case bq => exact h.bq.keepsClass (fun _ _ hn => hn.keepsClass idx) inst
  case hil =>
    have hil := h.hil.keepsClass (i := i) (fun u u' _ => HilRegs.keepsClass u u' s.par.hilCoef idx) inst
    rw [State.reg, State.reg, h.frame.par]
    exact hil
  case fm => exact h.fm.keepsClass (fun _ _ hn => hn.keepsClass idx) inst
  case dsb => exact h.dsb.keepsClass (fun _ _ hn => hn.keepsClass idx) inst
  case mux => exact h.mux.keepsClass (fun _ _ hn => hn.keepsClass idx) inst
  case bs => exact h.bs.keepsClass (fun _ _ hn => hn.keepsClass idx) inst
  case agc => exact h.agc.keepsClass (fun _ _ hn => hn.keepsClass idx) inst
  case add => exact h.add.keepsClass (fun _ _ hn => hn.keepsClass idx) inst
  case tilt => exact h.tilt.keepsClass (fun _ _ hn => hn.keepsClass idx) inst
  case dly => exact h.dly.keepsClass (fun u u' _ => DlyRegs.keepsClass u u' idx) inst

end Sys2Proof.Machine

/-! The access classes over every command (R44), and the reset (R63, R275, R315): the values it
gives, and that every address keeps its class. -/

namespace Sys2Proof.Machine

/-! ROM registers are in HIL only (R52). -/

theorem arrayReg_ne {cls c : RegClass} (h : c ≠ cls) (base : Nat) (l : List Word) (idx : Nat)
    (v : Word) : arrayReg cls base l idx ≠ some (c, v) :=
  fun hr => h (arrayReg_eq_some hr).1

theorem sysReg_ne_rom (fault cmdcnt : Word) (idx : Nat) (v : Word) :
    sysReg fault cmdcnt idx ≠ some (.rom, v) := by
  unfold sysReg
  split <;> simp

theorem State.eq_hil_of_reg_rom {s : State} {u : UnitId} {inst idx : Nat} {v : Word}
    (h : s.reg u inst idx = some (.rom, v)) : u = .hil := by
  cases u
  case hil => rfl
  case sys => by_cases hinst : inst = 0 <;> simp [State.reg, hinst, sysReg_ne_rom] at h
  all_goals
    exfalso
    obtain ⟨r, -, h⟩ := Option.bind_eq_some_iff.mp h
  case flp | fhp =>
    unfold FirRegs.reg at h
    split at h <;> simp [Option.or_eq_some_iff, arrayReg_ne] at h
  case add =>
    unfold AddRegs.reg at h
    split at h <;> simp [Option.or_eq_some_iff, arrayReg_ne] at h
  case dly =>
    unfold DlyRegs.reg at h
    split at h <;> simp [arrayReg_ne] at h
  all_goals
    simp only [OscRegs.reg, PreRegs.reg, BqRegs.reg, FmRegs.reg, DsbRegs.reg, MuxRegs.reg, BsRegs.reg,
      AgcRegs.reg, TiltRegs.reg] at h
    split at h <;> simp at h

theorem exec_sysRst_zero (s : State) :
    exec (.sysRst 0) s = .next { s.resetRegs with rsp := some ⟨.ok, 0, 0⟩ } := rfl

/-- A reset keeps the ROM: it reads the parameter, whatever the instance holds. -/
theorem State.resetRegs_reg_rom {s : State} {u : UnitId} {inst idx : Nat} {v : Word}
    (h : s.reg u inst idx = some (.rom, v)) : s.resetRegs.reg u inst idx = some (.rom, v) := by
  obtain rfl := State.eq_hil_of_reg_rom h
  obtain ⟨r, hr, hreg⟩ := Option.bind_eq_some_iff.mp h
  have hlt : inst < s.hil.length := (List.getElem?_eq_some_iff.mp hr).1
  have hreset : s.resetRegs.hil[inst]? = some HilRegs.reset := by simp [hlt]
  rw [State.reg, hreset]
  exact HilRegs.keepsClass (i := .sysRst 0) r _ _ idx _ v (.inl rfl) hreg

/-- A command but `SYS.RST` keeps the classes of R44. -/
theorem exec_keepsClass {i : Instr} {s t : State} (h : exec i s = .next t) (hi : i ≠ .sysRst 0)
    (u : UnitId) (inst idx : Nat) : KeepsClass i (s.reg u inst idx) (t.reg u inst idx) := by
  by_cases hu : u = .sys
  · subst hu
    rw [State.reg]
    split
    · exact sysReg_keepsClass _ _ _ _ _
    · simp
  · obtain ⟨hrst, -⟩ | ⟨e, -, rfl⟩ | ⟨s', r0, r1, hupd, rfl⟩ := exec_completes h
    · exact absurd hrst hi
    · rw [State.reg_raised s e hu]
      exact KeepsClass.refl i _
    · rw [State.reg_completed s' r0 r1 hu]
      exact hupd.keepsClass u inst idx

theorem State.reg_sys_ne {c : RegClass} (hc : c ≠ .ro) (s : State) (inst idx : Nat) (v : Word) :
    s.reg .sys inst idx ≠ some (c, v) := by
  rw [State.reg]
  unfold sysReg
  split <;> [split <;> simp [hc.symm]; simp]

/-- Settles O18: an addressed instance keeps the classes, and any other keeps every register. -/
theorem accessClasses : Obligations.AccessClasses := by
  intro i s t u inst idx v h
  refine ⟨fun hrom => ?_, fun hrst => ⟨fun hcfg hn => ?_, fun hdrv hn => ?_⟩⟩
  · by_cases hi : i = .sysRst 0
    · subst hi
      cases (exec_sysRst_zero s).symm.trans h
      exact State.resetRegs_reg_rom hrom
    · exact exec_keepsClass h hi u inst idx _ v (.inl rfl) hrom
  · by_cases hw : i.sort = .write
    · have hu : u ≠ .sys := fun hu => State.reg_sys_ne (by decide) s inst idx v (hu ▸ hcfg)
      rw [ownership i s t u inst idx h hrst hu ?_]
      · exact hcfg
      · rw [touches_of_sort (by simp [hw])]
        simpa [eq_comm] using fun h1 h2 => hn ⟨hw, h1, h2⟩
    · exact exec_keepsClass h (hrst 0) u inst idx _ v (.inr (.inl ⟨rfl, hw⟩)) hcfg
  · by_cases hw : i.sort = .init
    · have hu : u ≠ .sys := fun hu => State.reg_sys_ne (by decide) s inst idx v (hu ▸ hdrv)
      rw [ownership i s t u inst idx h hrst hu ?_]
      · exact hdrv
      · rw [touches_of_sort (by simp [hw])]
        simpa [eq_comm] using fun h1 h2 => hn ⟨hw, h1, h2⟩
    · exact exec_keepsClass h (hrst 0) u inst idx _ v (.inr (.inr ⟨rfl, hw⟩)) hdrv

/-! The reset of one instance: which values it gives (R63). -/

theorem arrayReg_replicate_zero {cls c : RegClass} {base n idx : Nat} {v : Word}
    (h : arrayReg cls base (List.replicate n 0) idx = some (c, v)) : c = cls ∧ v = 0 := by
  obtain ⟨hc, -, hv⟩ := arrayReg_eq_some h
  exact ⟨hc, List.eq_of_mem_replicate (List.mem_of_getElem? hv)⟩

section ResetReg

variable {idx : Nat} {c : RegClass} {v : Word}

theorem OscRegs.reg_reset (h : OscRegs.reset.reg idx = some (c, v)) : v = 0 := by
  unfold OscRegs.reg at h
  split at h <;> cases h <;> rfl

theorem PreRegs.reg_reset (h : PreRegs.reset.reg idx = some (c, v)) : v = 0 := by
  unfold PreRegs.reg at h
  split at h <;> cases h <;> rfl

theorem FirRegs.reg_reset {n : Nat} (h : (FirRegs.reset n).reg idx = some (c, v)) : v = 0 := by
  unfold FirRegs.reg at h
  split at h
  case h_5 =>
    obtain h | ⟨-, h⟩ := Option.or_eq_some_iff.mp h
    · exact (arrayReg_replicate_zero h).2
    · exact (arrayReg_replicate_zero h).2
  all_goals cases h; rfl

theorem BqRegs.reg_reset (h : BqRegs.reset.reg idx = some (c, v)) : v = 0 := by
  unfold BqRegs.reg at h
  split at h <;> cases h <;> rfl

theorem HilRegs.reg_reset {rom : List Word} (h : HilRegs.reset.reg rom idx = some (c, v)) :
    v = if c = .rom then elem rom (idx - 0x400) else 0 := by
  unfold HilRegs.reg at h
  split at h
  case h_3 =>
    obtain h | ⟨-, h⟩ := Option.or_eq_some_iff.mp h
    · obtain ⟨rfl, -, hv⟩ := arrayReg_eq_some h
      simp [elem, hv]
    · obtain ⟨rfl, rfl⟩ := arrayReg_replicate_zero h
      rfl
  all_goals cases h; rfl

theorem FmRegs.reg_reset (h : FmRegs.reset.reg idx = some (c, v)) : v = 0 := by
  unfold FmRegs.reg at h
  split at h <;> cases h <;> rfl

theorem DsbRegs.reg_reset (h : DsbRegs.reset.reg idx = some (c, v)) : v = 0 := by
  unfold DsbRegs.reg at h
  split at h <;> cases h <;> rfl

theorem MuxRegs.reg_reset (h : MuxRegs.reset.reg idx = some (c, v)) : v = 0 := by
  unfold MuxRegs.reg at h
  split at h <;> cases h <;> rfl

theorem BsRegs.reg_reset (h : BsRegs.reset.reg idx = some (c, v)) : v = 0 := by
  unfold BsRegs.reg at h
  split at h <;> cases h <;> rfl

theorem AgcRegs.reg_reset (h : AgcRegs.reset.reg idx = some (c, v)) : v = 0 := by
  unfold AgcRegs.reg at h
  split at h <;> cases h <;> rfl

theorem AddRegs.reg_reset (h : AddRegs.reset.reg idx = some (c, v)) : v = 0 := by
  unfold AddRegs.reg at h
  split at h
  case h_4 =>
    obtain h | ⟨-, h⟩ := Option.or_eq_some_iff.mp h
    · exact (arrayReg_replicate_zero (n := 8) h).2
    · exact (arrayReg_replicate_zero (n := 8) h).2
  all_goals cases h; rfl

theorem TiltRegs.reg_reset (h : TiltRegs.reset.reg idx = some (c, v)) : v = 0 := by
  unfold TiltRegs.reg at h
  split at h <;> cases h <;> rfl

theorem DlyRegs.reg_reset {cap : Nat} (h : (DlyRegs.reset cap).reg idx = some (c, v)) : v = 0 := by
  unfold DlyRegs.reg at h
  split at h
  case h_5 => exact (arrayReg_replicate_zero h).2
  all_goals cases h; rfl

end ResetReg

theorem of_replicate_bind {α β : Type} {n m : Nat} {u : α} {f : α → Option β} {b : β}
    (h : (List.replicate n u)[m]?.bind f = some b) : f u = some b := by
  obtain ⟨v, hv, hb⟩ := Option.bind_eq_some_iff.mp h
  rwa [List.eq_of_mem_replicate (List.mem_of_getElem? hv)] at hb

/-- Every register holds its reset value after a reset. -/
theorem State.atReset_resetRegs (s : State) : s.resetRegs.AtReset := by
  intro u inst idx c v h
  have hne : u ≠ .hil → c ≠ .rom := fun hu hc => hu (State.eq_hil_of_reg_rom (hc ▸ h))
  cases u
  case sys =>
    rw [State.reg] at h
    unfold sysReg at h
    split at h
    · split at h <;> cases h <;> rfl
    · cases h
  all_goals replace h := of_replicate_bind h
  case hil => simpa using HilRegs.reg_reset h
  all_goals
    simp only [reduceCtorEq, false_and, if_false, hne (by decide)]
  case osc => exact OscRegs.reg_reset h
  case pre => exact PreRegs.reg_reset h
  case flp | fhp => exact FirRegs.reg_reset h
  case bq => exact BqRegs.reg_reset h
  case fm => exact FmRegs.reg_reset h
  case dsb => exact DsbRegs.reg_reset h
  case mux => exact MuxRegs.reg_reset h
  case bs => exact BsRegs.reg_reset h
  case agc => exact AgcRegs.reg_reset h
  case add => exact AddRegs.reg_reset h
  case tilt => exact TiltRegs.reg_reset h
  case dly => exact DlyRegs.reg_reset h

/-! Classes are a matter of the map: of two instances of a unit with arrays of the same length,
every index is mapped in both or neither, with the same class. -/

theorem arrayReg_class {cls : RegClass} {base idx : Nat} {l l' : List Word}
    (h : l.length = l'.length) :
    (arrayReg cls base l idx).map Prod.fst = (arrayReg cls base l' idx).map Prod.fst := by
  by_cases hidx : base ≤ idx ∧ idx - base < l.length
  · rw [arrayReg_of_lt hidx.1 hidx.2, arrayReg_of_lt hidx.1 (h ▸ hidx.2)]
    rfl
  · rw [arrayReg_of_not_mapped (by omega), arrayReg_of_not_mapped (by omega)]

theorem or_class {r₁ r₁' r₂ r₂' : Option (RegClass × Word)} (h₁ : r₁.map Prod.fst = r₁'.map Prod.fst)
    (h₂ : r₂.map Prod.fst = r₂'.map Prod.fst) :
    (r₁.or r₂).map Prod.fst = (r₁'.or r₂').map Prod.fst := by
  rw [Option.map_or, Option.map_or, h₁, h₂]

section Classes

variable (idx : Nat)

theorem OscRegs.class_eq (u u' : OscRegs) : (u.reg idx).map Prod.fst = (u'.reg idx).map Prod.fst := by
  unfold OscRegs.reg
  split <;> rfl

theorem PreRegs.class_eq (u u' : PreRegs) : (u.reg idx).map Prod.fst = (u'.reg idx).map Prod.fst := by
  unfold PreRegs.reg
  split <;> rfl

theorem FirRegs.class_eq {u u' : FirRegs} (hcoef : u.coef.length = u'.coef.length)
    (hhist : u.hist.length = u'.hist.length) :
    (u.reg idx).map Prod.fst = (u'.reg idx).map Prod.fst := by
  unfold FirRegs.reg
  split
  case h_5 => exact or_class (arrayReg_class hcoef) (arrayReg_class hhist)
  all_goals rfl

theorem BqRegs.class_eq (u u' : BqRegs) : (u.reg idx).map Prod.fst = (u'.reg idx).map Prod.fst := by
  unfold BqRegs.reg
  split <;> rfl

theorem HilRegs.class_eq {u u' : HilRegs} (rom : List Word) (hhist : u.hist.length = u'.hist.length) :
    (u.reg rom idx).map Prod.fst = (u'.reg rom idx).map Prod.fst := by
  unfold HilRegs.reg
  split
  case h_3 => exact or_class rfl (arrayReg_class hhist)
  all_goals rfl

theorem FmRegs.class_eq (u u' : FmRegs) : (u.reg idx).map Prod.fst = (u'.reg idx).map Prod.fst := by
  unfold FmRegs.reg
  split <;> rfl

theorem DsbRegs.class_eq (u u' : DsbRegs) : (u.reg idx).map Prod.fst = (u'.reg idx).map Prod.fst := by
  unfold DsbRegs.reg
  split <;> rfl

theorem MuxRegs.class_eq (u u' : MuxRegs) : (u.reg idx).map Prod.fst = (u'.reg idx).map Prod.fst := by
  unfold MuxRegs.reg
  split <;> rfl

theorem BsRegs.class_eq (u u' : BsRegs) : (u.reg idx).map Prod.fst = (u'.reg idx).map Prod.fst := by
  unfold BsRegs.reg
  split <;> rfl

theorem AgcRegs.class_eq (u u' : AgcRegs) : (u.reg idx).map Prod.fst = (u'.reg idx).map Prod.fst := by
  unfold AgcRegs.reg
  split <;> rfl

theorem AddRegs.class_eq (u u' : AddRegs) : (u.reg idx).map Prod.fst = (u'.reg idx).map Prod.fst := by
  unfold AddRegs.reg
  split
  case h_4 => exact or_class (arrayReg_class (by simp)) (arrayReg_class (by simp))
  all_goals rfl

theorem TiltRegs.class_eq (u u' : TiltRegs) :
    (u.reg idx).map Prod.fst = (u'.reg idx).map Prod.fst := by
  unfold TiltRegs.reg
  split <;> rfl

theorem DlyRegs.class_eq {u u' : DlyRegs} (hbuf : u.buf.length = u'.buf.length) :
    (u.reg idx).map Prod.fst = (u'.reg idx).map Prod.fst := by
  unfold DlyRegs.reg
  split
  case h_5 => exact arrayReg_class hbuf
  all_goals rfl

end Classes

theorem replicate_bind_class {α : Type} {l : List α} {u : α} {f : α → Option (RegClass × Word)}
    (h : ∀ v ∈ l, (f u).map Prod.fst = (f v).map Prod.fst) (n : Nat) :
    ((List.replicate l.length u)[n]?.bind f).map Prod.fst = (l[n]?.bind f).map Prod.fst := by
  rw [List.getElem?_replicate]
  split
  · rename_i hn
    rw [List.getElem?_eq_getElem hn]
    exact h _ (List.getElem_mem hn)
  · rename_i hn
    rw [List.getElem?_eq_none (Nat.le_of_not_lt hn)]

/-- From a good state a reset unmaps no register and maps no other. -/
theorem State.Inv.class_resetRegs {s : State} (h : s.Inv) (u : UnitId) (inst idx : Nat) :
    (s.resetRegs.reg u inst idx).map Prod.fst = (s.reg u inst idx).map Prod.fst := by
  cases u
  case sys =>
    rw [State.reg, State.reg]
    split
    · unfold sysReg
      split <;> rfl
    · rfl
  case osc => exact replicate_bind_class (fun v _ => OscRegs.class_eq idx _ v) inst
  case pre => exact replicate_bind_class (fun v _ => PreRegs.class_eq idx _ v) inst
  case flp =>
    refine replicate_bind_class (fun v hv => ?_) inst
    obtain ⟨hcoef, hhist, -⟩ := h.flp v hv
    exact FirRegs.class_eq idx (by rw [hcoef]; exact List.length_replicate)
      (by rw [hhist]; exact List.length_replicate)
  case fhp =>
    refine replicate_bind_class (fun v hv => ?_) inst
    obtain ⟨hcoef, hhist, -⟩ := h.fhp v hv
    exact FirRegs.class_eq idx (by rw [hcoef]; exact List.length_replicate)
      (by rw [hhist]; exact List.length_replicate)
  case bq => exact replicate_bind_class (fun v _ => BqRegs.class_eq idx _ v) inst
  case hil =>
    refine replicate_bind_class (fun v hv => HilRegs.class_eq idx _ ?_) inst
    rw [(h.hil v hv).1]
    exact List.length_replicate
  case fm => exact replicate_bind_class (fun v _ => FmRegs.class_eq idx _ v) inst
  case dsb => exact replicate_bind_class (fun v _ => DsbRegs.class_eq idx _ v) inst
  case mux => exact replicate_bind_class (fun v _ => MuxRegs.class_eq idx _ v) inst
  case bs => exact replicate_bind_class (fun v _ => BsRegs.class_eq idx _ v) inst
  case agc => exact replicate_bind_class (fun v _ => AgcRegs.class_eq idx _ v) inst
  case add => exact replicate_bind_class (fun v _ => AddRegs.class_eq idx _ v) inst
  case tilt => exact replicate_bind_class (fun v _ => TiltRegs.class_eq idx _ v) inst
  case dly =>
    refine replicate_bind_class (fun v hv => DlyRegs.class_eq idx ?_) inst
    rw [(h.dly v hv).1]
    exact List.length_replicate

theorem decode_sysRst {inst : Nat} (hi : inst < 16) (a b : Word) :
    decode ⟨commandWord 0 0 inst 0 0, a, b⟩ = .ok (.sysRst inst) := by
  have hfields : fieldsOf (commandWord 0 0 inst 0 0) = ⟨0, 0, inst, 0, 0⟩ :=
    fieldsOf_commandWord (by decide) (by decide) hi (by decide) (by decide)
  rw [decode_of_fields hfields]
  exact plainForm_ok.mpr ⟨⟨rfl, rfl⟩, rfl⟩

/-- Settles O21: the three states are `resetRegs` of a state with the same parameters and counts. -/
theorem resetValues : Obligations.ResetValues := by
  refine ⟨State.atReset_resetRegs State.reset, rfl, rfl, decode_sysRst (inst := 0) (by decide),
    fun s => ?_, fun s rest hs => ?_⟩
  · exact ⟨_, rfl, State.atReset_resetRegs s, rfl, rfl, rfl, rfl, rfl, s.count_resetRegs,
      fun h => h.class_resetRegs⟩
  · refine ⟨(s.withInput rest).portReset, by simp [step, hs], State.atReset_resetRegs s, rfl, rfl, rfl,
      rfl, s.count_resetRegs, fun h => h.class_resetRegs⟩

end Sys2Proof.Machine

/-! The register accesses (R80, R82, R277, R278) and the common checks (R42, R43, R294 to R296):
RD, WR, unmapped indices, NOT_INIT, the counters, and the step around a command. -/

namespace Sys2Proof.Machine

/-! RD and WR. -/

/-- An address with a register is of an instance that exists. -/
theorem State.lt_count_of_reg {s : State} {u : UnitId} {inst idx : Nat} {x : RegClass × Word}
    (h : s.reg u inst idx = some x) : inst < s.count u := by
  cases u
  case sys =>
    rw [State.reg] at h
    split at h
    · rename_i hi
      rw [hi]
      exact Nat.one_pos
    · cases h
  all_goals
    obtain ⟨r, hr, -⟩ := Option.bind_eq_some_iff.mp h
    exact (List.getElem?_eq_some_iff.mp hr).1

theorem readCommand_of_reg {s : State} {u : UnitId} {inst idx : Nat} {c : RegClass} {v : Word}
    (h : s.reg u inst idx = some (c, v)) : readCommand u inst idx s = .next (s.completed v 0) := by
  simp [readCommand, regRead, Nat.not_le.mpr (State.lt_count_of_reg h), h, finish]

theorem writeCommand_of_cfg {s : State} {u : UnitId} {inst idx : Nat} {v : Word}
    (h : s.reg u inst idx = some (.cfg, v)) (a : Word) :
    writeCommand u inst idx a s = .next ((s.writeReg u inst idx a).completed 0 0) := by
  simp [writeCommand, regWrite, Nat.not_le.mpr (State.lt_count_of_reg h), h, finish]

/-- The written instance, through its unit's `reg_write`. -/
theorem State.reg_writeReg {s : State} {u : UnitId} {inst idx : Nat} {v : Word} (a : Word)
    (h : s.reg u inst idx = some (.cfg, v)) :
    (s.writeReg u inst idx a).reg u inst idx = some (.cfg, a) ∧
      (s.writeReg u inst idx a).reg u inst 0x0FF = some (.ro, 0) ∧
      ∀ j, j ≠ idx → j ≠ 0x0FF → (s.writeReg u inst idx a).reg u inst j = s.reg u inst j := by
  cases u
  case sys => exact absurd h (State.reg_ne_cfg (by simp) s inst idx v)
  case osc => exact absurd h (State.reg_ne_cfg (by simp) s inst idx v)
  case hil => exact absurd h (State.reg_ne_cfg (by simp) s inst idx v)
  case dly => exact absurd h (State.reg_ne_cfg (by simp) s inst idx v)
  all_goals
    obtain ⟨r, hr, hreg⟩ := Option.bind_eq_some_iff.mp h
    simp only [State.reg, State.writeReg, List.getElem?_modify_eq, hr, Option.map_some,
      Option.bind_some, Option.map_eq_map]
  case pre => exact PreRegs.reg_write a hreg
  case flp => exact FirRegs.reg_write a hreg
  case fhp => exact FirRegs.reg_write a hreg
  case bq => exact BqRegs.reg_write a hreg
  case fm => exact FmRegs.reg_write a hreg
  case dsb => exact DsbRegs.reg_write a hreg
  case mux => exact MuxRegs.reg_write a hreg
  case bs => exact BsRegs.reg_write a hreg
  case agc => exact AgcRegs.reg_write a hreg
  case add => exact AddRegs.reg_write a hreg
  case tilt => exact TiltRegs.reg_write a hreg

theorem Instr.wr_fields (u : UnitId) (inst idx : Nat) (a : Word) :
    (Instr.wr u inst idx a).unit = u ∧ (Instr.wr u inst idx a).inst = inst ∧
      (Instr.wr u inst idx a).sort = .write := by
  cases u <;> exact ⟨rfl, rfl, rfl⟩

theorem touches_wr (u : UnitId) (inst idx : Nat) (a : Word) (s : State) :
    touches (.wr u inst idx a) s = [(u, inst)] := by
  obtain ⟨hu, hinst, hsort⟩ := Instr.wr_fields u inst idx a
  rw [touches_of_sort (by simp [hsort]), hu, hinst]

/-- Settles O15: the written instance by `reg_writeReg`, the others because WR touches no other. -/
theorem writeConfig : Obligations.WriteConfig := by
  intro s u inst idx a v h
  have hu : u ≠ .sys := fun hu => State.reg_sys_ne (by decide) s inst idx v (hu ▸ h)
  have hupd := update_writeReg (v := a) h
  obtain ⟨hpar, hfault, hcmdcnt, hinput, -⟩ := hupd.frame
  obtain ⟨hcfg, hinited, hother⟩ := State.reg_writeReg a h
  refine ⟨_, by rw [exec_wr, writeCommand_of_cfg h], ?_⟩
  simp only [State.reg_completed _ 0 0 hu]
  refine ⟨hcfg, hinited, hother, fun u' inst' idx' hu' hne => ?_, hfault, ?_, rfl, hpar, hinput⟩
  · rw [State.reg_completed _ 0 0 hu']
    exact hupd.reg_of_not_mem hu' (by rw [touches_wr]; simpa using hne) idx'
  · rw [State.completed_cmdcnt, hcmdcnt]

/-! Indices that no unit maps (R80). -/

/-- The indices a unit may map: below 0x100, and the two ranges of array registers. -/
def Mappable (idx : Nat) : Prop := idx < 0x100 ∨ (0x400 ≤ idx ∧ idx < 0xC00)

section Mappable

variable {idx : Nat} {x : RegClass × Word}

/-- An array of at most 1024 words from 0x400 or 0x800 stays in the ranges. -/
theorem mappable_of_arrayReg {cls : RegClass} {base : Nat} {l : List Word}
    (h : arrayReg cls base l idx = some x) (hbase : base = 0x400 ∨ base = 0x800)
    (hl : l.length ≤ 1024) : Mappable idx := by
  obtain ⟨-, hle, hget⟩ := arrayReg_eq_some (c := x.1) (v := x.2) h
  have hlt := (List.getElem?_eq_some_iff.mp hget).1
  exact .inr (by omega)

theorem mappable_of_or {r₁ r₂ : Option (RegClass × Word)} (h : r₁.or r₂ = some x)
    (h₁ : r₁ = some x → Mappable idx) (h₂ : r₂ = some x → Mappable idx) : Mappable idx :=
  (Option.or_eq_some_iff.mp h).elim h₁ fun h => h₂ h.2

theorem sysReg_mappable {fault cmdcnt : Word} (h : sysReg fault cmdcnt idx = some x) :
    Mappable idx := by
  unfold sysReg at h
  split at h <;> simp [Mappable] at h ⊢

theorem OscRegs.mappable {u : OscRegs} (h : u.reg idx = some x) : Mappable idx := by
  unfold OscRegs.reg at h
  split at h <;> simp [Mappable] at h ⊢

theorem PreRegs.mappable {u : PreRegs} (h : u.reg idx = some x) : Mappable idx := by
  unfold PreRegs.reg at h
  split at h <;> simp [Mappable] at h ⊢

theorem FirRegs.mappable {u : FirRegs} (h : u.reg idx = some x) (hcoef : u.coef.length ≤ 1024)
    (hhist : u.hist.length ≤ 1024) : Mappable idx := by
  unfold FirRegs.reg at h
  split at h
  case h_5 =>
    exact mappable_of_or h (fun h => mappable_of_arrayReg h (.inl rfl) hcoef)
      (fun h => mappable_of_arrayReg h (.inr rfl) hhist)
  all_goals simp [Mappable]

theorem BqRegs.mappable {u : BqRegs} (h : u.reg idx = some x) : Mappable idx := by
  unfold BqRegs.reg at h
  split at h <;> simp [Mappable] at h ⊢

theorem HilRegs.mappable {u : HilRegs} {rom : List Word} (h : u.reg rom idx = some x)
    (hrom : rom.length ≤ 1024) (hhist : u.hist.length ≤ 1024) : Mappable idx := by
  unfold HilRegs.reg at h
  split at h
  case h_3 =>
    exact mappable_of_or h (fun h => mappable_of_arrayReg h (.inl rfl) hrom)
      (fun h => mappable_of_arrayReg h (.inr rfl) hhist)
  all_goals simp [Mappable]

theorem FmRegs.mappable {u : FmRegs} (h : u.reg idx = some x) : Mappable idx := by
  unfold FmRegs.reg at h
  split at h <;> simp [Mappable] at h ⊢

theorem DsbRegs.mappable {u : DsbRegs} (h : u.reg idx = some x) : Mappable idx := by
  unfold DsbRegs.reg at h
  split at h <;> simp [Mappable] at h ⊢

theorem MuxRegs.mappable {u : MuxRegs} (h : u.reg idx = some x) : Mappable idx := by
  unfold MuxRegs.reg at h
  split at h <;> simp [Mappable] at h ⊢

theorem BsRegs.mappable {u : BsRegs} (h : u.reg idx = some x) : Mappable idx := by
  unfold BsRegs.reg at h
  split at h <;> simp [Mappable] at h ⊢

theorem AgcRegs.mappable {u : AgcRegs} (h : u.reg idx = some x) : Mappable idx := by
  unfold AgcRegs.reg at h
  split at h <;> simp [Mappable] at h ⊢

theorem AddRegs.mappable {u : AddRegs} (h : u.reg idx = some x) : Mappable idx := by
  refine .inl (Nat.lt_of_not_le fun hle => ?_)
  rw [AddRegs.reg_eq] at h
  simp [show idx ≠ 0 by omega, show idx ≠ 0x040 by omega, show idx ≠ 0x0FF by omega,
    show ¬idx < 0x018 by omega, show ¬idx < 0x028 by omega] at h

theorem TiltRegs.mappable {u : TiltRegs} (h : u.reg idx = some x) : Mappable idx := by
  unfold TiltRegs.reg at h
  split at h <;> simp [Mappable] at h ⊢

theorem DlyRegs.mappable {u : DlyRegs} (h : u.reg idx = some x) (hbuf : u.buf.length ≤ 1024) :
    Mappable idx := by
  unfold DlyRegs.reg at h
  split at h
  case h_5 => exact mappable_of_arrayReg h (.inr rfl) hbuf
  all_goals simp [Mappable]

end Mappable

/-- Every register of a good state is at a mappable index. -/
theorem State.Inv.mappable {s : State} (hs : s.Inv) {u : UnitId} {inst idx : Nat}
    {x : RegClass × Word} (h : s.reg u inst idx = some x) : Mappable idx := by
  have htaps := hs.par.taps_range
  have hcap := hs.par.cap_range
  cases u
  case sys =>
    rw [State.reg] at h
    split at h
    · exact sysReg_mappable h
    · cases h
  all_goals
    obtain ⟨r, hr, h⟩ := Option.bind_eq_some_iff.mp h
    replace hr := List.mem_of_getElem? hr
  case osc => exact OscRegs.mappable h
  case pre => exact PreRegs.mappable h
  case flp =>
    obtain ⟨hcoef, hhist, -⟩ := hs.flp r hr
    exact FirRegs.mappable h (by omega) (by omega)
  case fhp =>
    obtain ⟨hcoef, hhist, -⟩ := hs.fhp r hr
    exact FirRegs.mappable h (by omega) (by omega)
  case bq => exact BqRegs.mappable h
  case hil =>
    have hrom := hs.par.rom_length
    obtain ⟨hhist, -⟩ := hs.hil r hr
    exact HilRegs.mappable h (by omega) (by omega)
  case fm => exact FmRegs.mappable h
  case dsb => exact DsbRegs.mappable h
  case mux => exact MuxRegs.mappable h
  case bs => exact BsRegs.mappable h
  case agc => exact AgcRegs.mappable h
  case add => exact AddRegs.mappable h
  case tilt => exact TiltRegs.mappable h
  case dly =>
    obtain ⟨hbuf, -⟩ := hs.dly r hr
    exact DlyRegs.mappable h (by omega)

/-- Settles O17: neither range holds a mappable index. -/
theorem neverMapped : Obligations.NeverMapped := by
  intro s u inst idx hs hidx
  refine Option.eq_none_iff_forall_ne_some.mpr fun x hx => ?_
  have hmap := hs.mappable hx
  unfold Mappable at hmap
  omega

/-! The check that the instance is constructed (R296). -/

/-- Of an instance whose INITED reads 0, INITED is false. -/
theorem exists_not_inited {α : Type} {l : List α} {reg : α → Option (RegClass × Word)}
    {inited : α → Bool} (hreg : ∀ u, reg u = some (.ro, initedWord (inited u))) {n : Nat}
    (h : l[n]?.bind reg = some (.ro, 0)) : ∃ u, l[n]? = some u ∧ inited u = false := by
  obtain ⟨u, hu, h⟩ := Option.bind_eq_some_iff.mp h
  exact ⟨u, hu, eq_false_of_inited_reg ((hreg u).symm.trans h)⟩

theorem operate_of_inited_reg {α : Type} {units : List α} {inited : α → Bool} {inst : Nat}
    {s : State} {k : α → Result} {reg : α → Option (RegClass × Word)}
    (h : units[inst]?.bind reg = some (.ro, 0))
    (hreg : ∀ u, reg u = some (.ro, initedWord (inited u))) :
    operate units inited inst s k = .next (s.raised .notInit) := by
  obtain ⟨u, hu, hi⟩ := exists_not_inited hreg h
  exact operate_of_not_inited hu hi

/-- Settles O13: every operation is one `operate` on its instance. -/
theorem notInit : Obligations.NotInit := by
  intro i s hsort h
  cases i
  case oscSetf | oscSin | oscCos | oscSinh | oscCosh | oscAdv | preStep | flpStep | fhpStep | bqStep
      | hilStep | fmMod | dsbEnc | muxEnc | bsMeas | bsD2dbr | bsDbr2d | bsRatio | agcProc | addClr
      | addIn | addOut | tiltStep | dlySetd | dlyPushpop =>
    exact operate_of_inited_reg h fun _ => rfl
  all_goals cases hsort

/-! From a good state no command stops (R290). -/

theorem withSelected_answers {α : Type} {units : List α} {inited : α → Bool} {sel : Word} {s : State}
    {k : α → Result} (hsel : sel.toNat < units.length) (hk : ∀ u, ∃ t, k u = .next t) :
    ∃ t, withSelected units inited sel s k = .next t := by
  have hu := List.getElem?_eq_getElem hsel
  cases hi : inited units[sel.toNat] with
  | false => exact ⟨_, withSelected_of_not_inited hu hi⟩
  | true =>
    obtain ⟨t, ht⟩ := hk units[sel.toNat]
    exact ⟨t, (withSelected_of_inited hu hi).trans ht⟩

theorem operate_answers {α : Type} {units : List α} {inited : α → Bool} {inst : Nat} {s : State}
    {k : α → Result} (hk : ∀ u ∈ units, inited u = true → ∃ t, k u = .next t) :
    ∃ t, operate units inited inst s k = .next t := by
  cases hu : units[inst]? with
  | none => exact ⟨_, operate_of_none hu⟩
  | some u =>
    cases hi : inited u with
    | false => exact ⟨_, operate_of_not_inited hu hi⟩
    | true =>
      obtain ⟨t, ht⟩ := hk u (List.mem_of_getElem? hu) hi
      exact ⟨t, (operate_of_inited hu hi).trans ht⟩

/-! What the checks of INIT give a select register, MODE and CSEL. -/

theorem FmRegs.configOk_select {u : FmRegs} {nOsc : Nat} (h : u.configOk nOsc = true)
    (hs : u.shared ≠ 0) : u.oscsel.toNat < nOsc := by
  simp only [FmRegs.configOk, if_neg hs, Bool.and_eq_true, decide_eq_true_eq] at h
  exact h.2

theorem DsbRegs.configOk_select {u : DsbRegs} {nOsc : Nat} (h : u.configOk nOsc = true) :
    u.oscsel.toNat < nOsc := by
  simp only [DsbRegs.configOk, Bool.and_eq_true, decide_eq_true_eq] at h
  exact h.1.1

theorem MuxRegs.configOk_select {u : MuxRegs} {nOsc nHil nDly : Nat}
    (h : u.configOk nOsc nHil nDly = true) :
    u.oscsel.toNat < nOsc ∧ u.mode.toNat ≤ 3 ∧
      (u.mode.toNat = 2 → u.hilsel.toNat < nHil ∧ u.dlysel.toNat < nDly) := by
  simp only [MuxRegs.configOk, Bool.and_eq_true, Bool.or_eq_true, decide_eq_true_eq, bne_iff_ne] at h
  obtain ⟨⟨⟨⟨⟨⟨hosc, hmode⟩, -⟩, -⟩, -⟩, -⟩, hssb⟩ := h
  refine ⟨hosc, hmode, fun hm => ?_⟩
  have h2 : u.mode = 2 := BitVec.eq_of_toNat_eq hm
  obtain ⟨⟨-, hhil⟩, hdly⟩ := hssb.resolve_left fun hne => hne h2
  exact ⟨hhil, hdly⟩

theorem AddRegs.configOk_select {u : AddRegs} {nOsc : Nat} (h : u.configOk nOsc = true) (ch : Fin 8) :
    u.oscsel.toNat < nOsc ∧ carSel u.car[ch] ≠ 3 := by
  simp only [AddRegs.configOk, Bool.and_eq_true, decide_eq_true_eq, List.all_eq_true] at h
  obtain ⟨⟨hosc, -⟩, hcar⟩ := h
  have hok := hcar u.car[ch] (by simp)
  simp only [carOk, Bool.and_eq_true, bne_iff_ne] at hok
  exact ⟨hosc, hok.2⟩

theorem carSel_lt (w : Word) : carSel w < 4 := Nat.mod_lt _ (by decide)

/-- A constructed MUX answers: MODE is one of the four, and the registers it selects by exist. -/
theorem execMuxEnc_answers {s : State} (hs : s.Inv) (inst : Nat) (adv : Bool) (a b : Word) :
    ∃ t, execMuxEnc inst adv a b s = .next t := by
  refine operate_answers fun u hu hi => ?_
  obtain ⟨hosc, hmode, hssb⟩ := MuxRegs.configOk_select (hs.mux u hu hi)
  refine withSelected_answers hosc fun o => ?_
  dsimp only
  split
  · exact ⟨_, rfl⟩
  · exact ⟨_, rfl⟩
  · rename_i hm
    obtain ⟨hhil, hdly⟩ := hssb hm
    exact withSelected_answers hhil fun _ => withSelected_answers hdly fun _ => ⟨_, rfl⟩
  · exact ⟨_, rfl⟩
  · grind

/-- A constructed ADD answers: CSEL is not 3. -/
theorem execAddIn_answers {s : State} (hs : s.Inv) (inst : Nat) (ch : Fin 8) (a : Word) :
    ∃ t, execAddIn inst ch a s = .next t := by
  refine operate_answers fun u hu hi => ?_
  obtain ⟨hosc, hcar⟩ := AddRegs.configOk_select (hs.add u hu hi) ch
  have hlt := carSel_lt u.car[ch]
  dsimp only
  split
  · exact ⟨_, rfl⟩
  · exact withSelected_answers hosc fun _ => ⟨_, rfl⟩
  · exact withSelected_answers hosc fun _ => ⟨_, rfl⟩
  · grind

/-- Every command answers a next state from a good state. -/
theorem exec_answers {s : State} (hs : s.Inv) (i : Instr) : ∃ t, exec i s = .next t := by
  cases i
  case sysRst inst =>
    by_cases h : 1 ≤ inst
    · exact ⟨_, exec_sysRst_of_one_le h s⟩
    · exact ⟨_, if_neg h⟩
  case sysNop inst =>
    by_cases h : 1 ≤ inst
    · exact ⟨_, exec_sysNop_of_one_le h s⟩
    · exact ⟨_, if_neg h⟩
  case sysRd | oscRd | preRd | flpRd | fhpRd | bqRd | hilRd | fmRd | dsbRd | muxRd | bsRd | agcRd
      | addRd | tiltRd | dlyRd => exact readCommand_answers _ _ _ s
  case sysWr | oscWr | preWr | flpWr | fhpWr | bqWr | hilWr | fmWr | dsbWr | muxWr | bsWr | agcWr
      | addWr | tiltWr | dlyWr => exact writeCommand_answers _ _ _ _ s
  case oscInit | preInit | flpInit | fhpInit | bqInit | fmInit | dsbInit | muxInit | bsInit | agcInit
      | addInit | tiltInit => exact construct_answers
  case hilInit inst => exact construct_answers (init := fun u : HilRegs => some u.constructed)
  case dlyInit inst => exact construct_answers (init := fun u : DlyRegs => some (u.constructed s.par.dlyCap))
  case fmMod inst a =>
    refine operate_answers fun u hu hi => ?_
    by_cases hsh : u.shared = 0
    · exact ⟨_, if_pos hsh⟩
    · rw [if_neg hsh]
      exact withSelected_answers (FmRegs.configOk_select (hs.fm u hu hi) hsh) fun _ => ⟨_, rfl⟩
  case dsbEnc =>
    exact operate_answers fun u hu hi =>
      withSelected_answers (DsbRegs.configOk_select (hs.dsb u hu hi)) fun _ => ⟨_, rfl⟩
  case muxEnc => exact execMuxEnc_answers hs _ _ _ _
  case addIn => exact execAddIn_answers hs _ _ _
  case oscSetf | oscSin | oscCos | oscSinh | oscCosh | oscAdv | preStep | flpStep | fhpStep | bqStep
      | hilStep | bsMeas | bsD2dbr | bsDbr2d | bsRatio | agcProc | addClr | addOut | tiltStep | dlySetd
      | dlyPushpop =>
    exact operate_answers fun _ _ _ => ⟨_, rfl⟩

/-! The step (R40, R88, R293, R303). -/

theorem step_of_decoded {s : State} {p : Packet} {rest : List HostEvent} {i : Instr}
    (hs : s.input = .command p :: rest) (hi : decode p = .ok i) :
    step s = exec i (s.withInput rest) := by
  simp [step, hs, hi]

theorem step_of_illegal {s : State} {p : Packet} {rest : List HostEvent} {e : Illegal}
    (hs : s.input = .command p :: rest) (he : decode p = .error e) :
    step s = .next ((s.withInput rest).raised .illegalCmd) := by
  simp [step, hs, he, raise]

/-- Settles O25: only a command can stop, and none does from a good state. -/
theorem neverStops : Obligations.NeverStops := by
  intro s hs
  cases hin : s.input with
  | nil => exact ⟨s, by simp [step, hin]⟩
  | cons e rest =>
    cases e with
    | rst => exact ⟨(s.withInput rest).portReset, by simp [step, hin]⟩
    | command p =>
      cases hp : decode p with
      | error e => exact ⟨_, step_of_illegal hin hp⟩
      | ok i =>
        have hrest : (s.withInput rest).Inv := { hs with }
        rw [step_of_decoded hin hp]
        exact exec_answers hrest i

/-- Settles O8: the two steps that take no packet. -/
theorem stepIdle : Obligations.StepIdle :=
  ⟨fun s hs => by simp [step, hs], fun s rest hs =>
    ⟨(s.withInput rest).portReset, by simp [step, hs], rfl, rfl⟩⟩

/-! CMDCNT and FAULT (R42, R43). -/

/-- What a step with a packet presented does to the counters, but for `SYS.RST`: CMDCNT is one
higher, and FAULT has the bit of the response's code. -/
theorem step_counters {s t : State} {p : Packet} {rest : List HostEvent}
    (hs : s.input = .command p :: rest) (h : step s = .next t)
    (hrst : ∀ n, decode p ≠ .ok (.sysRst n)) :
    t.cmdcnt = s.cmdcnt + 1 ∧
      ∃ r, t.rsp = some r ∧ t.fault = if r.err = .ok then s.fault else s.fault ||| 1#32 <<< r.err.code := by
  cases hp : decode p with
  | error e =>
    cases (step_of_illegal hs hp).symm.trans h
    exact ⟨rfl, _, rfl, rfl⟩
  | ok i =>
    rw [step_of_decoded hs hp] at h
    obtain ⟨rfl, -⟩ | ⟨e, he, rfl⟩ | ⟨s', r0, r1, hframe, rfl⟩ := exec_ends h
    · exact absurd hp (hrst 0)
    · refine ⟨rfl, _, State.raised_rsp _ _, ?_⟩
      rw [if_neg he, State.raised_of_error he]
      rfl
    · obtain ⟨-, hfault, hcmdcnt, -, -⟩ := hframe
      refine ⟨?_, _, State.completed_rsp _ _ _, hfault⟩
      rw [State.completed_cmdcnt, hcmdcnt]
      rfl

/-- Settles O10, by the counters of a step; a completed `SYS.RST` counts nothing. -/
theorem countsCommands : Obligations.CountsCommands := by
  intro s t p rest hs h
  refine ⟨fun hrst => (step_counters hs h hrst).1, fun hp => ?_⟩
  rw [step_of_decoded hs hp, exec_sysRst_zero] at h
  cases h
  rfl

/-- Settles O11, by the counters of a step. -/
theorem faultSticky : Obligations.FaultSticky := fun _ _ _ _ hs h hrst =>
  (step_counters hs h hrst).2

end Sys2Proof.Machine

namespace Sys2Proof

open Machine

/-- Settles O14: RD of a mapped address completes with its word. -/
theorem readCommand : Obligations.ReadCommand := by
  intro s u inst idx c v h
  rw [exec_rd, readCommand_of_reg h]
  rfl

end Sys2Proof

/-! The command encoding (R101 to R108). A command's word fixes it but for the operand words its
format reads (`decode_of_reads`); a decoded command has the fields it was read from
(`decode_originates`); and both the decoder and the rows of the opcode table are one map from
(UNIT, FUNC) to a form of R105. -/

namespace Sys2Proof

/-! From the command to its word and back. -/

/-- The packet `p` holds the command word of `i` and the operand words its format reads (R104). -/
structure Reads (p : Packet) (i : Instr) : Prop where
  cmd : p.cmd = (encode i).cmd
  a : 1 ≤ i.operandWords → p.a = (encode i).a
  b : 2 ≤ i.operandWords → p.b = (encode i).b

theorem reads_encode (i : Instr) : Reads (encode i) i := ⟨rfl, fun _ => rfl, fun _ => rfl⟩

/-- A format that reads no operand word. -/
theorem Reads.of_none {p : Packet} {i : Instr} (hn : i.operandWords = 0)
    (hcmd : p.cmd = (encode i).cmd) : Reads p i :=
  ⟨hcmd, fun h => absurd h (by omega), fun h => absurd h (by omega)⟩

/-- A format that reads the first operand word. -/
theorem Reads.of_one {p : Packet} {i : Instr} (hn : i.operandWords = 1)
    (hcmd : p.cmd = (encode i).cmd) (ha : p.a = (encode i).a) : Reads p i :=
  ⟨hcmd, fun _ => ha, fun h => absurd h (by omega)⟩

/-- The fields of a word that was built of fitting ones. -/
theorem fieldsOf_of_eq {w : Word} {u f i x g : Nat} (hw : w = commandWord u f i x g)
    (h : u < 16 ∧ f < 16) (hi : i < 16) (hx : x < 4096) (hg : g < 256) :
    fieldsOf w = ⟨u, f, i, x, g⟩ := by
  rw [hw, fieldsOf_commandWord h.1 h.2 hi hx hg]

/-- Decoding a packet that holds a well-formed command gives it back, whatever its other words
hold. -/
theorem decode_of_reads {p : Packet} {i : Instr} (hwf : i.wf = true) (h : Reads p i) :
    decode p = .ok i := by
  obtain ⟨cmd, a, b⟩ := p
  obtain ⟨hcmd, ha, hb⟩ := h
  dsimp only at hcmd ha hb
  cases i
  case sysRst | sysNop | oscSin | oscCos | oscAdv | preInit | flpInit | fhpInit | bqInit | hilInit
      | fmInit | dsbInit | muxInit | bsInit | agcInit | addInit | addClr | addOut | tiltInit
      | dlyInit =>
    rw [decode_of_fields (fieldsOf_of_eq hcmd (by decide) (of_decide_eq_true hwf) (by decide)
      (by decide))]
    exact plainForm_ok.mpr ⟨⟨rfl, rfl⟩, rfl⟩
  case oscSetf | preStep | flpStep | fhpStep | bqStep | hilStep | fmMod | dsbEnc | bsMeas | bsD2dbr
      | bsDbr2d | bsRatio | agcProc | tiltStep | dlySetd | dlyPushpop =>
    rw [decode_of_fields (fieldsOf_of_eq hcmd (by decide) (of_decide_eq_true hwf) (by decide)
      (by decide)), ha le_rfl]
    exact plainForm_ok.mpr ⟨⟨rfl, rfl⟩, rfl⟩
  case oscInit =>
    rw [decode_of_fields (fieldsOf_of_eq hcmd (by decide) (of_decide_eq_true hwf) (by decide)
      (by decide)), ha one_le_two, hb le_rfl]
    exact plainForm_ok.mpr ⟨⟨rfl, rfl⟩, rfl⟩
  all_goals rw [Instr.wf] at hwf
  case muxEnc _ adv _ _ =>
    rw [decode_of_fields (fieldsOf_of_eq hcmd (by decide) (of_decide_eq_true hwf) (by decide)
      (adv.toNat_lt.trans (by decide)))]
    obtain rfl := ha one_le_two
    obtain rfl := hb le_rfl
    cases adv <;> rfl
  case addIn _ ch _ =>
    rw [decode_of_fields (fieldsOf_of_eq hcmd (by decide) (of_decide_eq_true hwf)
      (ch.isLt.trans (by decide)) (by decide))]
    obtain rfl := ha le_rfl
    exact (channelForm_ok (f := ⟨12, 4, _, ch.val, 0⟩) (i := fun c => .addIn _ c _)).mpr
      ⟨ch.isLt, rfl, rfl⟩
  all_goals
    rw [Bool.and_eq_true, decide_eq_true_eq, decide_eq_true_eq] at hwf
    obtain ⟨hinst, hidx⟩ := hwf
  case oscSinh | oscCosh =>
    rw [decode_of_fields (fieldsOf_of_eq hcmd (by decide) hinst (hidx.trans (by decide))
      (by decide))]
    exact harmonicForm_ok.mpr ⟨⟨hidx, rfl⟩, rfl⟩
  case sysRd | oscRd | preRd | flpRd | fhpRd | bqRd | hilRd | fmRd | dsbRd | muxRd | bsRd | agcRd
      | addRd | tiltRd | dlyRd =>
    rw [decode_of_fields (fieldsOf_of_eq hcmd (by decide) hinst hidx (by decide))]
    exact indexForm_ok.mpr ⟨rfl, rfl⟩
  case sysWr | oscWr | preWr | flpWr | fhpWr | bqWr | hilWr | fmWr | dsbWr | muxWr | bsWr | agcWr
      | addWr | tiltWr | dlyWr =>
    rw [decode_of_fields (fieldsOf_of_eq hcmd (by decide) hinst hidx (by decide))]
    obtain rfl := ha le_rfl
    rfl

/-- Settles O1: the encoding holds every operand word that the format reads. -/
theorem decodeEncode : Obligations.DecodeEncode := fun i hwf => decode_of_reads hwf (reads_encode i)

/-! From the word to the command. -/

/-- The command `i` was read from the fields `f`. -/
structure Origin (f : Fields) (i : Instr) : Prop where
  wf : i.wf = true
  cmd : (encode i).cmd = commandWord f.unit f.func f.inst f.idx f.flags
  unit : f.unit = i.unit.num
  inst : f.inst = i.inst

/-- Every command that `r` may be was read from the fields `f`. -/
def Originates (f : Fields) (r : Except Illegal Instr) : Prop := ∀ i, r = .ok i → Origin f i

theorem originates_error (f : Fields) (e : Illegal) : Originates f (.error e) ↔ True := by
  simp [Originates]

theorem originates_plain {f : Fields} {i : Instr} :
    Originates f (plainForm f i) ↔ (f.idx = 0 → f.flags = 0 → Origin f i) := by
  simp [Originates, plainForm_ok]

theorem originates_index {f : Fields} {i : Nat → Instr} :
    Originates f (indexForm f i) ↔ (f.flags = 0 → Origin f (i f.idx)) := by
  simp [Originates, indexForm_ok]

theorem originates_harmonic {f : Fields} {i : Nat → Instr} :
    Originates f (harmonicForm f i) ↔ (f.idx < 256 → f.flags = 0 → Origin f (i f.idx)) := by
  simp [Originates, harmonicForm_ok]

theorem originates_channel {f : Fields} {i : Fin 8 → Instr} :
    Originates f (channelForm f i) ↔ ∀ h : f.idx < 8, f.flags = 0 → Origin f (i ⟨f.idx, h⟩) := by
  simp only [Originates, channelForm_ok]
  exact ⟨fun h hidx hflags => h _ ⟨hidx, hflags, rfl⟩,
    fun h _ ⟨hidx, hflags, hi⟩ => hi ▸ h hidx hflags⟩

theorem originates_advance {f : Fields} {i : Bool → Instr} :
    Originates f (advanceForm f i) ↔ (f.idx = 0 → f.flags < 2 → Origin f (i (f.flags == 1))) := by
  simp [Originates, advanceForm_ok]

theorem toNat_beq_one {n : Nat} (h : n < 2) : (n == 1).toNat = n := by
  interval_cases n <;> rfl

/-- Splitting a decode along the table of R103, each leaf is one form of R105. -/
theorem decode_originates (p : Packet) : Originates (fieldsOf p.cmd) (decode p) := by
  obtain ⟨-, -, hinst, hidx, -⟩ := fieldsOf_lt p.cmd
  rw [decode_of_fields rfl]
  generalize fieldsOf p.cmd = f at hinst hidx
  split
  case h_16 => rw [originates_error]; trivial
  all_goals
    simp only [decodeSys, decodeOsc, decodePre, decodeFlp, decodeFhp, decodeBq, decodeHil, decodeFm,
      decodeDsb, decodeMux, decodeBs, decodeAgc, decodeAdd, decodeTilt, decodeDly]
    split
  all_goals
    simp only [originates_error, originates_plain, originates_index, originates_harmonic,
      originates_channel, originates_advance]
  all_goals
    intros
    exact ⟨by simp [Instr.wf, *], by simp [encode, toNat_beq_one, *],
      by simp [Instr.unit, UnitId.num, *], rfl⟩

/-- Settles O2. -/
theorem encodeDecode : Obligations.EncodeDecode := fun p i h => by
  obtain ⟨hwf, hcmd, hunit, hinst⟩ := decode_originates p i h
  exact ⟨hwf, hcmd.trans (commandWord_fieldsOf p.cmd), hunit, hinst⟩

/-! The opcode map: each assigned pair of UNIT and FUNC has a form of R105. -/

/-- A form of R105 by its immediates: the low bits of IDX and of FLAGS that need not be 0. -/
structure Form where
  idxBits : Nat
  flagBits : Nat

namespace Form

/-- No immediate (R105 (d)). -/
def plain : Form := ⟨0, 0⟩

/-- A register index (R105 (a)). -/
def index : Form := ⟨12, 0⟩

/-- A harmonic (R105 (b)). -/
def harmonic : Form := ⟨8, 0⟩

/-- A channel (R105 (c)). -/
def channel : Form := ⟨3, 0⟩

/-- The ADV flag (R105 (d)). -/
def advance : Form := ⟨0, 1⟩

/-- The bits that must be 0 are 0. -/
def Accepts (k : Form) (f : Fields) : Prop := f.idx < 2 ^ k.idxBits ∧ f.flags < 2 ^ k.flagBits

/-- The mask of R108: all of UNIT and FUNC, none of INST, and the bits that must be 0. -/
def mask (k : Form) : Word :=
  commandWord 15 15 0 ((2 ^ (12 - k.idxBits) - 1) * 2 ^ k.idxBits)
    ((2 ^ (8 - k.flagBits) - 1) * 2 ^ k.flagBits)

end Form

/-- The forms of the functions of each unit, in the order of R103. -/
def formTable : List (List Form) :=
  let three : List Form := [.plain, .index, .index]
  let four := three ++ [.plain]
  [four, four ++ [.plain, .plain, .harmonic, .harmonic, .plain], four, four, four, four, four, four,
    four, three ++ [.advance], four ++ [.plain, .plain, .plain], four, four ++ [.channel, .plain],
    four, four ++ [.plain]]

/-- The form of an assigned pair of UNIT and FUNC. -/
def formOf (unit func : Nat) : Option Form := (formTable.getD unit [])[func]?

/-- A word decodes when its unit and function are assigned and the bits its form wants 0 are 0. -/
theorem decode_ok_iff (p : Packet) :
    (∃ i, decode p = .ok i) ↔
      ∃ k, formOf (fieldsOf p.cmd).unit (fieldsOf p.cmd).func = some k ∧
        k.Accepts (fieldsOf p.cmd) := by
  obtain ⟨-, -, -, hidx, -⟩ := fieldsOf_lt p.cmd
  rw [decode_of_fields rfl]
  generalize fieldsOf p.cmd = f at hidx
  split
  case h_16 =>
    have hu : formTable.length ≤ f.unit := by
      show 15 ≤ f.unit
      simp only [imp_false] at *
      omega
    simp [formOf, hu]
  all_goals
    rename_i hu
    simp only [decodeSys, decodeOsc, decodePre, decodeFlp, decodeFhp, decodeBq, decodeHil, decodeFm,
      decodeDsb, decodeMux, decodeBs, decodeAgc, decodeAdd, decodeTilt, decodeDly, formOf, hu]
    split
  all_goals
    simp [formTable, Form.Accepts, plainForm_ok, indexForm_ok, harmonicForm_ok, channelForm_ok,
      advanceForm_ok, and_comm (a := f.flags = 0), Form.plain, Form.index, Form.harmonic,
      Form.channel, Form.advance, *]
  all_goals
    intro k hk
    obtain ⟨hlt, -⟩ := List.getElem?_eq_some_iff.mp hk
    simp only [List.length_cons, List.length_nil, imp_false] at *
    omega

/-! The masks of R108. -/

/-- The conjunction of two numbers, each cut at bit `n`. -/
theorem mul_two_pow_add_and {n r s : Nat} (a b : Nat) (hr : r < 2 ^ n) (hs : s < 2 ^ n) :
    (a * 2 ^ n + r) &&& (b * 2 ^ n + s) = (a &&& b) * 2 ^ n + (r &&& s) := by
  have hpos : 0 < 2 ^ n := by positivity
  have hdiv : ∀ {c t : Nat}, t < 2 ^ n → (c * 2 ^ n + t) / 2 ^ n = c := fun ht => by
    rw [Nat.mul_comm, Nat.mul_add_div hpos, Nat.div_eq_of_lt ht, Nat.add_zero]
  have hmod : ∀ {c t : Nat}, t < 2 ^ n → (c * 2 ^ n + t) % 2 ^ n = t := fun ht => by
    rw [Nat.mul_add_mod_self_right, Nat.mod_eq_of_lt ht]
  rw [← Nat.div_add_mod' ((a * 2 ^ n + r) &&& (b * 2 ^ n + s)) (2 ^ n), Nat.and_div_two_pow,
    Nat.and_mod_two_pow, hdiv hr, hdiv hs, hmod hr, hmod hs]

/-- The bits of `x` from `n` up are 0 exactly when `x` is below `2 ^ n`. -/
theorem and_high_eq_zero {n m x : Nat} (hn : n ≤ m) (hx : x < 2 ^ m) :
    x &&& ((2 ^ (m - n) - 1) * 2 ^ n) = 0 ↔ x < 2 ^ n := by
  have hpos : 0 < 2 ^ n := by positivity
  have hq : x / 2 ^ n < 2 ^ (m - n) := by
    rw [Nat.div_lt_iff_lt_mul hpos, ← pow_add, Nat.sub_add_cancel hn]
    exact hx
  have h := mul_two_pow_add_and (x / 2 ^ n) (2 ^ (m - n) - 1) (Nat.mod_lt x hpos) hpos
  rw [Nat.div_add_mod', Nat.add_zero, Nat.and_zero, Nat.add_zero, Nat.and_two_pow_sub_one_eq_mod,
    Nat.mod_eq_of_lt hq] at h
  rw [h, Nat.mul_eq_zero, or_iff_left hpos.ne', Nat.div_eq_zero_iff, or_iff_right hpos.ne']

/-- A conjunction of command words is taken field by field. -/
theorem commandWord_and {u f i x g u' f' i' x' g' : Nat}
    (h : u < 16 ∧ f < 16 ∧ i < 16 ∧ x < 4096 ∧ g < 256)
    (h' : u' < 16 ∧ f' < 16 ∧ i' < 16 ∧ x' < 4096 ∧ g' < 256) :
    commandWord u f i x g &&& commandWord u' f' i' x' g' =
      commandWord (u &&& u') (f &&& f') (i &&& i') (x &&& x') (g &&& g') := by
  obtain ⟨hu, hf, hi, hx, hg⟩ := h
  obtain ⟨hu', hf', hi', hx', hg'⟩ := h'
  apply BitVec.eq_of_toNat_eq
  rw [BitVec.toNat_and, toNat_commandWord hu hf hi hx hg, toNat_commandWord hu' hf' hi' hx' hg',
    toNat_commandWord (Nat.and_lt_two_pow (n := 4) _ hu') (Nat.and_lt_two_pow (n := 4) _ hf')
      (Nat.and_lt_two_pow (n := 4) _ hi') (Nat.and_lt_two_pow (n := 12) _ hx')
      (Nat.and_lt_two_pow (n := 8) _ hg')]
  have hcut : ∀ u f i x g : Nat, u * 2 ^ 28 + f * 2 ^ 24 + i * 2 ^ 20 + x * 2 ^ 8 + g =
      (((u * 2 ^ 4 + f) * 2 ^ 4 + i) * 2 ^ 12 + x) * 2 ^ 8 + g := by omega
  simp only [hcut]
  rw [mul_two_pow_add_and _ _ hg hg', mul_two_pow_add_and _ _ hx hx',
    mul_two_pow_add_and _ _ hi hi', mul_two_pow_add_and _ _ hf hf']

theorem commandWord_inj {u f i x g u' f' i' x' g' : Nat}
    (h : u < 16 ∧ f < 16 ∧ i < 16 ∧ x < 4096 ∧ g < 256)
    (h' : u' < 16 ∧ f' < 16 ∧ i' < 16 ∧ x' < 4096 ∧ g' < 256) :
    commandWord u f i x g = commandWord u' f' i' x' g' ↔
      u = u' ∧ f = f' ∧ i = i' ∧ x = x' ∧ g = g' := by
  obtain ⟨hu, hf, hi, hx, hg⟩ := h
  obtain ⟨hu', hf', hi', hx', hg'⟩ := h'
  refine ⟨fun h => ?_, ?_⟩
  · have hfields := congrArg fieldsOf h
    rw [fieldsOf_commandWord hu hf hi hx hg, fieldsOf_commandWord hu' hf' hi' hx' hg'] at hfields
    simpa using hfields
  · rintro ⟨rfl, rfl, rfl, rfl, rfl⟩
    rfl

/-- The immediates of the form fit their fields. -/
def Form.Fits (k : Form) : Prop := k.idxBits ≤ 12 ∧ k.flagBits ≤ 8

/-- A row of the opcode table selects the words of one pair of UNIT and FUNC that its form
accepts. -/
theorem and_mask_iff {w : Word} {k : Form} {u f : Nat} (hk : k.Fits) (hu : u < 16) (hf : f < 16) :
    w &&& k.mask = commandWord u f 0 0 0 ↔
      (fieldsOf w).unit = u ∧ (fieldsOf w).func = f ∧ k.Accepts (fieldsOf w) := by
  have hlt := fieldsOf_lt w
  obtain ⟨hwu, hwf, hwi, hwx, hwg⟩ := fieldsOf_lt w
  obtain ⟨hidx, hflag⟩ := hk
  have hhigh : ∀ {n m : Nat}, n ≤ m → (2 ^ (m - n) - 1) * 2 ^ n < 2 ^ m := fun {n m} hn => by
    have : 2 ^ (m - n) * 2 ^ n = 2 ^ m := by rw [← pow_add, Nat.sub_add_cancel hn]
    rw [Nat.sub_one_mul, this]
    exact Nat.sub_lt (by positivity) (by positivity)
  have hfull : ∀ {n : Nat}, n < 16 → n &&& 15 = n := fun hn => by
    rw [Nat.and_two_pow_sub_one_eq_mod _ 4, Nat.mod_eq_of_lt hn]
  conv_lhs => rw [← commandWord_fieldsOf w]
  rw [Form.mask, commandWord_and hlt ⟨by decide, by decide, by decide, hhigh hidx, hhigh hflag⟩,
    hfull hwu, hfull hwf, Nat.and_zero, commandWord_inj
      ⟨hwu, hwf, by decide, Nat.and_lt_two_pow (n := 12) _ (hhigh hidx),
        Nat.and_lt_two_pow (n := 8) _ (hhigh hflag)⟩
      ⟨hu, hf, by decide, by decide, by decide⟩,
    and_high_eq_zero hidx hwx, and_high_eq_zero hflag hwg, Form.Accepts]
  simp

/-! The rows of the opcode table are the assigned pairs. -/

theorem row_of_form : ∀ u < 16, ∀ f < 16, ∀ k ∈ formOf u f,
    ∃ r ∈ opcodeRows, r.pattern = commandWord u f 0 0 0 ∧ r.mask = k.mask := by
  decide +kernel

theorem form_of_row : ∀ r ∈ opcodeRows, ∃ u < 16, ∃ f < 16, ∃ k ∈ formOf u f,
    r.pattern = commandWord u f 0 0 0 ∧ r.mask = k.mask := by
  decide +kernel

theorem fits_of_formOf {u f : Nat} {k : Form} (h : formOf u f = some k) : k.Fits := by
  have hall : ∀ ks ∈ formTable, ∀ k ∈ ks, k.idxBits ≤ 12 ∧ k.flagBits ≤ 8 := by decide
  have hmem : k ∈ formTable.getD u [] := List.mem_of_getElem? h
  by_cases hu : u < formTable.length
  · rw [List.getD_eq_getElem _ _ hu] at hmem
    exact hall _ (List.getElem_mem hu) k hmem
  · rw [List.getD_eq_default _ _ (Nat.le_of_not_lt hu)] at hmem
    exact absurd hmem List.not_mem_nil

/-- The words a row selects: those of its pair that its form accepts. -/
theorem selects_iff {r : OpcodeRow} (hr : r ∈ opcodeRows) (w : Word) :
    w &&& r.mask = r.pattern ↔
      r.pattern = commandWord (fieldsOf w).unit (fieldsOf w).func 0 0 0 ∧
        ∃ k, formOf (fieldsOf w).unit (fieldsOf w).func = some k ∧ r.mask = k.mask ∧
          k.Accepts (fieldsOf w) := by
  obtain ⟨u, hu, f, hf, k, hk, hpattern, hmask⟩ := form_of_row r hr
  obtain ⟨hwu, hwf, -, -, -⟩ := fieldsOf_lt w
  have hfits := fits_of_formOf hk
  constructor
  · rw [hpattern, hmask, and_mask_iff hfits hu hf]
    rintro ⟨rfl, rfl, hacc⟩
    exact ⟨rfl, k, hk, rfl, hacc⟩
  · rintro ⟨hpattern', k', hk', hmask', hacc⟩
    rw [hpattern', hmask', and_mask_iff (fits_of_formOf hk') hwu hwf]
    exact ⟨rfl, rfl, hacc⟩

/-- A word decodes exactly when it selects a row. -/
theorem decode_ok_iff_row (p : Packet) :
    (∃ i, decode p = .ok i) ↔ ∃ r ∈ opcodeRows, p.cmd &&& r.mask = r.pattern := by
  rw [decode_ok_iff]
  constructor
  · rintro ⟨k, hk, hacc⟩
    obtain ⟨hu, hf, -, -, -⟩ := fieldsOf_lt p.cmd
    obtain ⟨r, hr, hpattern, hmask⟩ := row_of_form _ hu _ hf k hk
    exact ⟨r, hr, (selects_iff hr _).mpr ⟨hpattern, k, hk, hmask, hacc⟩⟩
  · rintro ⟨r, hr, hsel⟩
    obtain ⟨-, k, hk, -, hacc⟩ := (selects_iff hr _).mp hsel
    exact ⟨k, hk, hacc⟩

theorem nodup_patterns : (opcodeRows.map OpcodeRow.pattern).Nodup := by decide +kernel

/-- Settles O3: the rows a word selects have the pattern of its UNIT and FUNC, and no two rows share
one. -/
theorem decodeMatchesOneRow : Obligations.DecodeMatchesOneRow := fun p => by
  refine ⟨decode_ok_iff_row p, fun r hr r' hr' h h' => ?_⟩
  obtain ⟨hpattern, -⟩ := (selects_iff hr p.cmd).mp h
  obtain ⟨hpattern', -⟩ := (selects_iff hr' p.cmd).mp h'
  exact List.inj_on_of_nodup_map nodup_patterns hr hr' (hpattern.trans hpattern'.symm)

/-- `RD` of every unit is function 1. -/
theorem decode_rd {u : UnitId} {inst idx : Nat} (hinst : inst < 16) (hidx : idx < 4096)
    (a b : Word) :
    decode ⟨commandWord u.num 1 inst idx 0, a, b⟩ = .ok (.rd u inst idx) := by
  have hwf : (Instr.rd u inst idx).wf = (decide (inst < 16) && decide (idx < 4096)) := by
    cases u <;> rfl
  refine decode_of_reads (by simp [hwf, hinst, hidx]) (Reads.of_none ?_ ?_) <;> cases u <;> rfl

/-- `WR` of every unit is function 2. -/
theorem decode_wr {u : UnitId} {inst idx : Nat} (hinst : inst < 16) (hidx : idx < 4096)
    (a b : Word) :
    decode ⟨commandWord u.num 2 inst idx 0, a, b⟩ = .ok (.wr u inst idx a) := by
  have hwf : (Instr.wr u inst idx a).wf = (decide (inst < 16) && decide (idx < 4096)) := by
    cases u <;> rfl
  refine decode_of_reads (by simp [hwf, hinst, hidx]) (Reads.of_one ?_ ?_ ?_) <;> cases u <;> rfl

/-- Settles O4: the rows by the round trip of the command each names; past the last function of a
unit there is no form. -/
theorem opcodeMap : Obligations.OpcodeMap := by
  constructor
  · intro inst hinst a b word
    have hwf : decide (inst < 16) = true := decide_eq_true hinst
    refine ⟨fun u idx hidx => ⟨decode_rd hinst hidx a b, decode_wr hinst hidx a b⟩,
      fun k hk => ?_, fun adv => ?_, fun ch => ?_, ?_⟩
    · have hwf' := Bool.and_eq_true_iff.mpr ⟨hwf, decide_eq_true hk⟩
      exact ⟨decode_of_reads (i := .oscSinh inst k) hwf' (Reads.of_none rfl rfl),
        decode_of_reads (i := .oscCosh inst k) hwf' (Reads.of_none rfl rfl)⟩
    · exact decode_of_reads (i := .muxEnc inst adv a b) hwf ⟨rfl, fun _ => rfl, fun _ => rfl⟩
    · exact decode_of_reads (i := .addIn inst ch a) hwf (Reads.of_one rfl rfl rfl)
    · have hnone : ∀ {u f} i, i.operandWords = 0 → i.wf = true →
          commandWord u f inst 0 0 = (encode i).cmd → word u f 0 0 = .ok i :=
        fun _ hn hi hcmd => decode_of_reads hi (Reads.of_none hn hcmd)
      have hone : ∀ {u f} i, i.operandWords = 1 → i.wf = true →
          commandWord u f inst 0 0 = (encode i).cmd → a = (encode i).a → word u f 0 0 = .ok i :=
        fun _ hn hi hcmd ha => decode_of_reads hi (Reads.of_one hn hcmd ha)
      exact ⟨hnone _ rfl hwf rfl, hnone _ rfl hwf rfl, decode_of_reads (i := .oscInit inst a
        b) hwf ⟨rfl, fun _ => rfl, fun _ => rfl⟩, hone _ rfl hwf rfl rfl, hnone _ rfl hwf
        rfl, hnone _ rfl hwf rfl, hnone _ rfl hwf rfl, hnone _ rfl hwf rfl, hone _ rfl hwf
        rfl rfl, hnone _ rfl hwf rfl, hone _ rfl hwf rfl rfl, hnone _ rfl hwf rfl, hone _
        rfl hwf rfl rfl, hnone _ rfl hwf rfl, hone _ rfl hwf rfl rfl, hnone _ rfl hwf rfl,
        hone _ rfl hwf rfl rfl, hnone _ rfl hwf rfl, hone _ rfl hwf rfl rfl, hnone _ rfl hwf
        rfl, hone _ rfl hwf rfl rfl, hnone _ rfl hwf rfl, hnone _ rfl hwf rfl, hone _ rfl
        hwf rfl rfl, hone _ rfl hwf rfl rfl, hone _ rfl hwf rfl rfl, hone _ rfl hwf rfl rfl,
        hnone _ rfl hwf rfl, hone _ rfl hwf rfl rfl, hnone _ rfl hwf rfl, hnone _ rfl hwf
        rfl, hnone _ rfl hwf rfl, hnone _ rfl hwf rfl, hone _ rfl hwf rfl rfl, hnone _ rfl
        hwf rfl, hone _ rfl hwf rfl rfl, hone _ rfl hwf rfl rfl⟩
  · intro p hle i hi
    have hnone : ∀ u < 16, ∀ f < 16,
        [4, 9, 4, 4, 4, 4, 4, 4, 4, 4, 7, 4, 6, 4, 5, 0].getD u 0 ≤ f → (formOf u f).isNone := by
      decide +kernel
    obtain ⟨hu, hf, -, -, -⟩ := fieldsOf_lt p.cmd
    obtain ⟨k, hk, -⟩ := (decode_ok_iff p).mp ⟨i, hi⟩
    have := hnone _ hu _ hf hle
    rw [hk] at this
    cases this

/-- Settles O5. -/
theorem decodeWords : Obligations.DecodeWords := by
  unfold Obligations.DecodeWords
  decide +kernel

end Sys2Proof

namespace Sys2Proof.Machine

/-- Settles O6. -/
theorem stepRunsDecoded : Obligations.StepRunsDecoded := fun _ p _ i hin hdec =>
  ⟨(decode_originates p i hdec).wf, step_of_decoded hin hdec⟩

/-- Settles O7: a word that selects no row does not decode. -/
theorem stepIllegal : Obligations.StepIllegal := fun s p rest hin hno => by
  cases hdec : decode p with
  | error e => exact step_of_illegal hin hdec
  | ok i =>
    obtain ⟨r, hr, hsel⟩ := (decode_ok_iff_row p).mp ⟨i, hdec⟩
    exact absurd hsel (hno r hr)

end Sys2Proof.Machine

/-! What the operations and the constructions of the units compute: each meaning is one `operate` or
one `construct`, so the common outcomes are those of `operates_of` and `constructs_of`; what is left
is the effect and the checks of each. -/

namespace Sys2Proof.Machine

/-- A meaning that is one `construct` whose checks are one test. -/
theorem constructs_of_check {α : Type} {units : List α} {inst : Nat} {i : Instr} {s : State}
    {ok : α → Prop} {done : α → State} {check : α → Bool} {init : α → α} {put : α → State}
    (h : exec i s =
      construct units inst s (fun u => if check u then some (init u) else none) put)
    (hok : ∀ u, check u = true ↔ ok u) (hdone : ∀ u, (put (init u)).completed 0 0 = done u) :
    Constructs units inst i s ok done :=
  constructs_of h (fun u hno => if_neg fun hc => hno ((hok u).mp hc)) fun u hyes =>
    ⟨_, if_pos ((hok u).mpr hyes), hdone u⟩

/-- Settles O31. -/
theorem oscFrequency : Obligations.OscFrequency := fun _ _ _ _ =>
  ⟨constructs_of_check rfl (fun _ => by simp [oscConfigOk, and_assoc]) fun _ => rfl,
    operates_of rfl fun _ _ _ => rfl⟩

/-- Settles O32. -/
theorem oscAdvance : Obligations.OscAdvance := fun _ _ =>
  ⟨operates_of rfl fun _ _ _ => rfl, operates_of rfl fun _ _ _ => rfl,
    operates_of rfl fun _ _ _ => rfl⟩

/-- Settles O33. -/
theorem oscHarmonic : Obligations.OscHarmonic := fun _ _ _ =>
  ⟨operates_of rfl fun _ _ _ => rfl, operates_of rfl fun _ _ _ => rfl⟩

/-- Settles O38. -/
theorem preEmphasis : Obligations.PreEmphasis := fun _ _ =>
  ⟨constructs_of_check rfl (fun _ => by simp [PreRegs.configOk, preGain, rcAlpha, and_assoc])
      fun _ => rfl,
    fun _ => operates_of rfl fun _ _ _ => rfl⟩

/-- Settles O39. -/
theorem tilt : Obligations.Tilt := fun _ _ =>
  ⟨constructs_of_check rfl (fun _ => by simp [TiltRegs.configOk, and_assoc]) fun _ => rfl,
    fun _ => operates_of rfl fun _ _ _ => rfl⟩

/-- Settles O43. -/
theorem biquad : Obligations.Biquad := fun _ _ =>
  ⟨constructs_of_check rfl (fun _ => by simp [BqRegs.configOk, and_assoc]) fun _ => rfl,
    fun _ => operates_of rfl fun _ _ _ => rfl⟩

/-- Settles O44. -/
theorem hilbert : Obligations.Hilbert := fun _ _ =>
  ⟨constructs_of rfl (fun _ hno => absurd trivial hno) fun _ _ => ⟨_, rfl, rfl⟩,
    fun a => operates_of rfl fun _ _ _ => by
      simp only [HilRegs.step, dot, elem, back, nextCursor, finish, State.putHil, Nat.cast_ofNat]⟩

/-- The bounded operand of R197, as a maximum and a minimum. -/
theorem clampDelay_eq (a : Word) (c : Nat) :
    clampDelay a c = (max 0 (min a.toInt ((c : Int) - 1))).toNat := by
  unfold clampDelay
  split
  · omega
  · split <;> omega

/-- Settles O46. -/
theorem delayLine : Obligations.DelayLine := fun s _ =>
  ⟨constructs_of rfl (fun _ hno => absurd trivial hno) fun _ _ => ⟨_, rfl, rfl⟩, fun a =>
    ⟨operates_of rfl fun _ _ _ => by rw [clampDelay_eq a s.par.dlyCap]; rfl,
      operates_of rfl fun _ _ _ => rfl⟩⟩

theorem BsRegs.devToDbr_eq (u : BsRegs) (x : Word) :
    u.devToDbr x =
      if feq x zero = true ∨ flt x u.eps = true then u.floor
      else fmul ten (Config.flog10 (fmul (fdiv x u.refdev) (fdiv x u.refdev))) := by
  simp only [devToDbr, Bool.or_eq_true]

/-- Settles O53. -/
theorem bsConversions : Obligations.BsConversions := fun _ _ =>
  ⟨constructs_of_check rfl (fun _ => by simp [BsRegs.configOk, and_assoc]) fun _ => rfl, fun a =>
    ⟨operates_of rfl fun u _ _ => by rw [u.devToDbr_eq a]; rfl, operates_of rfl fun _ _ _ => rfl,
      operates_of rfl fun _ _ _ => rfl⟩⟩

/-- Settles O54: the two ends of a measurement, inside a window and at its end. -/
theorem bsMeasure : Obligations.BsMeasure := fun _ _ _ =>
  operates_of rfl fun u _ _ => by
    unfold BsRegs.measure
    dsimp only
    rw [u.devToDbr_eq]
    split <;> simp only [finish, State.putBs, *]

/-- Settles O56. -/
theorem agcGain : Obligations.AgcGain := fun _ _ =>
  ⟨constructs_of_check rfl
      (fun _ => by simp [AgcRegs.configOk, timeOk, coefOk, agcCoef, and_assoc]) fun _ => rfl,
    fun _ => operates_of rfl fun _ _ _ => rfl⟩

/-- Settles O41. -/
theorem firStep : Obligations.FirStep := fun _ _ _ =>
  ⟨operates_of rfl fun _ _ _ => rfl, operates_of rfl fun _ _ _ => rfl⟩

theorem toNat_le_one_iff (w : Word) : w.toNat ≤ 1 ↔ w = 0 ∨ w = 1 := by
  rw [Nat.le_one_iff_eq_zero_or_eq_one, ← BitVec.toNat_inj, ← BitVec.toNat_inj]
  rfl

/-! FM (R140 to R142). -/

theorem FmRegs.configOk_iff (u : FmRegs) (nOsc : Nat) :
    u.configOk nOsc = true ↔
      (u.shared = 0 ∨ u.shared = 1) ∧ isFinite u.center = true ∧ isFinite u.deviation = true ∧
        (u.shared = 0 → isFinite u.srate = true ∧ fgt u.srate zero = true) ∧
        (u.shared = 1 → u.oscsel.toNat < nOsc) := by
  rw [configOk]
  simp only [Bool.and_eq_true, decide_eq_true_eq, toNat_le_one_iff, and_assoc]
  by_cases h0 : u.shared = 0
  · simp [h0]
  · simp only [h0]
    simp
    tauto

/-- Settles O36: the owned mode is the first branch of `FM.MOD`, the shared mode the second. -/
theorem fmModulator : Obligations.FmModulator := fun s inst => by
  refine ⟨constructs_of_check rfl (fun u => u.configOk_iff _) fun _ => rfl, fun a =>
    ⟨fun hn => operate_of_none hn, fun u hu => ⟨fun hi => operate_of_not_inited hu hi,
      fun hi h0 => (operate_of_inited hu hi).trans (if_pos h0), fun hi h0 o ho => ?_⟩⟩⟩
  exact ⟨fun ho' =>
      (operate_of_inited hu hi).trans ((if_neg h0).trans (withSelected_of_not_inited ho ho')),
    fun ho' => (operate_of_inited hu hi).trans ((if_neg h0).trans (withSelected_of_inited ho ho'))⟩

/-! FLP and FHP (R165 to R167). -/

/-- One windowed tap of the kernel before normalisation (R165). -/
def firTap (n : Nat) (u : FirRegs) (i : Nat) : Word :=
  fmul (sincTerm (fdiv u.cutoff u.srate) ((i : Int) - ((n - 1) / 2 : Nat))) (blackman i (n - 1))

/-- The sum of the taps in index order (R15, R165). -/
def firSum (n : Nat) (u : FirRegs) : Word :=
  (List.range n).foldl (fun acc i => fadd acc (firTap n u i)) zero

theorem sumInOrder_firWindowed (n : Nat) (u : FirRegs) :
    sumInOrder (firWindowed n (fdiv u.cutoff u.srate)) = firSum n u :=
  List.foldl_map

theorem firKernel_eq (n : Nat) (u : FirRegs) :
    firKernel n u.cutoff u.srate =
      if firBandOk u.cutoff u.srate && (isFinite (firSum n u) && !feq (firSum n u) zero) then
        some ((List.range n).map fun i => fdiv (firTap n u i) (firSum n u))
      else none := by
  unfold firKernel
  dsimp only
  rw [sumInOrder_firWindowed]
  cases firBandOk u.cutoff u.srate <;> cases isFinite (firSum n u) <;>
    cases feq (firSum n u) zero <;> simp [firWindowed, firTap]

/-- Settles O40. -/
theorem firInit : Obligations.FirInit := fun s inst => by
  intro n c g sum ok low high
  have hsum : ∀ u, sum u = firSum n u := fun _ => rfl
  have hiff : ∀ u, (firBandOk u.cutoff u.srate &&
      (isFinite (firSum n u) && !feq (firSum n u) zero)) = true ↔ ok u := fun u => by
    simp only [ok, hsum]
    simp [firBandOk, and_assoc]
  have hno : ∀ u, ¬ok u → firKernel n u.cutoff u.srate = none := fun u h => by
    rw [firKernel_eq, if_neg fun hc => h ((hiff u).mp hc)]
  have hyes : ∀ u, ok u → firKernel n u.cutoff u.srate = some (low u) := fun u h => by
    rw [firKernel_eq, if_pos ((hiff u).mpr h)]
    rfl
  exact ⟨constructs_of rfl (fun u h => by rw [hno u h]; rfl)
      fun u h => ⟨_, by rw [hyes u h]; rfl, rfl⟩,
    constructs_of rfl (fun u h => by rw [hno u h]; rfl) fun u h => ⟨_, by rw [hyes u h]; rfl, rfl⟩⟩

/-! DSB and MUX (R206 to R213). -/

/-- Settles O48. -/
theorem dsbSc : Obligations.DsbSc := fun s inst => by
  refine ⟨constructs_of_check rfl (fun u => ?_) fun _ => rfl, fun a =>
    ⟨fun hn => operate_of_none hn, fun u hu => ⟨fun hi => operate_of_not_inited hu hi,
      fun hi o ho => ⟨fun ho' =>
        (operate_of_inited hu hi).trans (withSelected_of_not_inited ho ho'), fun ho' => ?_⟩⟩⟩⟩
  · simp [DsbRegs.configOk, toNat_le_one_iff, harmOk, and_assoc, imp_iff_not_or]
  · refine (operate_of_inited hu hi).trans ((withSelected_of_inited ho ho').trans ?_)
    by_cases h0 : u.polar = 0 <;> simp [h0, subcarrierTerm, finish, harmonicArg]

/-- Settles O49. -/
theorem muxInit : Obligations.MuxInit := fun _ _ =>
  constructs_of_check rfl
    (fun _ => by simp [MuxRegs.configOk, harmOk, and_assoc, imp_iff_not_or]) fun _ => rfl

/-! ADD (R260 to R263). -/

/-- Settles O59. -/
theorem adderSum : Obligations.AdderSum := fun _ _ =>
  ⟨constructs_of_check rfl
      (fun _ => by simp [AddRegs.configOk, carOk, carSel, Fin.forall_iff, forall_and, and_assoc])
      fun _ => rfl,
    operates_of rfl fun _ _ _ => rfl, operates_of rfl fun _ _ _ => rfl⟩

/-- A channel with no carrier (CSEL 0). -/
theorem exec_addIn_plain {s : State} {inst : Nat} {c : Fin 8} {a : Word} {u : AddRegs}
    (hu : s.add[inst]? = some u) (hi : u.inited = true) (h : carSel u.car[c] = 0) :
    exec (.addIn inst c a) s = addTerm inst u (fmul a u.vol[c]) s := by
  refine (operate_of_inited hu hi).trans ?_
  dsimp only
  rw [h]
  rfl

/-- A channel on the sine of the carrier (CSEL 1). -/
theorem exec_addIn_sine {s : State} {inst : Nat} {c : Fin 8} {a : Word} {u : AddRegs}
    (hu : s.add[inst]? = some u) (hi : u.inited = true) (h : carSel u.car[c] = 1) :
    exec (.addIn inst c a) s = withSelected s.osc OscRegs.inited u.oscsel s fun o =>
      addTerm inst u (fmul (fmul a u.vol[c])
        (Config.fsin (harmonicArg o.phase (carHarm u.car[c])))) s := by
  refine (operate_of_inited hu hi).trans ?_
  dsimp only
  rw [h]
  rfl

/-- A channel on the cosine of the carrier (CSEL 2). -/
theorem exec_addIn_cosine {s : State} {inst : Nat} {c : Fin 8} {a : Word} {u : AddRegs}
    (hu : s.add[inst]? = some u) (hi : u.inited = true) (h : carSel u.car[c] = 2) :
    exec (.addIn inst c a) s = withSelected s.osc OscRegs.inited u.oscsel s fun o =>
      addTerm inst u (fmul (fmul a u.vol[c])
        (Config.fcos (harmonicArg o.phase (carHarm u.car[c])))) s := by
  refine (operate_of_inited hu hi).trans ?_
  dsimp only
  rw [h]
  rfl

/-- Settles O60: by the carrier the channel selects. -/
theorem adderIn : Obligations.AdderIn := fun _ _ _ _ _ hu hi =>
  ⟨fun h => exec_addIn_plain hu hi h, fun _ ho =>
    ⟨fun h ho' => h.elim
        (fun h => (exec_addIn_sine hu hi h).trans (withSelected_of_not_inited ho ho'))
        (fun h => (exec_addIn_cosine hu hi h).trans (withSelected_of_not_inited ho ho')),
      fun h ho' => (exec_addIn_sine hu hi h).trans (withSelected_of_inited ho ho'),
      fun h ho' => (exec_addIn_cosine hu hi h).trans (withSelected_of_inited ho ho')⟩⟩

/-! MUX.ENC (R210 to R213). -/

section
variable {s : State} {inst : Nat} {adv : Bool} {a b : Word} {u : MuxRegs} {o : OscRegs}

theorem exec_muxEnc_not_inited (hu : s.mux[inst]? = some u) (hi : u.inited = true)
    (ho : s.osc[u.oscsel.toNat]? = some o) (ho' : o.inited = false) :
    exec (.muxEnc inst adv a b) s = .next (s.raised .notInit) :=
  (operate_of_inited hu hi).trans (withSelected_of_not_inited ho ho')

theorem exec_muxEnc_mono (hu : s.mux[inst]? = some u) (hi : u.inited = true)
    (ho : s.osc[u.oscsel.toNat]? = some o) (ho' : o.inited = true) (hm : u.mode = 0) :
    exec (.muxEnc inst adv a b) s = .next ((advanceIf adv u.oscsel o s).completed
      (u.mono (midOf a b)) 0) := by
  refine (operate_of_inited hu hi).trans ((withSelected_of_inited ho ho').trans ?_)
  dsimp only
  rw [hm]
  rfl

theorem exec_muxEnc_dsbSc (hu : s.mux[inst]? = some u) (hi : u.inited = true)
    (ho : s.osc[u.oscsel.toNat]? = some o) (ho' : o.inited = true) (hm : u.mode = 1) :
    exec (.muxEnc inst adv a b) s = .next ((advanceIf adv u.oscsel o s).completed
      (u.dsbSc s.par (midOf a b) (sideOf a b) o.phase) 0) := by
  refine (operate_of_inited hu hi).trans ((withSelected_of_inited ho ho').trans ?_)
  dsimp only
  rw [hm]
  rfl

theorem exec_muxEnc_polar (hu : s.mux[inst]? = some u) (hi : u.inited = true)
    (ho : s.osc[u.oscsel.toNat]? = some o) (ho' : o.inited = true) (hm : u.mode = 3) :
    exec (.muxEnc inst adv a b) s = .next ((advanceIf adv u.oscsel o s).completed
      (u.polarOut s.par (midOf a b) (sideOf a b) o.phase) 0) := by
  refine (operate_of_inited hu hi).trans ((withSelected_of_inited ho ho').trans ?_)
  dsimp only
  rw [hm]
  rfl

/-- In SSB mode the two further units are selected as the oscillator is. -/
theorem exec_muxEnc_ssb (hu : s.mux[inst]? = some u) (hi : u.inited = true)
    (ho : s.osc[u.oscsel.toNat]? = some o) (ho' : o.inited = true) (hm : u.mode = 2) :
    exec (.muxEnc inst adv a b) s =
      withSelected s.hil HilRegs.inited u.hilsel s fun h =>
        withSelected s.dly DlyRegs.inited u.dlysel s fun d =>
          let r := h.step s.par.hilCoef (sideOf a b)
          let m := d.pushPop s.par.dlyCap (midOf a b)
          let t := (s.putHil u.hilsel.toNat r.regs).putDly u.dlysel.toNat m.1
          finish (advanceIf adv u.oscsel o t) (u.ssb s.par r.i r.q m.2 o.phase) 0 := by
  refine (operate_of_inited hu hi).trans ((withSelected_of_inited ho ho').trans ?_)
  dsimp only
  rw [hm]
  rfl

end

/-- Settles O50. -/
theorem muxEnc : Obligations.MuxEnc := fun _ _ _ _ _ _ _ hu hi ho =>
  ⟨fun ho' => exec_muxEnc_not_inited hu hi ho ho', fun ho' =>
    ⟨fun hm => exec_muxEnc_mono hu hi ho ho' hm, fun hm => exec_muxEnc_dsbSc hu hi ho ho' hm,
      fun hm => exec_muxEnc_polar hu hi ho ho' hm⟩⟩

/-- Settles O51: the two steps of the selected units, run in one state and each in its own. -/
theorem muxEncSsb : Obligations.MuxEncSsb := by
  intro s inst adv a b u o h d hu hi hm ho ho' hh hd mid side p q
  have hexec := exec_muxEnc_ssb (adv := adv) (a := a) (b := b) hu hi ho ho' hm
  rw [show sideOf a b = side from rfl, show midOf a b = mid from rfl] at hexec
  refine ⟨fun hno => hexec.trans ?_, fun hi' hd' th rh td rd hth hrh htd hrd => ?_⟩
  · cases hi' : h.inited with
    | false => exact withSelected_of_not_inited hh hi'
    | true =>
      exact (withSelected_of_inited hh hi').trans
        (withSelected_of_not_inited hd (hno.resolve_left (by simp [hi'])))
  · rw [exec_hilStep hh hi'] at hth
    rw [exec_dlyPushpop hd hd'] at htd
    refine hexec.trans ((withSelected_of_inited hh hi').trans
      ((withSelected_of_inited hd hd').trans ?_))
    generalize h.step s.par.hilCoef side = r at hth
    generalize d.pushPop s.par.dlyCap mid = m at htd
    cases hth
    cases htd
    cases hrh
    cases hrd
    cases adv <;> rfl

end Sys2Proof.Machine

/-! The FIR filters convolve (R166 to R169): their history is a ring of the last `N_TAPS` samples,
as the Hilbert transformer's is one of 95, in both units alike. -/

namespace Sys2Proof.Machine

/-- A constructed filter with the coefficients `coef` whose history is the stream `x`. -/
structure FirRegs.Holds (u : FirRegs) (n : Nat) (coef : List Word) (x : Nat → Word) : Prop where
  inited : u.inited = true
  coef_eq : u.coef = coef
  ring : Ring n x u.hist u.wpos.toNat

/-- The sum of COEF[k] * x[n - k] from k = 0 up (R168). -/
def convolution (n : Nat) (coef : List Word) (x : Nat → Word) : Word :=
  (List.range n).foldl (fun acc k => fadd acc (fmul (elem coef k) (x k))) zero

theorem FirRegs.Holds.step {u : FirRegs} {n : Nat} {coef : List Word} {x : Nat → Word}
    (h : u.Holds n coef x) (hn : n ≤ 1023) (a : Word) :
    (u.step n a).1.Holds n coef (latest a x) ∧ (u.step n a).2 = convolution n coef (latest a x) := by
  obtain ⟨hi, rfl, hring⟩ := h
  have hw := hring.cursor_lt
  refine ⟨⟨hi, rfl, ?_⟩, hring.dot_set u.coef a⟩
  have hpush := hring.push a
  rwa [← nextCursor_toNat (by omega) (by omega)] at hpush

/-- The unit `bank` of FIR filters, whose step command is `cmd` (R168, R169). -/
structure FirBank (bank : State → List FirRegs) (cmd : Nat → Word → Instr) : Prop where
  exec_step : ∀ {s : State} {inst : Nat} {a : Word} {u : FirRegs}, (bank s)[inst]? = some u →
    u.inited = true → ∃ t, exec (cmd inst a) s = .next t ∧ t.par = s.par ∧
      bank t = (bank s).set inst (u.step s.par.firTaps a).1 ∧
      t.rsp = some ⟨.ok, (u.step s.par.firTaps a).2, 0⟩

theorem firBank_flp : FirBank State.flp .flpStep :=
  ⟨fun hu hi => ⟨_, operate_of_inited hu hi, rfl, rfl, rfl⟩⟩

theorem firBank_fhp : FirBank State.fhp .fhpStep :=
  ⟨fun hu hi => ⟨_, operate_of_inited hu hi, rfl, rfl, rfl⟩⟩

/-- What the samples `xs` lead to: the history is `xs` after +0, and the last response its
convolution. -/
structure FirRun (bank : State → List FirRegs) (n : Nat) (coef : List Word) (inst : Nat)
    (xs : List Word) (t : State) : Prop where
  taps_eq : t.par.firTaps = n
  holds : ∃ u, (bank t)[inst]? = some u ∧ u.Holds n coef (recent (fun _ => zero) xs)
  response : xs ≠ [] → t.rsp = some ⟨.ok, convolution n coef (recent (fun _ => zero) xs), 0⟩

theorem FirRun.step {bank : State → List FirRegs} {cmd : Nat → Word → Instr} {n inst : Nat}
    {coef xs : List Word} {t : State} (h : FirRun bank n coef inst xs t) (hbank : FirBank bank cmd)
    (hn : n ≤ 1023) (a : Word) :
    ∃ t', exec (cmd inst a) t = .next t' ∧ FirRun bank n coef inst (xs ++ [a]) t' := by
  obtain ⟨rfl, ⟨u, hu, hx⟩, -⟩ := h
  obtain ⟨t', hexec, hpar, hbank', hrsp⟩ := hbank.exec_step (a := a) hu hx.inited
  obtain ⟨hnext, hout⟩ := hx.step hn a
  refine ⟨t', hexec, by rw [hpar], ⟨_, by rw [hbank', getElem?_set_of_some hu], ?_⟩, fun _ => ?_⟩
  · rwa [recent_concat]
  · rw [hrsp, hout, recent_concat]

/-- From the zero history and cursor of an INIT, the response to the last sample is the
convolution. -/
theorem FirBank.convolves {bank : State → List FirRegs} {cmd : Nat → Word → Instr}
    (hbank : FirBank bank cmd) {s : State} {inst : Nat} {u : FirRegs} (h0 : 0 < s.par.firTaps)
    (hn : s.par.firTaps ≤ 1023) (hu : (bank s)[inst]? = some u) (hi : u.inited = true)
    (hhist : u.hist = List.replicate s.par.firTaps zero) (hw : u.wpos = 0) {xs : List Word}
    (hne : xs ≠ []) :
    ∃ t, execAll (xs.map (cmd inst)) s = .next t ∧
      t.rsp = some ⟨.ok, convolution s.par.firTaps u.coef (recent (fun _ => zero) xs), 0⟩ := by
  have hstart : FirRun bank s.par.firTaps u.coef inst [] s := by
    refine ⟨rfl, ⟨u, hu, hi, rfl, ?_⟩, fun h => absurd rfl h⟩
    rw [recent_nil, hhist, hw]
    exact ring_replicate zero h0
  obtain ⟨t, hexec, hrun⟩ := execAll_map_of_step hstart (fun _ a _ h => h.step hbank hn a) xs
  exact ⟨t, hexec, hrun.response hne⟩

/-- Settles O42. -/
theorem firConvolution : Obligations.FirConvolution := fun _ _ _ h0 hn hne =>
  ⟨fun _ hu ⟨hi, hhist, hw⟩ => firBank_flp.convolves h0 hn hu hi hhist hw hne,
    fun _ hu ⟨hi, hhist, hw⟩ => firBank_fhp.convolves h0 hn hu hi hhist hw hne⟩

end Sys2Proof.Machine

/-! The state after reset meets the invariant: the taps of the default ROM are the constraints of
R190. -/

namespace Sys2Proof.Machine

theorem elem_hilCoef {k : Nat} (hk : k < 95) : elem Config.hilCoef k = Config.hilTap k := by
  simp [elem, Config.hilCoef, hk]

/-- An even tap above the centre is a positive finite word. -/
theorem positiveFinite_bounds (w : Word) :
    0 < (Config.positiveFinite w).toNat ∧ (Config.positiveFinite w).toNat < infMag := by
  unfold Config.positiveFinite
  split
  · assumption
  · decide

theorem positiveFinite_value (w : Word) :
    isFinite (Config.positiveFinite w) = true ∧ fgt (Config.positiveFinite w) zero = true := by
  obtain ⟨hpos, hlt⟩ := positiveFinite_bounds w
  have hmag : mag (Config.positiveFinite w) = (Config.positiveFinite w).toNat :=
    Nat.mod_eq_of_lt (hlt.trans (by decide))
  have hneg : isNeg (Config.positiveFinite w) = false :=
    decide_eq_false (Nat.not_le.mpr (hlt.trans (by decide)))
  have hfin : isFinite (Config.positiveFinite w) = true := by rw [isFinite, hmag]; simpa using hlt
  refine ⟨hfin, fgt_iff.mpr ⟨isNaN_eq_false_of_isFinite hfin, isNaN_zero, ?_⟩⟩
  rw [units_zero, units, hneg, hmag]
  simpa using hpos

theorem hilTap_odd {k : Nat} (hk : k % 2 = 1) : mag (Config.hilTap k) = 0 := by
  rw [Config.hilTap, if_pos hk]
  split <;> rfl

theorem hilTap_upper {k : Nat} (hk : k % 2 = 0) (h : 47 < k) :
    Config.hilTap k = Config.positiveFinite (Config.hilMagnitude k) := by
  rw [Config.hilTap, if_neg (by omega), if_pos h]

theorem hilTap_lower {k : Nat} (hk : k % 2 = 0) (h : ¬47 < k) :
    Config.hilTap k = fneg (Config.positiveFinite (Config.hilMagnitude (94 - k))) := by
  rw [Config.hilTap, if_neg (by omega), if_neg h, fneg]

theorem isFinite_hilTap (k : Nat) : isFinite (Config.hilTap k) = true := by
  rcases Nat.mod_two_eq_zero_or_one k with hk | hk
  · by_cases h : 47 < k
    · rw [hilTap_upper hk h]
      exact (positiveFinite_value _).1
    · rw [hilTap_lower hk h, isFinite_fneg]
      exact (positiveFinite_value _).1
  · rw [isFinite, hilTap_odd hk]
    rfl

/-- The taps at equal distances from the centre have opposite values (R190 (a)). -/
theorem units_hilTap_mirror {k : Nat} (hk : k < 95) :
    units (Config.hilTap (94 - k)) = -units (Config.hilTap k) := by
  rcases Nat.mod_two_eq_zero_or_one k with hpar | hpar
  · have hpar' : (94 - k) % 2 = 0 := by omega
    by_cases h : 47 < k
    · rw [hilTap_lower hpar' (by omega), hilTap_upper hpar h, units_fneg,
        show 94 - (94 - k) = k by omega]
    · rw [hilTap_upper hpar' (by omega), hilTap_lower hpar h, units_fneg, neg_neg]
  · rw [units_eq_zero_iff.mpr (hilTap_odd hpar), units_eq_zero_iff.mpr (hilTap_odd (by omega)),
      neg_zero]

theorem legal_default : Params.default.Legal where
  taps_odd := rfl
  taps_range := by decide
  cap_range := by decide
  rom_length := by simp [Params.default, Config.hilCoef]
  rom_antisymmetric k hk := by
    rw [Params.default, elem_hilCoef (by omega), elem_hilCoef hk, feq_iff, isNaN_fneg, units_fneg]
    exact ⟨isNaN_eq_false_of_isFinite (isFinite_hilTap _),
      isNaN_eq_false_of_isFinite (isFinite_hilTap _), units_hilTap_mirror hk⟩
  rom_odd_zero k hk hodd := by
    rw [Params.default, elem_hilCoef hk]
    exact hilTap_odd hodd
  rom_finite k hk := by
    rw [Params.default, elem_hilCoef hk]
    exact isFinite_hilTap k
  rom_positive k hk heven hupper := by
    rw [Params.default, elem_hilCoef hk, hilTap_upper heven hupper]
    exact (positiveFinite_value _).2

/-- Settles O23: the reset state is its own reset. -/
theorem resetInv : Obligations.ResetInv := by
  have hself : State.reset.resetRegs = State.reset := rfl
  rw [Obligations.ResetInv, ← hself]
  exact State.inv_resetRegs legal_default (by decide) fun u => by cases u <;> decide

end Sys2Proof.Machine

/-! The arithmetic primitives (R7, R11): special operands, exact values, and rounding to nearest. -/

namespace Sys2Proof.Machine

/-! NaNs, infinities and zeros. -/

theorem isFinite_of_mag_eq_zero {a : Word} (h : mag a = 0) : isFinite a = true := by
  rw [isFinite, h]
  rfl

theorem isNaN_eq_false_of_isInf {a : Word} (h : isInf a = true) : isNaN a = false := by
  rw [isInf, decide_eq_true_eq] at h
  rw [isNaN, h]
  rfl

theorem mag_ne_zero_of_isInf {a : Word} (h : isInf a = true) : mag a ≠ 0 := by
  rw [isInf, decide_eq_true_eq] at h
  rw [h]
  decide

/-- A NaN operand gives a NaN. -/
theorem isNaN_of_operand {a b : Word} (h : isNaN a = true ∨ isNaN b = true) :
    isNaN (fadd a b) = true ∧ isNaN (fsub a b) = true ∧ isNaN (fmul a b) = true ∧
      isNaN (fdiv a b) = true := by
  rcases h with h | h
  · exact ⟨isNaN_fadd_left h, isNaN_fadd_left h, isNaN_fmul_left h, isNaN_fdiv_left h⟩
  · exact ⟨isNaN_fadd_right h, isNaN_fadd_right (by rwa [isNaN_fneg]), isNaN_fmul_right h,
      isNaN_fdiv_right h⟩

/-- Two infinities. -/
theorem infinite_operands {a b : Word} (ha : isInf a = true) (hb : isInf b = true) :
    isNaN (fdiv a b) = true ∧ (isNeg a = isNeg b → isNaN (fsub a b) = true ∧ fadd a b = a) := by
  have hna := isNaN_eq_false_of_isInf ha
  have hnb := isNaN_eq_false_of_isInf hb
  refine ⟨by simp [fdiv, hna, hnb, ha, hb], fun hs => ?_⟩
  simp [fsub, fadd, hna, hnb, ha, hb, hs]

/-- An infinity and a finite value. -/
theorem infinite_and_finite {a b : Word} (ha : isInf a = true) (hb : isFinite b = true) :
    fadd a b = a ∧ fadd b a = a ∧ fdiv b a = pack (isNeg b != isNeg a) 0 ∧
      (if mag b = 0 then isNaN (fmul a b) = true
      else fmul a b = pack (isNeg a != isNeg b) infMag) := by
  have hna := isNaN_eq_false_of_isInf ha
  have hnb := isNaN_eq_false_of_isFinite hb
  have hib := isInf_eq_false_of_isFinite hb
  refine ⟨by simp [fadd, hna, hnb, ha, hib], by simp [fadd, hna, hnb, ha, hib],
    by simp [fdiv, hna, hnb, ha, hib], ?_⟩
  split <;> simp [fmul, mag_ne_zero_of_isInf ha, *]

/-- Division of a finite value by a zero. -/
theorem fdiv_zero {a b : Word} (ha : isFinite a = true) (hb : mag b = 0) :
    if mag a = 0 then isNaN (fdiv a b) = true
    else fdiv a b = pack (isNeg a != isNeg b) infMag := by
  have hna := isNaN_eq_false_of_isFinite ha
  have hia := isInf_eq_false_of_isFinite ha
  have hnb := isNaN_eq_false_of_isFinite (isFinite_of_mag_eq_zero hb)
  have hib := isInf_eq_false_of_isFinite (isFinite_of_mag_eq_zero hb)
  split <;> simp [fdiv, *]

theorem fsub_self_eq_zero {a : Word} (ha : isFinite a = true) : fsub a a = zero := by
  rw [fsub_of_isFinite ha ha, sub_self, Bool.and_not_self, roundInt_zero]
  rfl

theorem fsqrt_of_mag_eq_zero {a : Word} (h : mag a = 0) : fsqrt a = a := by
  rw [fsqrt, isNaN_eq_false_of_isFinite (isFinite_of_mag_eq_zero h), if_neg (by decide), if_pos h]

theorem isNaN_fsqrt_of_negative {a : Word} (h : units a < 0) : isNaN (fsqrt a) = true := by
  obtain ⟨hneg, h0⟩ := units_neg_iff.mp h
  cases hnan : isNaN a with
  | true => exact isNaN_fsqrt hnan
  | false =>
    rw [fsqrt, hnan, if_neg (by decide), if_neg h0, if_pos hneg]
    exact isNaN_nanFor _ _ _

/-- Settles O27. -/
theorem arithmeticSpecial : Obligations.ArithmeticSpecial :=
  ⟨fun _ _ => isNaN_of_operand, fun _ _ => infinite_operands, fun _ _ => infinite_and_finite,
    fun _ _ => fdiv_zero, fun _ => fsub_self_eq_zero,
    fun _ => ⟨fun h => h.elim isNaN_fsqrt isNaN_fsqrt_of_negative, fsqrt_of_mag_eq_zero⟩⟩

/-! Exact values. -/

/-- A value that the format holds is rounded to itself. -/
theorem unitsOfMag_roundMag_exact {m v den : Nat} (hm : unitsOfMag m = v) (hv : v ≤ 2 ^ 277)
    (hd : 0 < den) : unitsOfMag (roundMag (v * den) den) = v := by
  rw [← units_infinity, ← hm, unitsOfMag_le_iff] at hv
  rw [← hm, roundMag_exact hv hd]

/-- Settles O29: below 2^24 the integer is its own significand. -/
theorem u2fExact : Obligations.U2fExact := fun n hn => by
  obtain ⟨m, hm⟩ := exists_unitsOfMag_scaled 149 hn
  have hle : n * 2 ^ 149 ≤ 2 ^ 277 := by
    rw [show 277 = 128 + 149 from rfl, pow_add]
    exact Nat.mul_le_mul_right _ (hn.le.trans (by norm_num))
  have hexact := unitsOfMag_roundMag_exact hm hle Nat.one_pos
  rw [Nat.mul_one] at hexact
  rw [u2f_eq, units_pack (roundMag_lt_two_pow _ _), hexact]
  simp

theorem u2f_one : u2f 1 = one := by decide +kernel
theorem u2f_two : u2f 2 = two := by decide +kernel

/-- Multiplication by 1 gives the word itself. -/
theorem fmul_one_right {a : Word} (ha : isFinite a = true) : fmul a one = a := by
  have hone : unitsOfMag (mag one) = 2 ^ 149 := by decide +kernel
  have hsign : isNeg one = false := by decide
  have hmag : mag a ≤ infMag := mag_le_of_not_isNaN (isNaN_eq_false_of_isFinite ha)
  rw [fmul_of_isFinite ha (by decide), hone, roundMag_exact hmag (by positivity), hsign,
    Bool.bne_false, pack_isNeg_mag]

/-- Twice a value below half the range is exact. -/
theorem units_fmul_two {a : Word} (ha : mag a < 0x7F000000) :
    units (fmul a two) = 2 * units a := by
  have htwo : unitsOfMag (mag two) = 2 * 2 ^ 149 := by decide +kernel
  have hsign : isNeg two = false := by decide
  have hfin : isFinite a = true := by
    rw [isFinite, decide_eq_true_eq]
    exact ha.trans (by decide)
  have hlt : unitsOfMag (mag a) < 2 ^ 276 := by
    rw [show 2 ^ 276 = unitsOfMag 0x7F000000 by decide +kernel]
    exact unitsOfMag_lt_iff.mpr ha
  obtain ⟨m, hm⟩ := exists_unitsOfMag_mul (mag a) 1
  rw [pow_one] at hm
  have hexact := unitsOfMag_roundMag_exact hm (by omega) (Nat.two_pow_pos 149)
  rw [fmul_of_isFinite hfin (by decide), htwo, hsign, Bool.bne_false, ← Nat.mul_assoc,
    units_pack (roundMag_lt_two_pow _ _), hexact, units]
  split <;> push_cast <;> ring

/-- Settles O28. -/
theorem harmonicCoherence : Obligations.HarmonicCoherence := fun s inst o ho hi hfin => by
  have hexec : ∀ k, exec (.oscSinh inst k) s =
      .next (s.completed (Config.fsin (fmul o.phase (u2f k))) 0) := fun _ => operate_of_inited ho hi
  refine ⟨?_, fun hlt => ⟨units_fmul_two hlt, ?_⟩⟩
  · rw [hexec, u2f_one, fmul_one_right hfin]
  · rw [hexec, u2f_two]

/-! Silence (R215 (a)): a zero operand of a product or a sum. -/

theorem mag_fmul_zero_left {a b : Word} (ha : mag a = 0) (hb : isFinite b = true) :
    mag (fmul a b) = 0 := by
  rw [fmul_of_isFinite (isFinite_of_mag_eq_zero ha) hb, ha, unitsOfMag_zero, Nat.zero_mul,
    roundMag_zero (by positivity), mag_pack (by norm_num)]

/-- Adding a zero keeps the value. -/
theorem feq_fadd_zero {z x : Word} (hz : mag z = 0) (hx : isNaN x = false) :
    feq (fadd z x) x = true ∧ feq (fadd x z) x = true := by
  have hzf := isFinite_of_mag_eq_zero hz
  have hself : feq x x = true := feq_iff.mpr ⟨hx, hx, rfl⟩
  cases hi : isInf x with
  | true =>
    obtain ⟨hxz, hzx, -⟩ := infinite_and_finite hi hzf
    rw [hxz, hzx]
    exact ⟨hself, hself⟩
  | false =>
    have hxf : isFinite x = true := by
      simp only [isNaN, isInf, isFinite, decide_eq_false_iff_not, decide_eq_true_eq] at *
      omega
    rw [fadd_of_isFinite hzf hxf, fadd_of_isFinite hxf hzf, units_eq_zero_iff.mpr hz, zero_add,
      add_zero]
    exact ⟨feq_iff.mpr ⟨isNaN_roundInt _ _, hx, units_roundInt_units _ hx⟩,
      feq_iff.mpr ⟨isNaN_roundInt _ _, hx, units_roundInt_units _ hx⟩⟩

/-- Settles O52: the mid and the side term are zeros, which the two sums leave out. -/
theorem muxSilence : Obligations.MuxSilence := by
  intro s inst u o hu hi hm ho hi' hvol out
  refine ⟨exec_muxEnc_dsbSc hu hi ho hi' hm, fun x y hxy => ?_⟩
  have hmono : isFinite u.monovol = true := (hvol _ (by simp)).1
  have hpilot : isFinite u.pilotvol = true := (hvol _ (by simp)).1
  have hstereo : isFinite u.stereovol = true := (hvol _ (by simp)).1
  have hfin : ∀ w ∈ [x, y], isFinite w = true := fun w hw =>
    isFinite_of_fle (by decide) (by decide) (hxy w hw)
  have hmid : mag (fmul (fdiv (fadd zero zero) two) u.monovol) = 0 :=
    mag_fmul_zero_left (by decide +kernel) hmono
  have hside : mag (fmul (fmul (fdiv (fsub zero zero) two) y) u.stereovol) = 0 :=
    mag_fmul_zero_left (mag_fmul_zero_left (by decide +kernel) (hfin y (by simp))) hstereo
  have hprod : isNaN (fmul x u.pilotvol) = false := by
    rw [fmul_of_isFinite (hfin x (by simp)) hpilot]
    exact isNaN_pack (roundMag_le _ _)
  have hinner := feq_iff.mp (feq_fadd_zero hmid hprod).1
  have houter := feq_iff.mp (feq_fadd_zero hside hinner.1).2
  exact feq_iff.mpr ⟨houter.1, hprod, houter.2.2.trans hinner.2.2⟩

end Sys2Proof.Machine

/-! Rounding to nearest (R7), over the real values: the rounded magnitude is nearest to the exact
value among all magnitudes, and a tie is even. Each primitive rounds a quotient, but the root:
that is seen through its integer part and a sticky bit. -/

namespace Sys2Proof.Machine

/-- No magnitude is nearer to the real `v`, in units, than `m`; if another is as near, `m` is
even. -/
def NearestMag (m : Nat) (v : ℝ) : Prop :=
  ∀ k, |(unitsOfMag m : ℝ) - v| ≤ |(unitsOfMag k : ℝ) - v| ∧
    (unitsOfMag k ≠ unitsOfMag m → |(unitsOfMag m : ℝ) - v| = |(unitsOfMag k : ℝ) - v| → m % 2 = 0)

/-- The values of a binade and above are multiples of its step, and those below it are farther: so a
significand within half a step of `v` is nearest. -/
theorem nearestMag_of_significand {e n : Nat} {v : ℝ} (hsig : e = 0 ∨ 2 ^ 23 ≤ n) (hn : n ≤ 2 ^ 24)
    (hv : e = 0 ∨ 2 ^ 23 * 2 ^ e ≤ v) (hnear : |(n : ℝ) * 2 ^ e - v| ≤ 2 ^ e / 2)
    (htie : |(n : ℝ) * 2 ^ e - v| = 2 ^ e / 2 → n % 2 = 0) : NearestMag (e * 2 ^ 23 + n) v := by
  intro k
  obtain ⟨e', n', rfl, hsig', hn'⟩ := exists_significand k
  rw [unitsOfMag_significand hsig hn, unitsOfMag_significand hsig' hn'.le]
  push_cast
  have hstep : (0 : ℝ) < 2 ^ e := by positivity
  have heven : |(n : ℝ) * 2 ^ e - v| = 2 ^ e / 2 → (e * 2 ^ 23 + n) % 2 = 0 := fun h => by
    have := htie h
    omega
  by_cases he : e ≤ e'
  · obtain ⟨d, rfl⟩ := Nat.exists_eq_add_of_le he
    have hmul : (n' : ℝ) * 2 ^ (e + d) = ((n' * 2 ^ d : ℕ) : ℝ) * 2 ^ e := by push_cast; ring
    have hmul' : n' * 2 ^ (e + d) = n' * 2 ^ d * 2 ^ e := by ring
    rw [hmul, hmul']
    generalize n' * 2 ^ d = j
    rcases eq_or_ne j n with rfl | hne
    · exact ⟨le_rfl, fun h => absurd rfl h⟩
    · have hone : (1 : ℝ) ≤ |(j : ℝ) - n| := by
        have : (1 : ℤ) ≤ |(j : ℤ) - n| := Int.one_le_abs (by omega)
        exact_mod_cast this
      have hgap : (2 : ℝ) ^ e ≤ |(j : ℝ) * 2 ^ e - n * 2 ^ e| := by
        rw [← sub_mul, abs_mul, abs_of_pos hstep]
        nlinarith
      have htri := abs_sub_le ((j : ℝ) * 2 ^ e) v (n * 2 ^ e)
      rw [abs_sub_comm v] at htri
      exact ⟨by linarith, fun _ h => heven (by linarith)⟩
  · have he0 : e ≠ 0 := by omega
    have hlow := hv.resolve_left he0
    have hn23 : (2 : ℝ) ^ 23 ≤ n := by exact_mod_cast hsig.resolve_left he0
    have hbelow : 2 * ((n' : ℝ) * 2 ^ e') ≤ 2 ^ 24 * 2 ^ e - 2 ^ e := by
      have hpow : (2 : ℝ) * 2 ^ e' ≤ 2 ^ e := by
        rw [← pow_succ']
        exact pow_le_pow_right₀ one_le_two (by omega)
      have hsmall : (n' : ℝ) ≤ 2 ^ 24 - 1 := by
        have : ((n' + 1 : ℕ) : ℝ) ≤ (2 ^ 24 : ℕ) := Nat.cast_le.mpr hn'
        push_cast at this
        linarith
      calc 2 * ((n' : ℝ) * 2 ^ e') = n' * (2 * 2 ^ e') := by ring
        _ ≤ (2 ^ 24 - 1) * 2 ^ e := mul_le_mul hsmall hpow (by positivity) (by norm_num)
        _ = 2 ^ 24 * 2 ^ e - 2 ^ e := by ring
    rcases le_total ((n : ℝ) * 2 ^ e) v with hle | hle
    · rw [abs_of_nonpos (by linarith), abs_of_nonpos (by linarith)]
      have : (2 : ℝ) ^ 23 * 2 ^ e ≤ n * 2 ^ e := mul_le_mul_of_nonneg_right hn23 hstep.le
      exact ⟨by linarith, fun _ h => by linarith⟩
    · have hfar : (n' : ℝ) * 2 ^ e' - v ≤ 0 := by linarith
      rw [abs_of_nonpos hfar]
      exact ⟨by linarith, fun _ h => heven (by linarith)⟩

/-- A finite rounded quotient is nearest to it. -/
theorem nearestMag_roundMag {num den : Nat} (hd : 0 < den) (h : roundMag num den < infMag) :
    NearestMag (roundMag num den) (num / den) := by
  obtain ⟨hsig, hn⟩ := significand_bounds num hd
  have hlow := le_of_excess (num := num) hd
  have hcut : roundMag num den =
      excess num den * 2 ^ 23 + nearestEven num (den * 2 ^ excess num den) := by
    unfold roundMag at h ⊢
    dsimp only at h ⊢
    omega
  have hd' : 0 < den * 2 ^ excess num den := by positivity
  obtain ⟨hlo, hhi⟩ := nearestEven_bounds num hd'
  have htie := nearestEven_even_of_tie (num := num) hd'
  rw [hcut]
  generalize nearestEven num (den * 2 ^ excess num den) = n at *
  generalize excess num den = e at *
  have hden : (0 : ℝ) < den := Nat.cast_pos.mpr hd
  have hval : (num : ℝ) / den * den = num := div_mul_cancel₀ _ hden.ne'
  generalize (num : ℝ) / den = v at *
  have hlo' : 2 * (v * den) ≤ 2 * (n * (den * 2 ^ e)) + den * 2 ^ e := by
    rw [hval]
    exact_mod_cast hlo
  have hhi' : 2 * (n * (den * 2 ^ e)) ≤ 2 * (v * den) + den * 2 ^ e := by
    rw [hval]
    exact_mod_cast hhi
  refine nearestMag_of_significand hsig hn ?_ ?_ ?_
  · refine or_iff_not_imp_left.mpr fun he => ?_
    have hlow' : (2 : ℝ) ^ 23 * (den * 2 ^ e) ≤ v * den := by
      rw [hval]
      exact_mod_cast hlow he
    refine le_of_mul_le_mul_right ?_ hden
    linarith
  · rw [abs_le]
    constructor <;> refine le_of_mul_le_mul_right ?_ hden <;> linarith
  · intro heq
    refine htie ?_
    rcases (abs_eq (by positivity)).mp heq with heq | heq
    · right
      have : 2 * (n * (den * 2 ^ e)) = 2 * (v * den) + den * 2 ^ e := by
        linear_combination 2 * den * heq
      rw [hval] at this
      exact_mod_cast this
    · left
      have : 2 * (v * den) = 2 * (n * (den * 2 ^ e)) + den * 2 ^ e := by
        linear_combination -2 * den * heq
      rw [hval] at this
      exact_mod_cast this

/-- A value strictly between two integers rounds as the half between them, if the step is at least
2. -/
theorem nearestMag_sticky {r : Nat} {v : ℝ} (hr : 2 ^ 74 ≤ r) (hlo : (r : ℝ) < v)
    (hhi : v < r + 1) (h : roundMag (2 * r + 1) 2 < infMag) :
    NearestMag (roundMag (2 * r + 1) 2) v := by
  obtain ⟨hsig, hn⟩ := significand_bounds (2 * r + 1) two_pos
  have hlow := le_of_excess (num := 2 * r + 1) two_pos
  have hcut : roundMag (2 * r + 1) 2 = excess (2 * r + 1) 2 * 2 ^ 23 +
      nearestEven (2 * r + 1) (2 * 2 ^ excess (2 * r + 1) 2) := by
    unfold roundMag at h ⊢
    dsimp only at h ⊢
    omega
  have he : excess (2 * r + 1) 2 ≠ 0 := by
    have := lt_of_excess (2 * r + 1) two_pos
    intro h0
    rw [h0] at this
    omega
  obtain ⟨hnlo, hnhi⟩ := nearestEven_bounds (2 * r + 1)
    (show 0 < 2 * 2 ^ excess (2 * r + 1) 2 by positivity)
  rw [hcut]
  generalize nearestEven (2 * r + 1) (2 * 2 ^ excess (2 * r + 1) 2) = n at *
  generalize excess (2 * r + 1) 2 = e at *
  have hlow := hlow he
  obtain ⟨d, rfl⟩ := Nat.exists_eq_add_one_of_ne_zero he
  have hdouble : 2 ^ (d + 1) = 2 * 2 ^ d := pow_succ' 2 d
  have hprod : n * (2 * 2 ^ (d + 1)) = 2 * (n * 2 ^ (d + 1)) := by ring
  have hprod' : n * 2 ^ (d + 1) = 2 * (n * 2 ^ d) := by ring
  rw [hprod] at hnlo hnhi
  have hodd : r + 1 ≤ n * 2 ^ (d + 1) + 2 ^ d := by omega
  have hodd' : n * 2 ^ (d + 1) ≤ r + 2 ^ d := by omega
  have hup : (r : ℝ) + 1 ≤ n * 2 ^ (d + 1) + 2 ^ d := by exact_mod_cast hodd
  have hdown : (n : ℝ) * 2 ^ (d + 1) ≤ r + 2 ^ d := by exact_mod_cast hodd'
  have hhalf : (2 : ℝ) ^ (d + 1) / 2 = 2 ^ d := by rw [pow_succ]; ring
  have hstrict : |(n : ℝ) * 2 ^ (d + 1) - v| < 2 ^ (d + 1) / 2 := by
    rw [hhalf, abs_lt]
    constructor <;> linarith
  refine nearestMag_of_significand hsig hn (.inr ?_) hstrict.le fun heq => absurd heq hstrict.ne
  have hr' : 2 ^ 23 * 2 ^ (d + 1) ≤ r := by omega
  have : (2 : ℝ) ^ 23 * 2 ^ (d + 1) ≤ r := by exact_mod_cast hr'
  linarith

/-- The word `r` is the exact value `x`, in units, rounded as R7 says; `zeroNeg` is the sign of an
exact zero. -/
def Rounded (r : Word) (x : ℝ) (zeroNeg : Bool) : Prop :=
  (|x| < 2 ^ 277 - 2 ^ 252 →
    isFinite r = true ∧ ∀ w, isFinite w = true →
      |(units r : ℝ) - x| ≤ |(units w : ℝ) - x| ∧
        (units w ≠ units r → |(units r : ℝ) - x| = |(units w : ℝ) - x| → mag r % 2 = 0)) ∧
  (2 ^ 277 - 2 ^ 252 ≤ |x| → isInf r = true) ∧
  (x < 0 → isNeg r = true) ∧ (0 < x → isNeg r = false) ∧ (x = 0 → isNeg r = zeroNeg)

/-- The magnitude `m` is the value `v` rounded: nearest to it below the threshold, infinite above.
-/
structure RoundedMag (m : Nat) (v : ℝ) : Prop where
  le : m ≤ infMag
  nearest : v < 2 ^ 277 - 2 ^ 252 → m < infMag ∧ NearestMag m v
  infinite : 2 ^ 277 - 2 ^ 252 ≤ v → m = infMag

theorem roundedMag_roundMag (num : Nat) {den : Nat} (hd : 0 < den) :
    RoundedMag (roundMag num den) (num / den) := by
  have hden : (0 : ℝ) < den := Nat.cast_pos.mpr hd
  have hiff : roundMag num den < infMag ↔ (num : ℝ) / den < 2 ^ 277 - 2 ^ 252 := by
    rw [roundMag_lt_infMag_iff hd, div_lt_iff₀ hden, ← Nat.cast_lt (α := ℝ), Nat.cast_mul,
      Nat.cast_sub (Nat.pow_le_pow_right two_pos (by norm_num))]
    simp only [Nat.cast_pow, Nat.cast_ofNat]
  refine ⟨roundMag_le _ _, fun h => ?_, fun h => ?_⟩
  · exact ⟨hiff.mpr h, nearestMag_roundMag hd (hiff.mpr h)⟩
  · exact le_antisymm (roundMag_le _ _) (Nat.le_of_not_lt fun hlt => h.not_gt (hiff.mp hlt))

/-- Two values of one sign are as far apart as their magnitudes. -/
theorem abs_sub_signed (neg : Bool) (n : Nat) (v : ℝ) :
    |((if neg then -(n : ℤ) else n : ℤ) : ℝ) - if neg then -v else v| = |(n : ℝ) - v| := by
  cases neg
  · simp
  · rw [← abs_neg]
    simp [sub_eq_add_neg, add_comm]

/-- Two values of opposite signs are the sum of their magnitudes apart. -/
theorem abs_sub_signed_of_ne {neg neg' : Bool} (h : neg ≠ neg') (n : Nat) {v : ℝ} (hv : 0 ≤ v) :
    |((if neg then -(n : ℤ) else n : ℤ) : ℝ) - if neg' then -v else v| = n + v := by
  have hsum : (0 : ℝ) ≤ n + v := by positivity
  cases neg <;> cases neg' <;> simp at h
  · simp [abs_of_nonneg hsum]
  · rw [← abs_neg]
    simp [add_comm v, hsum]

/-- With the sign of the exact value, a rounded magnitude is the rounded value: a word of the
other sign is no nearer than a zero is. -/
theorem RoundedMag.pack {m : Nat} {v : ℝ} (h : RoundedMag m v) (hv : 0 ≤ v) {neg zeroNeg : Bool}
    {x : ℝ} (hx : x = if neg then -v else v) (hzero : v = 0 → neg = zeroNeg) :
    Rounded (pack neg m) x zeroNeg := by
  have hm31 : m < 2 ^ 31 := h.le.trans_lt (by decide)
  have habs : |x| = v := by
    rw [hx]
    cases neg <;> simp [abs_of_nonneg hv]
  have hdist : |(units (Machine.pack neg m) : ℝ) - x| = |(unitsOfMag m : ℝ) - v| := by
    rw [units_pack hm31, hx]
    exact abs_sub_signed neg _ v
  rw [Rounded, habs, hdist, mag_pack hm31, isNeg_pack hm31]
  refine ⟨fun hlt => ?_, fun hge => ?_, fun hneg => ?_, fun hpos => ?_, fun h0 => ?_⟩
  · obtain ⟨hfin, hnear⟩ := h.nearest hlt
    refine ⟨by rw [isFinite, mag_pack hm31]; simpa using hfin, fun w _ => ?_⟩
    have hw : units w = if isNeg w then -(unitsOfMag (mag w) : ℤ) else unitsOfMag (mag w) := rfl
    have hr := units_pack (neg := neg) hm31
    by_cases hs : isNeg w = neg
    · have hdist' : |(units w : ℝ) - x| = |(unitsOfMag (mag w) : ℝ) - v| := by
        rw [hw, hs, hx]
        exact abs_sub_signed _ _ _
      rw [hdist']
      refine ⟨(hnear (mag w)).1, fun hne => (hnear (mag w)).2 fun heq => hne ?_⟩
      rw [hw, hr, hs, heq]
    · have hdist' : |(units w : ℝ) - x| = unitsOfMag (mag w) + v := by
        rw [hw, hx]
        exact abs_sub_signed_of_ne hs _ hv
      obtain ⟨hle, htie⟩ := hnear 0
      rw [unitsOfMag_zero, Nat.cast_zero, zero_sub, abs_neg, abs_of_nonneg hv] at hle htie
      have hq : (0 : ℝ) ≤ unitsOfMag (mag w) := Nat.cast_nonneg _
      rw [hdist']
      refine ⟨by linarith, fun hne heq => htie (fun h0 => hne ?_) (by linarith)⟩
      have hq0 : unitsOfMag (mag w) = 0 := by
        have : (unitsOfMag (mag w) : ℝ) = 0 := by linarith
        exact_mod_cast this
      rw [hw, hr, ← h0, hq0]
      cases isNeg w <;> cases neg <;> rfl
  · rw [isInf, mag_pack hm31]
    simpa using h.infinite hge
  · cases neg
    · simp only [Bool.false_eq_true, if_false] at hx
      linarith
    · rfl
  · cases neg
    · rfl
    · simp only [if_true] at hx
      linarith
  · refine hzero ?_
    rw [← habs, h0, abs_zero]

/-- A rounded integer is its rounded value. -/
theorem rounded_roundInt (n : Int) (zeroNeg : Bool) : Rounded (roundInt n zeroNeg) n zeroNeg := by
  have hmag := roundedMag_roundMag n.natAbs Nat.one_pos
  rw [Nat.cast_one, div_one] at hmag
  have hpack : roundInt n zeroNeg =
      pack (if n = 0 then zeroNeg else decide (n < 0)) (roundMag n.natAbs 1) := by
    unfold roundInt
    split
    · rename_i h0
      rw [h0, Int.natAbs_zero, roundMag_zero Nat.one_pos]
    · rfl
  rw [hpack]
  refine hmag.pack (Nat.cast_nonneg _) ?_ fun h0 => if_pos (by simpa using h0)
  have hcast : ((n.natAbs : ℕ) : ℝ) = |(n : ℝ)| := by
    rw [Nat.cast_natAbs, Int.cast_abs]
  rw [hcast]
  rcases lt_trichotomy n 0 with hn | rfl | hn
  · have : (n : ℝ) < 0 := by exact_mod_cast hn
    simp [hn, hn.ne, abs_of_neg this]
  · simp
  · have : (0 : ℝ) < n := by exact_mod_cast hn
    simp [hn.ne', hn.not_gt, abs_of_pos this]

/-- The value of a word, as its sign and magnitude. -/
theorem cast_units (a : Word) :
    (units a : ℝ) = if isNeg a then -(unitsOfMag (mag a) : ℝ) else unitsOfMag (mag a) := by
  unfold units
  split <;> simp

theorem rounded_fmul {a b : Word} (ha : isFinite a = true) (hb : isFinite b = true) :
    Rounded (fmul a b) ((units a : ℝ) * units b / 2 ^ 149) (isNeg a != isNeg b) := by
  have hmag := roundedMag_roundMag (unitsOfMag (mag a) * unitsOfMag (mag b)) (Nat.two_pow_pos 149)
  rw [Nat.cast_mul, Nat.cast_pow, Nat.cast_ofNat] at hmag
  rw [fmul_of_isFinite ha hb]
  refine hmag.pack (by positivity) ?_ fun _ => rfl
  rw [cast_units, cast_units]
  cases isNeg a <;> cases isNeg b <;> simp [neg_div]

theorem rounded_fdiv {a b : Word} (ha : isFinite a = true) (hb : isFinite b = true)
    (h0 : mag b ≠ 0) :
    Rounded (fdiv a b) ((units a : ℝ) * 2 ^ 149 / units b) (isNeg a != isNeg b) := by
  have hpos : 0 < unitsOfMag (mag b) := unitsOfMag_pos.mpr (Nat.pos_of_ne_zero h0)
  have hmag := roundedMag_roundMag (unitsOfMag (mag a) * 2 ^ 149) hpos
  rw [Nat.cast_mul, Nat.cast_pow, Nat.cast_ofNat] at hmag
  rw [fdiv_of_isFinite ha hb h0]
  refine hmag.pack (by positivity) ?_ fun _ => rfl
  rw [cast_units, cast_units]
  cases isNeg a <;> cases isNeg b <;> simp [neg_div, div_neg]

/-- A root stays far below the threshold. -/
theorem two_pow_214_lt : 2 ^ 214 + 2 ^ 252 < 2 ^ 277 := by decide +kernel

/-- The integer root of `m` units has more than 74 and at most 214 bits. -/
theorem isqrt_range {m : Nat} (h0 : 0 < m) (hm : m < 2 ^ 277) :
    (isqrt (m * 2 ^ 149) * isqrt (m * 2 ^ 149) ≤ m * 2 ^ 149 ∧
      m * 2 ^ 149 < (isqrt (m * 2 ^ 149) + 1) * (isqrt (m * 2 ^ 149) + 1)) ∧
      2 ^ 74 ≤ isqrt (m * 2 ^ 149) ∧ isqrt (m * 2 ^ 149) < 2 ^ 214 := by
  have hbound : m * 2 ^ 149 < 2 ^ 214 * 2 ^ 214 := by
    calc m * 2 ^ 149 < 2 ^ 277 * 2 ^ 149 := Nat.mul_lt_mul_of_pos_right hm (Nat.two_pow_pos _)
      _ ≤ 2 ^ 214 * 2 ^ 214 := by decide +kernel
  obtain ⟨hlo, hhi⟩ := isqrt_bounds hbound
  refine ⟨⟨hlo, hhi⟩, ?_, Nat.mul_self_lt_mul_self_iff.mp (hlo.trans_lt hbound)⟩
  by_contra hlt
  have hsq := Nat.mul_self_le_mul_self (Nat.lt_of_not_le hlt)
  rw [Nat.succ_eq_add_one, ← pow_add] at hsq
  have hone : 1 * 2 ^ 149 ≤ m * 2 ^ 149 := Nat.mul_le_mul_right _ h0
  omega

/-- The root of `m` units, rounded: exact where the integer root is, else above it by less than 1.
-/
theorem roundedMag_sqrtMag {m : Nat} (h0 : 0 < m) (hm : m < 2 ^ 277) :
    RoundedMag (sqrtMag m) (Real.sqrt ((m : ℝ) * 2 ^ 149)) := by
  obtain ⟨⟨hlo, hhi⟩, hr74, hr214⟩ := isqrt_range h0 hm
  have hval : Real.sqrt ((m : ℝ) * 2 ^ 149) = Real.sqrt ((m * 2 ^ 149 : ℕ) : ℝ) := by
    rw [Nat.cast_mul, Nat.cast_pow, Nat.cast_ofNat]
  rw [hval, sqrtMag]
  generalize m * 2 ^ 149 = n at *
  generalize isqrt n = r at *
  have hle : (r : ℝ) ≤ Real.sqrt (n : ℝ) := by
    refine Real.le_sqrt_of_sq_le ?_
    rw [pow_two]
    exact_mod_cast hlo
  have hlt : Real.sqrt (n : ℝ) < r + 1 := by
    rw [Real.sqrt_lt' (by positivity), pow_two]
    exact_mod_cast hhi
  have hfin : Real.sqrt (n : ℝ) < 2 ^ 277 - 2 ^ 252 := by
    have hr : (r : ℝ) + 1 ≤ 2 ^ 214 := by exact_mod_cast hr214
    have hthreshold := (Nat.cast_lt (α := ℝ)).mpr two_pow_214_lt
    simp only [Nat.cast_add, Nat.cast_pow, Nat.cast_ofNat] at hthreshold
    exact (hlt.trans_le hr).trans (lt_sub_iff_add_lt.mpr hthreshold)
  split
  · rename_i hsq
    have hexact : Real.sqrt (n : ℝ) = ((2 * r : ℕ) : ℝ) / (2 : ℕ) := by
      rw [← hsq, Nat.cast_mul, Real.sqrt_mul_self (Nat.cast_nonneg r)]
      simp
    rw [hexact]
    exact roundedMag_roundMag (2 * r) two_pos
  · rename_i hsq
    have hne : (r : ℝ) ≠ Real.sqrt (n : ℝ) := fun heq => hsq (by
      have := Real.mul_self_sqrt (Nat.cast_nonneg (α := ℝ) n)
      rw [← heq] at this
      exact_mod_cast this)
    have hmag : roundMag (2 * r + 1) 2 < infMag := by
      rw [roundMag_lt_infMag_iff two_pos]
      have := Nat.lt_sub_of_add_lt two_pow_214_lt
      omega
    exact ⟨hmag.le, fun _ => ⟨hmag, nearestMag_sticky hr74 (lt_of_le_of_ne hle hne) hlt hmag⟩,
      fun h => absurd hfin h.not_gt⟩

theorem rounded_fsqrt {a : Word} (ha : isFinite a = true) (h : 0 ≤ units a) :
    Rounded (fsqrt a) (Real.sqrt ((units a : ℝ) * 2 ^ 149)) (isNeg a) := by
  by_cases h0 : mag a = 0
  · have hmag := roundedMag_roundMag 0 Nat.one_pos
    rw [roundMag_zero Nat.one_pos, Nat.cast_zero, zero_div] at hmag
    have hpack := hmag.pack (neg := isNeg a) (zeroNeg := isNeg a) (x := 0) le_rfl (by simp)
      fun _ => rfl
    rw [fsqrt_of_mag_eq_zero h0, units_eq_zero_iff.mpr h0, Int.cast_zero, zero_mul, Real.sqrt_zero]
    rwa [← h0, pack_isNeg_mag] at hpack
  · have hneg : isNeg a = false := (units_nonneg_iff.mp h).resolve_right h0
    have hlt : unitsOfMag (mag a) < 2 ^ 277 := by
      rw [← units_infinity, unitsOfMag_lt_iff]
      simpa [isFinite] using ha
    have hpos : 0 < unitsOfMag (mag a) := unitsOfMag_pos.mpr (Nat.pos_of_ne_zero h0)
    have hmag := roundedMag_sqrtMag hpos hlt
    rw [fsqrt_of_isFinite ha hneg h0, hneg, cast_units, hneg]
    exact hmag.pack (Real.sqrt_nonneg _) (by simp) fun _ => rfl

/-- Settles O26. -/
theorem arithmeticNearest : Obligations.ArithmeticNearest := fun a b ha hb => by
  refine ⟨?_, ?_, rounded_fmul ha hb, rounded_fdiv ha hb, rounded_fsqrt ha⟩
  · rw [fadd_of_isFinite ha hb, ← Int.cast_add]
    exact rounded_roundInt _ _
  · rw [fsub_of_isFinite ha hb, ← Int.cast_sub]
    exact rounded_roundInt _ _

end Sys2Proof.Machine
